-- ==== Sys2Proof/Word.lean ====
section
/-! DEFINITION. The value types every other file uses: the byte, the per-channel triple (a pixel is one), and
the enumerations of the spec, without their numeric codes (the codes stand in Decode.lean). -/

namespace Sys2Proof

/-- An 8-bit value: one channel of a pixel (R51, R75). -/
abbrev Byte := BitVec 8

/-- The three color channels (R74). -/
inductive Channel where
  | R | G | B
  deriving DecidableEq, Repr, Inhabited

/-- One value per channel. -/
structure PerChannel (α : Type) where
  r : α
  g : α
  b : α
  deriving DecidableEq, Repr, Inhabited

/-- The component of channel `c`. -/
def PerChannel.get {α : Type} (t : PerChannel α) : Channel → α
  | .R => t.r
  | .G => t.g
  | .B => t.b

/-- `t` with the component of channel `c` replaced. -/
def PerChannel.set {α : Type} (t : PerChannel α) (c : Channel) (v : α) : PerChannel α :=
  match c with
  | .R => { t with r := v }
  | .G => { t with g := v }
  | .B => { t with b := v }

/-- A pixel is the structure (r, g, b) of three unsigned bytes (R51). -/
abbrev Pixel := PerChannel Byte

/-- The Timer Phase of one axis (R25). -/
inductive Phase where
  | activePixel | frontPorch | sync | backPorch
  deriving DecidableEq, Repr, Inhabited

/-- The fixed cyclic order of the phases (R72). -/
def Phase.succ : Phase → Phase
  | .activePixel => .frontPorch
  | .frontPorch => .sync
  | .sync => .backPorch
  | .backPorch => .activePixel

/-- The axis, which also names its alarm: `H` is ALARM_H, `V` is ALARM_V (R73, R74). -/
inductive Axis where
  | H | V
  deriving DecidableEq, Repr, Inhabited

/-- The eight handlers an alarm's `handler` field can name (R73, R175). -/
inductive HandlerId where
  | hActive | hFp | hSync | hBp | vEnter | vFp | vSync | vBp
  deriving DecidableEq, Repr, Inhabited

/-- The axis a handler belongs to: bit 2 of its HandlerId (R73, R175). -/
def HandlerId.axis : HandlerId → Axis
  | .hActive | .hFp | .hSync | .hBp => .H
  | .vEnter | .vFp | .vSync | .vBp => .V

/-- The phase during which a handler is bound: bits 1..0 of its HandlerId (R73, R175). -/
def HandlerId.phase : HandlerId → Phase
  | .hActive | .vEnter => .activePixel
  | .hFp | .vFp => .frontPorch
  | .hSync | .vSync => .sync
  | .hBp | .vBp => .backPorch

/-- `axis ‖ phase` (R73). -/
def HandlerId.ofAxisPhase : Axis → Phase → HandlerId
  | .H, .activePixel => .hActive
  | .H, .frontPorch => .hFp
  | .H, .sync => .hSync
  | .H, .backPorch => .hBp
  | .V, .activePixel => .vEnter
  | .V, .frontPorch => .vFp
  | .V, .sync => .vSync
  | .V, .backPorch => .vBp

end Sys2Proof
end

