-- ==== Sys2Proof/Config.lean ====
section
/-! DEFINITION. What is fixed for a run: the configuration record `Cfg` (Mode Descriptor, R6, and engine
options, R8), the environment's answers to a load (R192), and the free values, which are opaque constants
with no body. The checks and the derived quantities of R7, R9 and R202 stand in Machine/Derived.lean. -/

namespace Sys2Proof

/-- Which of x, y is the fast counter (R8, R77). -/
inductive ScanOrder where
  | rowMajor | columnMajor
  deriving DecidableEq, Repr, Inhabited

/-- How the vertical axis is clocked (R8, R145, R146). -/
inductive VerticalDrive where
  | lineChained | dedicatedTimer
  deriving DecidableEq, Repr, Inhabited

/-- The two realizations of the timer cascade (R8, R168, R169). -/
inductive Strategy where
  | phaseChained | freeRunning
  deriving DecidableEq, Repr, Inhabited

/-- A permutation of R, G, B (R8): the order of the three `emitChannel` calls of a pixel (R105). -/
inductive ChannelOrder where
  | rgb | rbg | grb | gbr | brg | bgr
  deriving DecidableEq, Repr, Inhabited

/-- The fixed bit-to-pin table: bit i of a channel value drives the pin, or nothing (R8, R76). A pin id is a
natural, because the spec gives pins no addresses (log 22). -/
structure PinTable where
  bit0 : Option Nat
  bit1 : Option Nat
  bit2 : Option Nat
  bit3 : Option Nat
  bit4 : Option Nat
  bit5 : Option Nat
  bit6 : Option Nat
  bit7 : Option Nat
  deriving DecidableEq, Repr, Inhabited

/-- The configuration of R6 and R8. `SCH.CONFIG` takes one as its operand, whatever its values. -/
structure Cfg where
  /-- W, H: the active resolution in pixels (R6). -/
  w : Nat
  h : Nat
  /-- H_ACTIVE, H_FP, H_SYNC, H_BP in timer ticks (R6). -/
  hActive : Nat
  hFp : Nat
  hSync : Nat
  hBp : Nat
  /-- V_ACTIVE, V_FP, V_SYNC, V_BP in lines (R6). -/
  vActive : Nat
  vFp : Nat
  vSync : Nat
  vBp : Nat
  /-- The documented totals in ticks, where a mode has them (R7). -/
  hTotal : Option Nat
  fTotal : Option Nat
  /-- The engine options of R8, in the order of its table. -/
  pixelPeriod : Nat
  stride : Nat
  scanOrder : ScanOrder
  verticalDrive : VerticalDrive
  strategy : Strategy
  pinOfBit : PinTable
  latchPin : PerChannel Nat
  hsyncPin : Nat
  vsyncPin : Nat
  wired : PerChannel Byte
  channelOrder : ChannelOrder
  pixelWriteAtomic : Bool
  doubleBuffer : Bool
  hasCapquery : Bool
  /-- `none` is unbounded (R8). -/
  timerWidth : Option Nat
  deriving DecidableEq, Repr, Inhabited

/-- The environment-chosen `outcome(src)` of R192. -/
inductive LoadOutcome where
  | openFailed
  | badFormat
  | rows (rows : List (Nat × List Pixel)) (complete : Bool)
  deriving DecidableEq, Repr, Inhabited

/-- FREE VALUE: what a Framebuffer channel reads as when nothing has stored to it since its allocation
(R40: "every slot holds an arbitrary pixel, fixed until written"; log 8). It depends on which allocation,
which of the two buffers, which channel and which slot, and on nothing else, so it is fixed until written. -/
opaque Config.freeByte (alloc : Nat) (buffer : Bool) (c : Channel) (slot : Nat) : Byte

/-- FREE VALUE: the n-th order or interleaving choice the environment makes beyond `State.choices`
(R60 item 4, R91, R191; log 6). -/
opaque Config.freeChoice (n : Nat) : Nat

/-- FREE VALUE: the environment's `outcome(src)` where `State.outcomes` does not list it (R192; log 7). -/
opaque Config.freeOutcome (src : Nat) (n : Nat) : LoadOutcome

/-- MONITOR_NATIVE, "an environment constant (w, h)" (R193; log 17). -/
opaque Config.monitorNative : Nat × Nat

end Sys2Proof
end

