-- ==== Sys2Proof/Machine/Derived.lean ====
section
/-! DEFINITION. The derived quantities of R7 and R9, the checks of `SCH.CONFIG` in R202's order, and the
channel order of R8 as a list. -/

namespace Sys2Proof

/-- `ceil(a/b)`, the least n with `n*b >= a` (`00_scope.md` section 5), for `b >= 1`. -/
def ceilDiv (a b : Nat) : Nat := (a + b - 1) / b

/-- H_LINE: timer ticks per line (R7). -/
def Cfg.hLine (c : Cfg) : Nat := c.hActive + c.hFp + c.hSync + c.hBp

/-- V_LINES: lines per frame (R7). -/
def Cfg.vLines (c : Cfg) : Nat := c.vActive + c.vFp + c.vSync + c.vBp

/-- F_TICKS: timer ticks per frame (R7). -/
def Cfg.fTicks (c : Cfg) : Nat := c.vLines * c.hLine

/-- FAST_LIMIT (R9). -/
def Cfg.fastLimit (c : Cfg) : Nat :=
  match c.scanOrder with
  | .rowMajor => c.w
  | .columnMajor => c.h

/-- SLOW_LIMIT (R9). -/
def Cfg.slowLimit (c : Cfg) : Nat :=
  match c.scanOrder with
  | .rowMajor => c.h
  | .columnMajor => c.w

/-- N_FAST: pixel ticks per active line (R9). -/
def Cfg.nFast (c : Cfg) : Nat := ceilDiv c.fastLimit c.stride

/-- N_SLOW: active lines per frame (R9). -/
def Cfg.nSlow (c : Cfg) : Nat := ceilDiv c.slowLimit c.stride

/-- `PIN_OF_BIT[i]` (R8). -/
def PinTable.get (t : PinTable) : Nat → Option Nat
  | 0 => t.bit0
  | 1 => t.bit1
  | 2 => t.bit2
  | 3 => t.bit3
  | 4 => t.bit4
  | 5 => t.bit5
  | 6 => t.bit6
  | 7 => t.bit7
  | _ => none

/-- The bit numbers of a channel value. -/
def channelBits : List Nat := [0, 1, 2, 3, 4, 5, 6, 7]

/-- WIRED_BITS: bit i set iff `PIN_OF_BIT[i]` is a pin (R76). -/
def PinTable.wiredBits (t : PinTable) : Byte := BitVec.ofFnLE fun i : Fin 8 => (t.get i).isSome

/-- Every pin id a configuration names, once for each naming (R9). -/
def Cfg.allPins (c : Cfg) : List Nat :=
  channelBits.filterMap c.pinOfBit.get ++ [c.latchPin.r, c.latchPin.g, c.latchPin.b, c.hsyncPin, c.vsyncPin]

/-- `|a - b| <= 1` (R7). -/
def withinOne (a b : Nat) : Bool := decide (a ≤ b + 1 ∧ b ≤ a + 1)

/-- WIRED[c] has no bit without a pin (R9). -/
def wiredOk (t : PinTable) (m : Byte) : Bool := m &&& ~~~t.wiredBits == 0

/-- The eleven checks, in the order in which R202 tests them. -/
def Cfg.checks (c : Cfg) : List Bool :=
  [ decide (1 ≤ c.w ∧ 1 ≤ c.h),
    decide (1 ≤ c.hActive ∧ 1 ≤ c.hFp ∧ 1 ≤ c.hSync ∧ 1 ≤ c.hBp),
    decide (1 ≤ c.vActive ∧ 1 ≤ c.vFp ∧ 1 ≤ c.vSync ∧ 1 ≤ c.vBp),
    decide (1 ≤ c.pixelPeriod ∧ 1 ≤ c.stride),
    decide (c.hActive = c.nFast * c.pixelPeriod),
    decide (c.vActive = c.nSlow),
    c.hTotal.all (withinOne c.hLine),
    c.fTotal.all (withinOne c.fTicks),
    decide c.allPins.Nodup,
    wiredOk c.pinOfBit c.wired.r && wiredOk c.pinOfBit c.wired.g && wiredOk c.pinOfBit c.wired.b,
    c.timerWidth.all fun n => decide (c.fTicks < 2 ^ n) ]

/-- The position, counted from `k`, of the first check that fails. -/
def firstFailing (k : Nat) : List Bool → Option Nat
  | [] => none
  | b :: bs => if b then firstFailing (k + 1) bs else some k

/-- The index of the first failing check of R202, none for a legal configuration. -/
def Cfg.failingCheck (c : Cfg) : Option Nat := firstFailing 1 c.checks

/-- A legal configuration: it passes R7 and R9 (R31). -/
abbrev Cfg.valid (c : Cfg) : Prop := c.failingCheck = none

/-- The channels in the order in which a pixel's are emitted (R8, R105). -/
def ChannelOrder.toList : ChannelOrder → List Channel
  | .rgb => [.R, .G, .B]
  | .rbg => [.R, .B, .G]
  | .grb => [.G, .R, .B]
  | .gbr => [.G, .B, .R]
  | .brg => [.B, .R, .G]
  | .bgr => [.B, .G, .R]

end Sys2Proof
end

