-- ==== Sys2Proof/Syntax.lean ====
section
/-! DEFINITION. The 29 operations of spec/opcode_table.json as one inductive, and the operation word of a
script: the operation byte with its typed operands passed beside it (R70, R71, R75, R81). -/

namespace Sys2Proof

/-- The operations, in the table's order, each with the operands of its rule. A channel operand keeps its two
bits, because code 3 is an operand the operation itself refuses (R74, R79); every other field is decoded. -/
inductive Instr where
  /-- `FB.GET x, y` (R90). -/
  | fbGet (x y : Nat)
  /-- `FB.SET x, y, p` (R91). -/
  | fbSet (x y : Nat) (p : Pixel)
  /-- `FB.GETU x, y` (R92). -/
  | fbGetu (x y : Nat)
  /-- `FB.SWAP` (R93). -/
  | fbSwap
  /-- `FB.SETCH x, y, c, v` (R95). -/
  | fbSetch (x y : Nat) (c : BitVec 2) (v : Byte)
  /-- `PO.CLRCOLOR` (R100). -/
  | poClrcolor
  /-- `PO.SETCOLOR v` (R101). -/
  | poSetcolor (v : Byte)
  /-- `PO.LATCHON c` (R102). -/
  | poLatchon (c : BitVec 2)
  /-- `PO.LATCHOFF c` (R103). -/
  | poLatchoff (c : BitVec 2)
  /-- `PO.EMITCHANNEL c, v` (R104). -/
  | poEmitchannel (c : BitVec 2) (v : Byte)
  /-- `PO.EMITPIXEL p` (R105). -/
  | poEmitpixel (p : Pixel)
  /-- `H.ACTIVE` (R122). -/
  | hActive
  /-- `H.FP` (R123). -/
  | hFp
  /-- `H.SYNC` (R124). -/
  | hSync
  /-- `H.BP` (R125). -/
  | hBp
  /-- `V.ENTER` (R141). -/
  | vEnter
  /-- `V.FP` (R142). -/
  | vFp
  /-- `V.SYNC` (R143). -/
  | vSync
  /-- `V.BP` (R144). -/
  | vBp
  /-- `SCH.CONFIG cfg` (R161). -/
  | schConfig (cfg : Cfg)
  /-- `SCH.ARM` (R162). -/
  | schArm
  /-- `SCH.DISARM` (R163). -/
  | schDisarm
  /-- `SCH.TICK` (R164). -/
  | schTick
  /-- `SCH.SETALARM a, d, h` (R165). -/
  | schSetalarm (a : Axis) (d : Nat) (h : HandlerId)
  /-- `SCH.DISPATCH a` (R166). -/
  | schDispatch (a : Axis)
  /-- `SCH.SPIN th` (R167). -/
  | schSpin (th : Nat)
  /-- `HOST.WRITEROW y, row` (R191). -/
  | hostWriterow (y : Nat) (row : List Pixel)
  /-- `HOST.LOADIMAGE src` (R192). -/
  | hostLoadimage (src : Nat)
  /-- `HOST.QUERYCAPS` (R193). -/
  | hostQuerycaps
  deriving DecidableEq, Repr, Inhabited

/-- A typed operand of an operation word (R74, R75). -/
inductive Operand where
  /-- A coordinate, a duration or a threshold. -/
  | nat (n : Nat)
  | byte (v : Byte)
  /-- A channel operand: 2 bits (R74). -/
  | chan (c : BitVec 2)
  /-- An alarm operand: 1 bit (R74). -/
  | alarm (a : BitVec 1)
  /-- A HandlerId: 3 bits (R73). -/
  | handler (h : BitVec 3)
  | pixel (p : Pixel)
  | row (ps : List Pixel)
  | cfg (c : Cfg)
  /-- A byte source, by an identity the environment understands (R192; log 7). -/
  | source (src : Nat)
  deriving DecidableEq, Repr, Inhabited

/-- One operation word of a script: "An operation byte with its operands" (R70). -/
structure OpWord where
  op : Byte
  args : List Operand
  deriving DecidableEq, Repr, Inhabited

end Sys2Proof
end

