-- ==== Sys2Proof/WellFormed.lean ====
section
/-! DEFINITION. Which operations have legal operands: everything R79 calls illegal in an operand is ruled
out here. A configuration that fails R202 is a legal operand (its check is the operation's own fault). -/

namespace Sys2Proof

/-- A channel code is legal unless it is 3 (R74). -/
def channelCodeOk (c : BitVec 2) : Bool := c != 3#2

/-- R165, R79: the duration is positive, the handler is not V.ENTER, and it belongs to the alarm's axis. -/
def setalarmOk (a : Axis) (d : Nat) (h : HandlerId) : Bool :=
  d != 0 && h != .vEnter && h.axis == a

/-- The operands are legal (R79). -/
def Instr.wellFormed : Instr → Bool
  | .fbSetch _ _ c _ | .poLatchon c | .poLatchoff c | .poEmitchannel c _ => channelCodeOk c
  | .schSetalarm a d h => setalarmOk a d h
  | .fbGet .. | .fbSet .. | .fbGetu .. | .fbSwap | .poClrcolor | .poSetcolor _ | .poEmitpixel _
  | .hActive | .hFp | .hSync | .hBp | .vEnter | .vFp | .vSync | .vBp
  | .schConfig _ | .schArm | .schDisarm | .schTick | .schDispatch _ | .schSpin _
  | .hostWriterow .. | .hostLoadimage _ | .hostQuerycaps => true

end Sys2Proof
end

