-- ==== Sys2Proof/Decode.lean ====
section
/-! DEFINITION. The encodings of `30_encoding.md`: the numeric codes of the enumerations (R72 to R74), the
decoder of an operation word, total and rejecting by name (R71, R79), and after it the encoder written from
the same tables. -/

namespace Sys2Proof

/-- `unit = op[7:4]` (R70). -/
def opUnit (op : Byte) : Nat := op.toNat / 16

/-- `func = op[3:0]` (R70). -/
def opFunc (op : Byte) : Nat := op.toNat % 16

/-- `op = unit ‖ func` (R70). -/
def opByte (unit func : Nat) : Byte := BitVec.ofNat 8 (unit * 16 + func)

/-- The 2-bit code of a Timer Phase (R72). -/
def phaseCode : Phase → BitVec 2
  | .activePixel => 0
  | .frontPorch => 1
  | .sync => 2
  | .backPorch => 3

/-- The axis bit, also the code of an alarm operand: 0 horizontal, 1 vertical (R73, R74). -/
def axisCode : Axis → BitVec 1
  | .H => 0
  | .V => 1

/-- The axis of an axis bit (R73, R74). -/
def axisOf (a : BitVec 1) : Axis := if a = 0 then .H else .V

/-- The 3-bit HandlerId `axis ‖ phase` (R73). -/
def handlerCode (h : HandlerId) : BitVec 3 := axisCode h.axis ++ phaseCode h.phase

/-- The handler of a HandlerId (R73, R175). All eight codes name one. -/
def handlerOf (h : BitVec 3) : HandlerId :=
  match h.toNat with
  | 0 => .hActive
  | 1 => .hFp
  | 2 => .hSync
  | 3 => .hBp
  | 4 => .vEnter
  | 5 => .vFp
  | 6 => .vSync
  | _ => .vBp

/-- The channel of a channel code; code 3 has none (R74). -/
def channelOf (c : BitVec 2) : Option Channel :=
  match c.toNat with
  | 0 => some .R
  | 1 => some .G
  | 2 => some .B
  | _ => none

/-- The 2-bit code of a channel (R74). -/
def channelCode : Channel → BitVec 2
  | .R => 0
  | .G => 1
  | .B => 2

/-- "The operation byte of handler h is 0x20 + 0x10*h[2] + h[1:0]" (R73). -/
def handlerOpByte (h : HandlerId) : Byte := 0b001#3 ++ axisCode h.axis ++ 0b00#2 ++ phaseCode h.phase

/-- Why the decoder rejects a word. Both are answered BAD_OP (R79). -/
inductive DecodeError where
  /-- The operation byte is not in the table of R71. -/
  | reservedByte
  /-- An operand of the wrong type, or a wrong number of operands (R79). -/
  | badOperands
  deriving DecidableEq, Repr

/-- How many operations each unit has; its `func` values from there on are reserved (R79). -/
def unitSize : Nat → Nat
  | 0 => 5
  | 1 => 6
  | 2 => 4
  | 3 => 4
  | 4 => 7
  | 5 => 3
  | _ => 0

/-- The operation byte is reserved (R79). -/
def reservedByte (op : Byte) : Bool := decide (unitSize (opUnit op) ≤ opFunc op)

/-- The decoder (R71, R79): total on every operation word. -/
def decode (w : OpWord) : Except DecodeError Instr :=
  match opUnit w.op, opFunc w.op, w.args with
  | 0, 0, [.nat x, .nat y] => .ok (.fbGet x y)
  | 0, 1, [.nat x, .nat y, .pixel p] => .ok (.fbSet x y p)
  | 0, 2, [.nat x, .nat y] => .ok (.fbGetu x y)
  | 0, 3, [] => .ok .fbSwap
  | 0, 4, [.nat x, .nat y, .chan c, .byte v] => .ok (.fbSetch x y c v)
  | 1, 0, [] => .ok .poClrcolor
  | 1, 1, [.byte v] => .ok (.poSetcolor v)
  | 1, 2, [.chan c] => .ok (.poLatchon c)
  | 1, 3, [.chan c] => .ok (.poLatchoff c)
  | 1, 4, [.chan c, .byte v] => .ok (.poEmitchannel c v)
  | 1, 5, [.pixel p] => .ok (.poEmitpixel p)
  | 2, 0, [] => .ok .hActive
  | 2, 1, [] => .ok .hFp
  | 2, 2, [] => .ok .hSync
  | 2, 3, [] => .ok .hBp
  | 3, 0, [] => .ok .vEnter
  | 3, 1, [] => .ok .vFp
  | 3, 2, [] => .ok .vSync
  | 3, 3, [] => .ok .vBp
  | 4, 0, [.cfg c] => .ok (.schConfig c)
  | 4, 1, [] => .ok .schArm
  | 4, 2, [] => .ok .schDisarm
  | 4, 3, [] => .ok .schTick
  | 4, 4, [.alarm a, .nat d, .handler h] => .ok (.schSetalarm (axisOf a) d (handlerOf h))
  | 4, 5, [.alarm a] => .ok (.schDispatch (axisOf a))
  | 4, 6, [.nat th] => .ok (.schSpin th)
  | 5, 0, [.nat y, .row ps] => .ok (.hostWriterow y ps)
  | 5, 1, [.source src] => .ok (.hostLoadimage src)
  | 5, 2, [] => .ok .hostQuerycaps
  | _, _, _ => .error (if reservedByte w.op then .reservedByte else .badOperands)

/-- The encoder: the operation word of an instruction (R71, R73, R74). -/
def encode : Instr → OpWord
  | .fbGet x y => ⟨opByte 0 0, [.nat x, .nat y]⟩
  | .fbSet x y p => ⟨opByte 0 1, [.nat x, .nat y, .pixel p]⟩
  | .fbGetu x y => ⟨opByte 0 2, [.nat x, .nat y]⟩
  | .fbSwap => ⟨opByte 0 3, []⟩
  | .fbSetch x y c v => ⟨opByte 0 4, [.nat x, .nat y, .chan c, .byte v]⟩
  | .poClrcolor => ⟨opByte 1 0, []⟩
  | .poSetcolor v => ⟨opByte 1 1, [.byte v]⟩
  | .poLatchon c => ⟨opByte 1 2, [.chan c]⟩
  | .poLatchoff c => ⟨opByte 1 3, [.chan c]⟩
  | .poEmitchannel c v => ⟨opByte 1 4, [.chan c, .byte v]⟩
  | .poEmitpixel p => ⟨opByte 1 5, [.pixel p]⟩
  | .hActive => ⟨handlerOpByte .hActive, []⟩
  | .hFp => ⟨handlerOpByte .hFp, []⟩
  | .hSync => ⟨handlerOpByte .hSync, []⟩
  | .hBp => ⟨handlerOpByte .hBp, []⟩
  | .vEnter => ⟨handlerOpByte .vEnter, []⟩
  | .vFp => ⟨handlerOpByte .vFp, []⟩
  | .vSync => ⟨handlerOpByte .vSync, []⟩
  | .vBp => ⟨handlerOpByte .vBp, []⟩
  | .schConfig c => ⟨opByte 4 0, [.cfg c]⟩
  | .schArm => ⟨opByte 4 1, []⟩
  | .schDisarm => ⟨opByte 4 2, []⟩
  | .schTick => ⟨opByte 4 3, []⟩
  | .schSetalarm a d h => ⟨opByte 4 4, [.alarm (axisCode a), .nat d, .handler (handlerCode h)]⟩
  | .schDispatch a => ⟨opByte 4 5, [.alarm (axisCode a)]⟩
  | .schSpin th => ⟨opByte 4 6, [.nat th]⟩
  | .hostWriterow y ps => ⟨opByte 5 0, [.nat y, .row ps]⟩
  | .hostLoadimage src => ⟨opByte 5 1, [.source src]⟩
  | .hostQuerycaps => ⟨opByte 5 2, []⟩

/-- The operands of a table row whose operand words are all zero: the types R71 lists, each at its zero. The
table gives operands no bits (log 21). -/
def zeroArgs (op : Byte) : List Operand :=
  match opUnit op, opFunc op with
  | 0, 0 | 0, 2 => [.nat 0, .nat 0]
  | 0, 1 => [.nat 0, .nat 0, .pixel ⟨0, 0, 0⟩]
  | 0, 4 => [.nat 0, .nat 0, .chan 0, .byte 0]
  | 1, 1 => [.byte 0]
  | 1, 2 | 1, 3 => [.chan 0]
  | 1, 4 => [.chan 0, .byte 0]
  | 1, 5 => [.pixel ⟨0, 0, 0⟩]
  | 4, 0 => [.cfg zeroCfg]
  | 4, 4 => [.alarm 0, .nat 0, .handler 0]
  | 4, 5 => [.alarm 0]
  | 4, 6 => [.nat 0]
  | 5, 0 => [.nat 0, .row []]
  | 5, 1 => [.source 0]
  | _, _ => []
where
  /-- A Cfg operand of zeros: no duration, no pin, no option set. -/
  zeroCfg : Cfg :=
    { w := 0, h := 0, hActive := 0, hFp := 0, hSync := 0, hBp := 0, vActive := 0, vFp := 0, vSync := 0, vBp := 0,
      hTotal := none, fTotal := none, pixelPeriod := 0, stride := 0, scanOrder := .rowMajor,
      verticalDrive := .lineChained, strategy := .phaseChained,
      pinOfBit := ⟨none, none, none, none, none, none, none, none⟩, latchPin := ⟨0, 0, 0⟩, hsyncPin := 0,
      vsyncPin := 0, wired := ⟨0, 0, 0⟩, channelOrder := .rgb, pixelWriteAtomic := false, doubleBuffer := false,
      hasCapquery := false, timerWidth := none }

/-- The operation word whose byte is `w` and whose operand words are zero. -/
def tableWord (w : Nat) : OpWord := ⟨BitVec.ofNat 8 w, zeroArgs (BitVec.ofNat 8 w)⟩

/-- The instruction the decoder reads from a table row's bits `w`, operand words zero. A row has 8 bits; a
number that does not fit in the `nbits` given is no row's word. -/
def decodeTableWord (nbits w : Nat) : Option Instr :=
  if w < 2 ^ nbits ∧ w < 256 then (decode (tableWord w)).toOption else none

end Sys2Proof
end

