-- ==== Sys2Proof/Machine/State.lean ====
section
/-! DEFINITION. The state of the block as plain data (R20), the model's own fields beside it, the state after
power-on reset (R40), and the reasons for which a step of this machine stops (there is none it can meet). -/

namespace Sys2Proof.Machine

/-- Why the machine stops with a fault. There is NO such reason: CONFIG_INVALID and FB_RANGE are values of the
block's own register FAULT and the machine goes on (R201 to R203, R207; log 1). Nothing raises one: safe. -/
inductive Fault where
  deriving DecidableEq, Repr

/-- Why an instruction has no meaning. -/
inductive Refusal where
  /-- Only exec's arm of an instruction not modelled yet would say so, and no arm does: safe. The spec's own
  refusals (R204) are answers, `Response.refused`, after which the machine goes on (log 1). -/
  | notModelled (mnemonic : String)
  deriving DecidableEq, Repr

/-- The sticky fault register FAULT (R201). -/
inductive FaultCode where
  | none
  /-- Code 1, with the index of the first failing check of R202. -/
  | configInvalid (check : Nat)
  /-- Code 2, with the offending (x, y) (R203). -/
  | fbRange (x y : Nat)
  deriving DecidableEq, Repr, Inhabited

/-- The refusal reasons of R204. -/
inductive Reason where
  | badOp | notConfigured | isArmed | notArmed | faulted
  deriving DecidableEq, Repr, Inhabited

/-- What an operation returned to whoever issued it (R90, R192, R193, R204). -/
inductive Response where
  /-- Nothing returned (yet). -/
  | none
  | pixel (p : Pixel)
  /-- The operation was refused and changed no state (R204). -/
  | refused (r : Reason)
  /-- The operation raised the fault FAULT now holds and returned no value (R203). -/
  | raised
  | success
  | failure
  | unsupported
  | resolution (w h : Nat)
  deriving DecidableEq, Repr, Inhabited

/-- An alarm: one-shot, with the handler it dispatches (R32). -/
structure Alarm where
  en : Bool
  deadline : Nat
  handler : HandlerId
  deriving DecidableEq, Repr, Inhabited

/-- The two GPIO register operations (R35). -/
inductive EdgeKind where
  | set | clear
  deriving DecidableEq, Repr, Inhabited

/-- One event of TRACE: `(time, SET or CLEAR, pin set)` (R39). The pin set is strictly rising. -/
structure Event where
  time : Nat
  kind : EdgeKind
  pins : List Nat
  deriving DecidableEq, Repr, Inhabited

/-- The memory of one channel of one Framebuffer: (slot, byte) pairs, slots strictly rising. A slot that is
not listed has not been stored to since the allocation (log 8, log 9). -/
abbrev Memory := List Host.Cell

/-- The canonical form: slots strictly rising. No entry can equal what an unlisted slot reads as, which is no
value at all. -/
abbrev Memory.wf (m : Memory) : Prop := m.Pairwise (fun a b => a.1 < b.1)

/-- The Framebuffer: one memory per channel, so that no byte order exists (R51 to R53; log 9). -/
abbrev Framebuffer := PerChannel Memory

/-- The busy-wait in progress (R167, R169; log 4). -/
inductive SpinWait where
  /-- A `SCH.SPIN th` with nothing after it: the invocation returns at the tick that makes CNT = th. -/
  | bare (th : Nat)
  /-- `SCH.SPIN th; run handler h`: ALARM_a holds th and h. -/
  | thenRun (a : Axis)
  deriving DecidableEq, Repr, Inhabited

/-- An outstanding sub-step of a compound host operation (log 6). -/
inductive Job where
  | op (i : Instr)
  /-- The end of a `HOST.LOADIMAGE` whose rows have been written (R192). -/
  | finish (complete : Bool)
  deriving DecidableEq, Repr, Inhabited

/-- The machine. R20's tuple first, in its order; then the model's own fields. -/
structure State where
  /-- FAST, SLOW: the Scan Cursor (R21). -/
  fast : Nat
  slow : Nat
  /-- PIX: the pixel holding register (R23). -/
  pix : Pixel
  /-- VCNT: the line down-counter (R24). -/
  vcnt : Nat
  /-- h_phase, v_phase: the Timer Phases (R25). -/
  hPhase : Phase
  vPhase : Phase
  /-- ALARM_H, ALARM_V (R26, R32). -/
  alarmH : Alarm
  alarmV : Alarm
  /-- ARMED (R27). -/
  armed : Bool
  /-- FAULT (R27, R201). -/
  fault : FaultCode
  /-- The GPIO output register: the set of asserted pins, strictly rising (R35). It holds COLOR (R28),
  LATCH (R29), HSYNC and VSYNC (R30), each at its pin. -/
  gpio : List Nat
  /-- MD: the installed configuration, or none (R31). -/
  md : Option Cfg
  /-- CNT: the free-running counter (R33). -/
  cnt : Nat
  /-- FRAME_START, LINE_START: the threshold bases (R34). -/
  frameStart : Nat
  lineStart : Nat
  /-- DAC[c]: the external latches; none is the spec's "unknown" (R36). -/
  dac : PerChannel (Option Byte)
  /-- FB (FB0) and, under DOUBLE_BUFFER, FB1 (R37, R64). -/
  fb0 : Framebuffer
  fb1 : Framebuffer
  /-- FRONT: 0 is false, 1 is true (R64). -/
  front : Bool
  /-- SWAP_REQ (R64). -/
  swapReq : Bool
  /-- BUSY: the interrupt context is occupied (R38). -/
  busy : Bool
  /-- TRACE: the pin event history, oldest first (R39). -/
  trace : List Event
  /-- The model's own: the busy-wait in progress (R167; log 4). -/
  spin : Option SpinWait
  /-- The model's own: the operation words still to be issued (R81; log 2). -/
  script : List OpWord
  /-- The model's own: outstanding sub-steps, the first group first, unordered within a group (log 6). -/
  work : List (List Job)
  /-- The model's own: the environment's order and interleaving choices (log 6). -/
  choices : List Nat
  /-- The model's own: the environment's `outcome(src)` (log 7). -/
  outcomes : List (Nat × LoadOutcome)
  /-- The model's own: how many free values have been drawn (log 6, log 7). -/
  nfree : Nat
  /-- The model's own: how many times the Framebuffer has been allocated (log 8). -/
  alloc : Nat
  /-- The model's own: what the last issued operation returned (log 1, log 27). -/
  response : Response
  deriving DecidableEq, Repr

/-- The state after power-on reset (R40, R230). Values R40 leaves unspecified are named in log 10 (CNT),
log 11 (pins) and log 12 (PIX, alarm deadlines and handlers, FRAME_START, LINE_START); the model's own fields
in log 14. -/
def State.reset : State where
  fast := 0
  slow := 0
  pix := ⟨0, 0, 0⟩
  vcnt := 0
  hPhase := .activePixel
  vPhase := .activePixel
  alarmH := ⟨false, 0, .hActive⟩
  alarmV := ⟨false, 0, .hActive⟩
  armed := false
  fault := .none
  gpio := []
  md := none
  cnt := 0
  frameStart := 0
  lineStart := 0
  dac := ⟨none, none, none⟩
  fb0 := ⟨[], [], []⟩
  fb1 := ⟨[], [], []⟩
  front := false
  swapReq := false
  busy := false
  trace := []
  spin := none
  script := []
  work := []
  choices := []
  outcomes := []
  nfree := 0
  alloc := 0
  response := .none

end Sys2Proof.Machine
end

