-- ==== Sys2Proof/Machine/Operands.lean ====
section
/-! DEFINITION. Operand assembly: pin sets, the channel value to pin mapping (R76), the cursor to coordinate
mapping (R77), the thresholds (R78, R170), the Framebuffer range and slot (R50, R52), and the views of the
GPIO register (R28 to R30). -/

namespace Sys2Proof.Machine

/-- Insert a pin into a strictly rising list. -/
def pinInsert (p : Nat) : List Nat → List Nat
  | [] => [p]
  | q :: qs => if p < q then p :: q :: qs else if p = q then q :: qs else q :: pinInsert p qs

/-- A set of pins as the strictly rising list of its members. -/
def pinSet (ps : List Nat) : List Nat := ps.foldr pinInsert []

/-- MASK(v): the color pins of the set bits of `v` that have a pin (R76). -/
def maskPins (t : PinTable) (v : Byte) : List Nat :=
  pinSet (channelBits.filterMap fun i => if v.getLsbD i then t.get i else none)

/-- COLOR_PINS = MASK(0xFF) (R76). -/
def colorPins (t : PinTable) : List Nat := maskPins t 0xFF

/-- Every pin the engine owns, as `SCH.ARM` clears them (R162). -/
def enginePins (c : Cfg) : List Nat := pinSet c.allPins

/-- `COLOR[i]`: bit i has a pin and it is asserted (R28). -/
def colorLine (t : PinTable) (gpio : List Nat) (i : Nat) : Bool :=
  match t.get i with
  | some p => gpio.contains p
  | none => false

/-- The 8-bit value whose bit i is `COLOR[i]` (R106). -/
def colorByte (t : PinTable) (gpio : List Nat) : Byte := BitVec.ofFnLE fun i : Fin 8 => colorLine t gpio i

/-- `asserted(p)` (`00_scope.md` section 5, R35). -/
def State.asserted (s : State) (p : Nat) : Bool := s.gpio.contains p

/-- `(x, y) = coord(f, s)` (R77). -/
def coord (c : Cfg) (f s : Nat) : Nat × Nat :=
  match c.scanOrder with
  | .rowMajor => (f, s)
  | .columnMajor => (s, f)

/-- `x` in `[0, W)` and `y` in `[0, H)` (R50). -/
def inRange (c : Cfg) (x y : Nat) : Bool := decide (x < c.w ∧ y < c.h)

/-- The linear slot index `y*W + x` (R52). -/
def slot (c : Cfg) (x y : Nat) : Nat := y * c.w + x

/-- The threshold of the end of the horizontal front porch (R78, R170). -/
def hFpEnd (c : Cfg) (s : State) : Nat := s.lineStart + c.hActive + c.hFp

/-- The threshold of the end of horizontal sync (R78, R170). -/
def hSyncEnd (c : Cfg) (s : State) : Nat := s.lineStart + c.hActive + c.hFp + c.hSync

/-- The threshold of the end of the line (R78, R170). -/
def hLineEnd (c : Cfg) (s : State) : Nat := s.lineStart + c.hLine

/-- The threshold of the end of the vertical front porch (R78, R170). -/
def vFpEnd (c : Cfg) (s : State) : Nat := s.frameStart + (c.nSlow + c.vFp) * c.hLine

/-- The threshold of the end of vertical sync (R78, R170). -/
def vSyncEnd (c : Cfg) (s : State) : Nat := s.frameStart + (c.nSlow + c.vFp + c.vSync) * c.hLine

/-- The threshold of the end of the frame (R78, R170). -/
def vFrameEnd (c : Cfg) (s : State) : Nat := s.frameStart + c.vLines * c.hLine

end Sys2Proof.Machine
end

