-- ==== Sys2Proof/Machine/Flags.lean ====
section
/-! DEFINITION. The flags of the block (it has no arithmetic condition codes, R27): refusals, raising a fault,
and the tests that open an operation, in the order of R204. The context that issues an operation is BUSY: the
interrupt context is active exactly while BUSY is true (R38, R211; log 3). -/

namespace Sys2Proof.Machine

/-- `refuse(reason)`: no effect; the reason goes to the issuer (R204). -/
def refuse (r : Reason) (s : State) : State := { s with response := .refused r }

/-- FAULT is sticky: once not none, nothing writes it again (R207). -/
def setFault (f : FaultCode) (s : State) : State := { s with fault := if s.fault = .none then f else s.fault }

/-- `raise` in the normal context: FAULT is set and the operation stops, with what is left of a compound
operation (R203, R213; log 24). -/
def raiseNormal (f : FaultCode) (s : State) : State := { setFault f s with work := [], response := .raised }

/-- `raise` in the interrupt context: FAULT is set, both alarms are disabled and ARMED is cleared (R203, U1). -/
def raiseInterrupt (f : FaultCode) (s : State) : State :=
  { setFault f s with
    alarmH := { s.alarmH with en := false }, alarmV := { s.alarmV with en := false }, armed := false,
    response := .raised }

/-- A normal-context operation: wrong context BAD_OP, then FAULTED (R204). -/
def normalOp (s k : State) : State :=
  if s.busy then refuse .badOp s else if s.fault ≠ .none then refuse .faulted s else k

/-- NOT_CONFIGURED, for an operation that needs the mode (R204). -/
def withMode (s : State) (k : Cfg → State) : State :=
  match s.md with
  | none => refuse .notConfigured s
  | some c => k c

/-- An interrupt-context operation (R80, R204). -/
def interruptOp (s k : State) : State := if s.busy then k else refuse .badOp s

/-- A unit 1 primitive: in the interrupt context, or called directly while disarmed (R80, R204). -/
def primitiveOp (s : State) (k : Cfg → State) : State :=
  if !s.busy && s.armed then refuse .badOp s else withMode s k

/-- A handler: in the interrupt context, with ARMED and its precondition on the phases (R204). -/
def handlerOp (s : State) (pre : Bool) (k : Cfg → State) : State :=
  if s.busy && s.armed && pre then withMode s k else refuse .badOp s

/-- A channel operand: code 3 is refused before anything else (R79, R204). -/
def withChannel (c : BitVec 2) (s : State) (k : Channel → State) : State :=
  match channelOf c with
  | none => refuse .badOp s
  | some ch => k ch

end Sys2Proof.Machine
end

