-- ==== Sys2Proof/Machine/Ops.lean ====
section
/-! DEFINITION. The shared operations: the two GPIO register operations (R35), Framebuffer reads and stores
(R52, R57), programming an alarm (R165), the busy-wait (R167), the tail of a blanking handler under either
strategy (R168, R169), starting a line (R126), and interrupt entry and return (R211, R212), which is this
block's taking of an exception and its return. -/

namespace Sys2Proof.Machine

/-! ### GPIO -/

/-- `PinSet(S)`: one register operation and one event, also for the empty set (R35). -/
def pinSetOp (ps : List Nat) (s : State) : State :=
  { s with gpio := ps.foldr pinInsert s.gpio, trace := s.trace ++ [⟨s.cnt, .set, ps⟩] }

/-- `PinClear(S)`: one register operation and one event, also for the empty set (R35). -/
def pinClearOp (ps : List Nat) (s : State) : State :=
  { s with gpio := s.gpio.filter (fun p => !ps.contains p), trace := s.trace ++ [⟨s.cnt, .clear, ps⟩] }

/-! ### Framebuffer -/

/-- What was stored to slot `a`, none if nothing was since the allocation. -/
def Memory.read : Memory → Nat → Option Byte
  | [], _ => none
  | (k, v) :: m, a => if a = k then some v else if a < k then none else Memory.read m a

/-- Store `v` to slot `a`, keeping the slots strictly rising. -/
def Memory.write : Memory → Nat → Byte → Memory
  | [], a, v => [(a, v)]
  | (k, w) :: m, a, v =>
    if a < k then (a, v) :: (k, w) :: m else if a = k then (a, v) :: m else (k, w) :: Memory.write m a v

/-- The buffer of index `b` (R37). -/
def State.buffer (s : State) (b : Bool) : Framebuffer := if b then s.fb1 else s.fb0

/-- Replace the buffer of index `b`. -/
def State.setBuffer (s : State) (b : Bool) (fb : Framebuffer) : State :=
  if b then { s with fb1 := fb } else { s with fb0 := fb }

/-- The index of the buffer the engine reads: FRONT, or 0 without DOUBLE_BUFFER (R37, R64). -/
def engineBuffer (c : Cfg) (s : State) : Bool := c.doubleBuffer && s.front

/-- The index of the buffer the writer uses: 1 - FRONT, or 0 without DOUBLE_BUFFER (R37, R64). -/
def writerBuffer (c : Cfg) (s : State) : Bool := c.doubleBuffer && !s.front

/-- One channel of one slot: what was stored, else the arbitrary fixed value of R40 (log 8). -/
def readChannel (s : State) (b : Bool) (a : Nat) (ch : Channel) : Byte :=
  (((s.buffer b).get ch).read a).getD (Config.freeByte s.alloc b ch a)

/-- `MemRead(a, 1)`: the pixel in slot `a`, without side effect (R52, R57). -/
def readPixel (s : State) (b : Bool) (a : Nat) : Pixel :=
  ⟨readChannel s b a .R, readChannel s b a .G, readChannel s b a .B⟩

/-- The single-copy atomic store of one channel of one slot (R56, R95). -/
def storeChannel (b : Bool) (a : Nat) (ch : Channel) (v : Byte) (s : State) : State :=
  s.setBuffer b ((s.buffer b).set ch (((s.buffer b).get ch).write a v))

/-- `MemWrite(a, 1, p)`: the whole pixel in one step (R91 with PIXEL_WRITE_ATOMIC). -/
def storePixel (b : Bool) (a : Nat) (p : Pixel) (s : State) : State :=
  storeChannel b a .B p.b (storeChannel b a .G p.g (storeChannel b a .R p.r s))

/-- Put a group of sub-steps, in no order, before what is outstanding (R91, R191; log 6). -/
def pushGroup (g : List Job) (s : State) : State := { s with work := g :: s.work }

/-! ### Alarms, the busy-wait and the lines -/

/-- ALARM_a. -/
def State.alarm (s : State) : Axis → Alarm
  | .H => s.alarmH
  | .V => s.alarmV

/-- Replace ALARM_a. -/
def State.setAlarmRec (s : State) (a : Axis) (r : Alarm) : State :=
  match a with
  | .H => { s with alarmH := r }
  | .V => { s with alarmV := r }

/-- `SETALARM(a, d, h)`: ALARM_a fires `d` ticks from now and runs `h` (R165). -/
def setAlarm (a : Axis) (d : Nat) (h : HandlerId) (s : State) : State :=
  if setalarmOk a d h then s.setAlarmRec a ⟨true, s.cnt + d, h⟩ else refuse .badOp s

/-- `SCH.SPIN th; run handler h`: ALARM_a holds the threshold and the handler while the invocation, and with it
BUSY, lasts (R167; log 4). A threshold that has passed is refused (log 20). -/
def spinThen (a : Axis) (th : Nat) (h : HandlerId) (s : State) : State :=
  if s.cnt < th then { s.setAlarmRec a ⟨true, th, h⟩ with spin := some (.thenRun a) } else refuse .badOp s

/-- The tail of a blanking handler: `SETALARM(a, d, h)` under PHASE_CHAINED (R168); a spin to the absolute
threshold `th` and then `h` in place under FREE_RUNNING (R169). -/
def chain (c : Cfg) (a : Axis) (d th : Nat) (h : HandlerId) (s : State) : State :=
  match c.strategy with
  | .phaseChained => setAlarm a d h s
  | .freeRunning => spinThen a th h s

/-- start_active_line (R126). -/
def startActiveLine (c : Cfg) (s : State) : State :=
  setAlarm .H c.pixelPeriod .hActive { s with hPhase := .activePixel, lineStart := s.cnt }

/-- start_blank_line (R126). -/
def startBlankLine (c : Cfg) (s : State) : State :=
  setAlarm .H c.hActive .hActive { s with hPhase := .activePixel, lineStart := s.cnt }

/-! ### Interrupts -/

/-- ALARM_a is pending and may be served: enabled, at its deadline, and the interrupt context free, or
occupied by the busy-wait this very alarm ends (R166, R167, R209). -/
def alarmDue (a : Axis) (s : State) : Bool :=
  (s.alarm a).en && (s.alarm a).deadline == s.cnt && (!s.busy || s.spin == some (.thenRun a))

/-- Interrupt entry: the served alarm is disabled (one-shot), then the interrupt context is occupied; nothing
else is saved or written (R211). A busy-wait on this alarm ends with it (R167). -/
def enterInterrupt (a : Axis) (s : State) : State :=
  { s.setAlarmRec a { s.alarm a with en := false } with busy := true, spin := none }

/-- Interrupt return: the interrupt context is free again (R212), unless the invocation spins (R169). -/
def returnFromInterrupt (s : State) : State := { s with busy := s.spin.isSome }

/-- A `SCH.SPIN th` with nothing after it ends at the tick that makes CNT = th: the invocation returns (R167). -/
def releaseBareSpin (s : State) : State :=
  if s.spin = some (.bare s.cnt) then returnFromInterrupt { s with spin := none } else s

end Sys2Proof.Machine
end

