-- ==== Sys2Proof/Machine/Framebuffer.lean ====
section
/-! DEFINITION. Unit 0, the Framebuffer operations (`40_framebuffer_ops.md`). -/

namespace Sys2Proof.Machine

/-- `FB.GET x, y` (R90). -/
def execFbGet (x y : Nat) (s : State) : Host.Outcome State Fault Refusal :=
  .next <| normalOp s <| withMode s fun c =>
    if inRange c x y then { s with response := .pixel (readPixel s (writerBuffer c s) (slot c x y)) }
    else raiseNormal (.fbRange x y) s

/-- `FB.SET x, y, p` (R91): one step if PIXEL_WRITE_ATOMIC, else three `FB.SETCH` steps in no fixed order. -/
def execFbSet (x y : Nat) (p : Pixel) (s : State) : Host.Outcome State Fault Refusal :=
  .next <| normalOp s <| withMode s fun c =>
    if inRange c x y then
      if c.pixelWriteAtomic then storePixel (writerBuffer c s) (slot c x y) p s
      else
        pushGroup
          [ .op (.fbSetch x y (channelCode .R) p.r), .op (.fbSetch x y (channelCode .G) p.g),
            .op (.fbSetch x y (channelCode .B) p.b) ] s
    else raiseNormal (.fbRange x y) s

/-- `FB.GETU x, y` (R92): the unchecked read of the interrupt context; out of range the model faults (U1). -/
def execFbGetu (x y : Nat) (s : State) : Host.Outcome State Fault Refusal :=
  .next <| interruptOp s <| withMode s fun c =>
    if inRange c x y then { s with response := .pixel (readPixel s (engineBuffer c s) (slot c x y)) }
    else raiseInterrupt (.fbRange x y) s

/-- `FB.SWAP` (R93). -/
def execFbSwap (s : State) : Host.Outcome State Fault Refusal :=
  .next <| normalOp s <| withMode s fun c =>
    if !c.doubleBuffer then refuse .badOp s
    else if s.armed then { s with swapReq := true }
    else { s with front := !s.front, swapReq := false }

/-- `FB.SETCH x, y, c, v` (R95). -/
def execFbSetch (x y : Nat) (c : BitVec 2) (v : Byte) (s : State) : Host.Outcome State Fault Refusal :=
  .next <| withChannel c s fun ch => normalOp s <| withMode s fun m =>
    if inRange m x y then storeChannel (writerBuffer m s) (slot m x y) ch v s
    else raiseNormal (.fbRange x y) s

end Sys2Proof.Machine
end

