-- ==== Sys2Proof/Machine/HostInterface.lean ====
section
/-! DEFINITION. Unit 5, the host operations (`45_host_interface.md`). A row is W `FB.SET`s and a load is rows,
each a step or steps of its own (log 6). -/

namespace Sys2Proof.Machine

/-- The `FB.SET`s of row `y` from column `x` on (R191). -/
def rowJobs (y : Nat) : Nat → List Pixel → List Job
  | _, [] => []
  | x, p :: ps => .op (.fbSet x y p) :: rowJobs y (x + 1) ps

/-- `outcome(src)`: what the environment lists, else a free value (R192; log 7). -/
def loadOutcome (src : Nat) (s : State) : LoadOutcome :=
  (s.outcomes.lookup src).getD (Config.freeOutcome src s.nfree)

/-- `HOST.WRITEROW y, row` (R191). -/
def execHostWriterow (y : Nat) (row : List Pixel) (s : State) : Host.Outcome State Fault Refusal :=
  .next <| normalOp s <| withMode s fun c =>
    if c.h ≤ y ∨ row.length ≠ c.w then raiseNormal (.fbRange row.length y) s
    else pushGroup (rowJobs y 0 row) s

/-- `HOST.LOADIMAGE src` (R192): the rows in the decoder's order, each a group of its own, then the result. -/
def execHostLoadimage (src : Nat) (s : State) : Host.Outcome State Fault Refusal :=
  .next <| normalOp s <| withMode s fun _ =>
    let t := { s with nfree := s.nfree + 1 }
    match loadOutcome src s with
    | .openFailed => { t with response := .failure }
    | .badFormat => { t with response := .failure }
    | .rows rows complete =>
      { t with work := rows.map (fun yr => [.op (.hostWriterow yr.1 yr.2)]) ++ [.finish complete] :: s.work }

/-- The end of a load (R192). If a fault was raised in between it answers FAULTED (R204; log 24). -/
def finishLoad (complete : Bool) (s : State) : State :=
  if s.fault ≠ .none then refuse .faulted s
  else { s with response := if complete then .success else .failure }

/-- `HOST.QUERYCAPS` (R193). Before any `SCH.CONFIG`, HAS_CAPQUERY has its decided value false (log 17). -/
def execHostQuerycaps (s : State) : Host.Outcome State Fault Refusal :=
  .next <| normalOp s <|
    match s.md with
    | some c =>
      if c.hasCapquery then { s with response := .resolution Config.monitorNative.1 Config.monitorNative.2 }
      else { s with response := .unsupported }
    | none => { s with response := .unsupported }

end Sys2Proof.Machine
end

