-- ==== Sys2Proof/Machine/PixelOutput.lean ====
section
/-! DEFINITION. Unit 1, the Pixel Output Primitive (`41_pixel_output.md`): the four register operations, and
`emitChannel` and `emitPixel` made of them. -/

namespace Sys2Proof.Machine

/-- `PinClear(COLOR_PINS)` (R100). -/
def clearColor (c : Cfg) (s : State) : State := pinClearOp (colorPins c.pinOfBit) s

/-- `PinSet(MASK(v))` (R101). -/
def setColor (c : Cfg) (v : Byte) (s : State) : State := pinSetOp (maskPins c.pinOfBit v) s

/-- `capture()`: bit i is 1 iff WIRED[c][i] = 1 and COLOR[i] is asserted (R106). -/
def capture (c : Cfg) (ch : Channel) (s : State) : Byte := c.wired.get ch &&& colorByte c.pinOfBit s.gpio

/-- `PinSet({LATCH_PIN[c]}); DAC[c] <- capture()` (R102). -/
def latchOn (c : Cfg) (ch : Channel) (s : State) : State :=
  let s := pinSetOp [c.latchPin.get ch] s
  { s with dac := s.dac.set ch (some (capture c ch s)) }

/-- `PinClear({LATCH_PIN[c]})` (R103). -/
def latchOff (c : Cfg) (ch : Channel) (s : State) : State := pinClearOp [c.latchPin.get ch] s

/-- The source's `emitChannel`: exactly four register operations, in this order (R104). -/
def emitChannel (c : Cfg) (ch : Channel) (v : Byte) (s : State) : State :=
  latchOff c ch (latchOn c ch (setColor c v (clearColor c s)))

/-- The three channels of a pixel in CHANNEL_ORDER (R105). -/
def emitPixel (c : Cfg) (p : Pixel) (s : State) : State :=
  c.channelOrder.toList.foldl (fun t ch => emitChannel c ch (p.get ch) t) s

/-- `PO.CLRCOLOR` (R100). -/
def execPoClrcolor (s : State) : Host.Outcome State Fault Refusal :=
  .next <| primitiveOp s fun c => clearColor c s

/-- `PO.SETCOLOR v` (R101). -/
def execPoSetcolor (v : Byte) (s : State) : Host.Outcome State Fault Refusal :=
  .next <| primitiveOp s fun c => setColor c v s

/-- `PO.LATCHON c` (R102). -/
def execPoLatchon (c : BitVec 2) (s : State) : Host.Outcome State Fault Refusal :=
  .next <| withChannel c s fun ch => primitiveOp s fun m => latchOn m ch s

/-- `PO.LATCHOFF c` (R103). -/
def execPoLatchoff (c : BitVec 2) (s : State) : Host.Outcome State Fault Refusal :=
  .next <| withChannel c s fun ch => primitiveOp s fun m => latchOff m ch s

/-- `PO.EMITCHANNEL c, v` (R104). -/
def execPoEmitchannel (c : BitVec 2) (v : Byte) (s : State) : Host.Outcome State Fault Refusal :=
  .next <| withChannel c s fun ch => primitiveOp s fun m => emitChannel m ch v s

/-- `PO.EMITPIXEL p` (R105). -/
def execPoEmitpixel (p : Pixel) (s : State) : Host.Outcome State Fault Refusal :=
  .next <| primitiveOp s fun c => emitPixel c p s

end Sys2Proof.Machine
end

