-- ==== Sys2Proof/Machine/Vertical.lean ====
section
/-! DEFINITION. Unit 3, the vertical operations (`43_vertical_timing.md`). Each is called by `H.BP` under
LINE_CHAINED (R145) and dispatched by ALARM_V under DEDICATED_TIMER (R146), but `V.ENTER`, which is only ever
called. -/

namespace Sys2Proof.Machine

/-- How long the next vertical phase lasts: VCNT lines (R145), or ALARM_V (R146). -/
def timeVertical (c : Cfg) (lines th : Nat) (h : HandlerId) (s : State) : State :=
  match c.verticalDrive with
  | .lineChained => { s with vcnt := lines }
  | .dedicatedTimer => chain c .V (lines * c.hLine) th h s

/-- `V.ENTER` (R141). -/
def vEnterOp (s : State) : State :=
  handlerOp s (s.vPhase == .activePixel && s.slow == 0) fun c =>
    timeVertical c c.vFp (vFpEnd c s) .vFp { s with vPhase := .frontPorch }

/-- `V.FP` (R142). -/
def vFpOp (s : State) : State :=
  handlerOp s (s.vPhase == .frontPorch) fun c =>
    pinSetOp [c.vsyncPin] (timeVertical c c.vSync (vSyncEnd c s) .vSync { s with vPhase := .sync })

/-- `V.SYNC` (R143). -/
def vSyncOp (s : State) : State :=
  handlerOp s (s.vPhase == .sync) fun c =>
    timeVertical c c.vBp (vFrameEnd c s) .vBp { pinClearOp [c.vsyncPin] s with vPhase := .backPorch }

/-- The frame boundary of the double buffer: the one place a requested swap is performed (R64, R144). -/
def swapAtFrame (c : Cfg) (s : State) : State :=
  if c.doubleBuffer && s.swapReq then { s with front := !s.front, swapReq := false } else s

/-- `V.BP` (R144). -/
def vBpOp (s : State) : State :=
  handlerOp s (s.vPhase == .backPorch) fun c =>
    startActiveLine c <| swapAtFrame c
      { s with fast := 0, slow := 0, vPhase := .activePixel, vcnt := 0, frameStart := s.cnt }

/-- `V.ENTER` as an operation of its own (R141). -/
def execVEnter (s : State) : Host.Outcome State Fault Refusal := .next (vEnterOp s)

/-- `V.FP` as an operation of its own (R142). -/
def execVFp (s : State) : Host.Outcome State Fault Refusal := .next (vFpOp s)

/-- `V.SYNC` as an operation of its own (R143). -/
def execVSync (s : State) : Host.Outcome State Fault Refusal := .next (vSyncOp s)

/-- `V.BP` as an operation of its own (R144). -/
def execVBp (s : State) : Host.Outcome State Fault Refusal := .next (vBpOp s)

end Sys2Proof.Machine
end

