-- ==== Sys2Proof/Machine/Horizontal.lean ====
section
/-! DEFINITION. Unit 2, the horizontal handlers and the pixel-clock arbiter (`42_horizontal_timing.md`). -/

namespace Sys2Proof.Machine

/-- The end of a line's active slot, active or blank: the front porch begins (R122). -/
def endActiveSlot (c : Cfg) (s : State) : State :=
  chain c .H c.hFp (hFpEnd c s) .hFp { s with hPhase := .frontPorch }

/-- Fetch the pixel under the Scan Cursor into PIX and emit it (R121 item 2, R122). The guard of `H.ACTIVE` has
shown the coordinates to be in range, so this is `FB.GETU` on its in-range path (R92). -/
def fetchAndEmit (c : Cfg) (s : State) : State :=
  let xy := coord c s.fast s.slow
  let p := readPixel s (engineBuffer c s) (slot c xy.1 xy.2)
  emitPixel c p { s with pix := p }

/-- Advance the Scan Cursor by STRIDE, wrapping by comparison, and end the slot when the count is exhausted
(R121 items 3 and 4, R122, R83). -/
def advanceCursor (c : Cfg) (s : State) : State :=
  if c.fastLimit ≤ s.fast + c.stride then
    endActiveSlot c
      { s with fast := 0, slow := if c.slowLimit ≤ s.slow + c.stride then 0 else s.slow + c.stride }
  else setAlarm .H c.pixelPeriod .hActive { s with fast := s.fast + c.stride }

/-- `H.ACTIVE` (R122). -/
def hActiveOp (s : State) : State :=
  handlerOp s (s.hPhase == .activePixel) fun c =>
    if s.vPhase ≠ .activePixel then endActiveSlot c s
    else advanceCursor c (if s.fast < c.fastLimit ∧ s.slow < c.slowLimit then fetchAndEmit c s else s)

/-- `H.FP` (R123). -/
def hFpOp (s : State) : State :=
  handlerOp s (s.hPhase == .frontPorch) fun c =>
    pinSetOp [c.hsyncPin] (chain c .H c.hSync (hSyncEnd c s) .hSync { s with hPhase := .sync })

/-- `H.SYNC` (R124). -/
def hSyncOp (s : State) : State :=
  handlerOp s (s.hPhase == .sync) fun c =>
    chain c .H c.hBp (hLineEnd c s) .hBp { pinClearOp [c.hsyncPin] s with hPhase := .backPorch }

/-- A blank line was completed (R125, R145). -/
def blankLineDone (c : Cfg) (s : State) : State :=
  let s := { s with vcnt := s.vcnt - 1 }
  if 0 < s.vcnt then startBlankLine c s
  else
    match s.vPhase with
    | .frontPorch => startBlankLine c (vFpOp s)
    | .sync => startBlankLine c (vSyncOp s)
    | .backPorch => vBpOp s
    | .activePixel => s

/-- `H.BP` (R125). -/
def hBpOp (s : State) : State :=
  handlerOp s (s.hPhase == .backPorch) fun c =>
    match c.verticalDrive with
    | .dedicatedTimer => if s.slow = 0 then vEnterOp s else startActiveLine c s
    | .lineChained =>
      if s.vPhase = .activePixel then
        if s.slow = 0 then startBlankLine c (vEnterOp s) else startActiveLine c s
      else blankLineDone c s

/-- `H.ACTIVE` as an operation of its own (R122). -/
def execHActive (s : State) : Host.Outcome State Fault Refusal := .next (hActiveOp s)

/-- `H.FP` as an operation of its own (R123). -/
def execHFp (s : State) : Host.Outcome State Fault Refusal := .next (hFpOp s)

/-- `H.SYNC` as an operation of its own (R124). -/
def execHSync (s : State) : Host.Outcome State Fault Refusal := .next (hSyncOp s)

/-- `H.BP` as an operation of its own (R125). -/
def execHBp (s : State) : Host.Outcome State Fault Refusal := .next (hBpOp s)

end Sys2Proof.Machine
end

