-- ==== Sys2Proof/Machine/Scheduler.lean ====
section
/-! DEFINITION. Unit 4, the timer-cascade scheduler (`44_scheduler.md`): administration, time, dispatch and
the alarms. -/

namespace Sys2Proof.Machine

/-- The fixed dispatch table (R175). -/
def runHandler : HandlerId → State → State
  | .hActive => hActiveOp
  | .hFp => hFpOp
  | .hSync => hSyncOp
  | .hBp => hBpOp
  | .vEnter => vEnterOp
  | .vFp => vFpOp
  | .vSync => vSyncOp
  | .vBp => vBpOp

/-- Serve ALARM_a: entry, the handler its field selects, return (R166, R211, R212). -/
def dispatch (a : Axis) (s : State) : State :=
  returnFromInterrupt (runHandler (s.alarm a).handler (enterInterrupt a s))

/-- The loop of `SCH.TICK`, ALARM_H before ALARM_V (R164, R210), at most `fuel` times. -/
def serveAlarms : Nat → State → State
  | 0, s => s
  | fuel + 1, s =>
    if alarmDue .H s then serveAlarms fuel (dispatch .H s)
    else if alarmDue .V s then serveAlarms fuel (dispatch .V s)
    else s

/-- One timer tick: "each alarm fires at most once per tick and the loop runs at most twice" (R164). -/
def tick (s : State) : State := serveAlarms 2 (releaseBareSpin { s with cnt := s.cnt + 1 })

/-- Install a mode and allocate the Framebuffer, every slot an arbitrary pixel (R161). -/
def installMode (cfg : Cfg) (s : State) : State :=
  { s with
    md := some cfg, fb0 := ⟨[], [], []⟩, fb1 := ⟨[], [], []⟩, alloc := s.alloc + 1, front := false,
    swapReq := false }

/-- The arm sequence: every pin deasserted by one register operation, a frame start (R162). -/
def armEngine (c : Cfg) (s : State) : State :=
  let s := pinClearOp (enginePins c) s
  startActiveLine c
    { s with
      fast := 0, slow := 0, vcnt := 0, vPhase := .activePixel, alarmV := { s.alarmV with en := false },
      frameStart := s.cnt, busy := false, spin := none, armed := true }

/-- `SCH.CONFIG cfg` (R161, R202). -/
def execSchConfig (cfg : Cfg) (s : State) : Host.Outcome State Fault Refusal :=
  .next <| normalOp s <|
    if s.armed then refuse .isArmed s
    else
      match cfg.failingCheck with
      | some i => raiseNormal (.configInvalid i) s
      | none => installMode cfg s

/-- `SCH.ARM` (R162). -/
def execSchArm (s : State) : Host.Outcome State Fault Refusal :=
  .next <| normalOp s <| withMode s fun c => if s.armed then refuse .isArmed s else armEngine c s

/-- `SCH.DISARM` (R163). -/
def execSchDisarm (s : State) : Host.Outcome State Fault Refusal :=
  .next <| normalOp s <|
    if s.armed then
      { s with
        alarmH := { s.alarmH with en := false }, alarmV := { s.alarmV with en := false }, armed := false }
    else refuse .notArmed s

/-- `SCH.TICK` (R164). It is never refused. -/
def execSchTick (s : State) : Host.Outcome State Fault Refusal := .next (tick s)

/-- `SCH.SETALARM a, d, h` (R165). -/
def execSchSetalarm (a : Axis) (d : Nat) (h : HandlerId) (s : State) : Host.Outcome State Fault Refusal :=
  .next <| interruptOp s (setAlarm a d h s)

/-- `SCH.DISPATCH a` (R166): the alarm must be due. -/
def execSchDispatch (a : Axis) (s : State) : Host.Outcome State Fault Refusal :=
  .next (if alarmDue a s then dispatch a s else refuse .badOp s)

/-- `SCH.SPIN th` (R167): the interrupt context is held until the tick that makes CNT = th (log 4). -/
def execSchSpin (th : Nat) (s : State) : Host.Outcome State Fault Refusal :=
  .next <| interruptOp s (if s.cnt < th then { s with spin := some (.bare th) } else refuse .badOp s)

end Sys2Proof.Machine
end

