-- ==== Sys2Proof/Machine/Dispatch.lean ====
section
/-! DEFINITION. One arm per operation of the table, in its order, each one call of its meaning. -/

namespace Sys2Proof.Machine

def exec (i : Instr) (s : State) : Host.Outcome State Fault Refusal :=
  match i with
  | .fbGet x y => Sys2Proof.Machine.execFbGet x y s
  | .fbSet x y p => Sys2Proof.Machine.execFbSet x y p s
  | .fbGetu x y => Sys2Proof.Machine.execFbGetu x y s
  | .fbSwap => Sys2Proof.Machine.execFbSwap s
  | .fbSetch x y c v => Sys2Proof.Machine.execFbSetch x y c v s
  | .poClrcolor => Sys2Proof.Machine.execPoClrcolor s
  | .poSetcolor v => Sys2Proof.Machine.execPoSetcolor v s
  | .poLatchon c => Sys2Proof.Machine.execPoLatchon c s
  | .poLatchoff c => Sys2Proof.Machine.execPoLatchoff c s
  | .poEmitchannel c v => Sys2Proof.Machine.execPoEmitchannel c v s
  | .poEmitpixel p => Sys2Proof.Machine.execPoEmitpixel p s
  | .hActive => Sys2Proof.Machine.execHActive s
  | .hFp => Sys2Proof.Machine.execHFp s
  | .hSync => Sys2Proof.Machine.execHSync s
  | .hBp => Sys2Proof.Machine.execHBp s
  | .vEnter => Sys2Proof.Machine.execVEnter s
  | .vFp => Sys2Proof.Machine.execVFp s
  | .vSync => Sys2Proof.Machine.execVSync s
  | .vBp => Sys2Proof.Machine.execVBp s
  | .schConfig cfg => Sys2Proof.Machine.execSchConfig cfg s
  | .schArm => Sys2Proof.Machine.execSchArm s
  | .schDisarm => Sys2Proof.Machine.execSchDisarm s
  | .schTick => Sys2Proof.Machine.execSchTick s
  | .schSetalarm a d h => Sys2Proof.Machine.execSchSetalarm a d h s
  | .schDispatch a => Sys2Proof.Machine.execSchDispatch a s
  | .schSpin th => Sys2Proof.Machine.execSchSpin th s
  | .hostWriterow y row => Sys2Proof.Machine.execHostWriterow y row s
  | .hostLoadimage src => Sys2Proof.Machine.execHostLoadimage src s
  | .hostQuerycaps => Sys2Proof.Machine.execHostQuerycaps s

end Sys2Proof.Machine
end

