-- ==== Sys2Proof/Machine/Script.lean ====
section
/-! DEFINITION. What takes the next step: the timers, an outstanding sub-step of a compound host operation, or
the next operation word of the script (R60, R81, R171; log 2, log 5, log 6). Step.lean only calls it. -/

namespace Sys2Proof.Machine

/-- The next thing to happen. -/
inductive Move where
  /-- Instruction `i` runs in state `s`. -/
  | run (i : Instr) (s : State)
  /-- The state becomes `s` without an instruction running. -/
  | settle (s : State)

/-- The word is a `SCH.TICK` line. -/
def isTickWord (w : OpWord) : Bool :=
  match decode w with
  | .ok .schTick => true
  | _ => false

/-- A timer tick that no operation waits for: it is the script's next line if that is a `SCH.TICK`, else a tick
of the timers' own (log 5). -/
def consumeTick (s : State) : State :=
  match s.script with
  | w :: rest => if isTickWord w then { s with script := rest } else s
  | [] => s

/-- The environment's next choice: the next of `choices`, else a free value (log 6). -/
def takeChoice (s : State) : Nat × State :=
  match s.choices with
  | n :: ns => (n, { s with choices := ns })
  | [] => (Config.freeChoice s.nfree, { s with nfree := s.nfree + 1 })

/-- The outstanding groups once `g` is what is left of the first. -/
def putBack (g : List Job) (rest : List (List Job)) : List (List Job) := if g.isEmpty then rest else g :: rest

/-- Perform a sub-step. -/
def doJob (j : Job) (s : State) : Move :=
  match j with
  | .op i => .run i s
  | .finish complete => .settle (finishLoad complete s)

/-- Issue an operation word of the normal context (R81): run what it decodes to, or answer BAD_OP (R79). -/
def issue (w : OpWord) (s : State) : Move :=
  match decode w with
  | .ok i => .run i s
  | .error _ => .settle (refuse .badOp s)

/-- Which agent steps next. While BUSY the normal context is held and time passes (R171). Between two sub-steps
of a compound operation the environment chooses among the sub-steps of the first group and a tick (R60 item 4,
R91, R191). Otherwise the script's next word is issued; with nothing to issue, time passes (R33, R231). -/
def nextMove (s : State) : Move :=
  if s.busy then .run .schTick (consumeTick s)
  else
    match s.work with
    | [] =>
      match s.script with
      | [] => .run .schTick s
      | w :: rest => issue w { s with script := rest, response := .none }
    | g :: rest =>
      if g.isEmpty then .settle { s with work := rest }
      else
        let choice := takeChoice s
        let k := choice.1 % (g.length + 1)
        match g[k]? with
        | some j => doJob j { choice.2 with work := putBack (g.eraseIdx k) rest }
        | none => .run .schTick (consumeTick choice.2)

end Sys2Proof.Machine
end

