-- ==== Sys2Proof/Machine/Step.lean ====
section
/-! DEFINITION. One step of the total order of R60, and the host's way of placing one table row's word where
the next step takes it. -/

namespace Sys2Proof.Machine

/-- One step (R60 item 1). -/
def step (s : State) : Host.Outcome State Fault Refusal :=
  match nextMove s with
  | .run i t => exec i t
  | .settle t => .next t

/-- Put a table row's word first in the script, with the normal context free and no sub-step outstanding, so
that the very next step issues it (log 2, log 29). -/
def State.withFetchWord (s : State) (_nbits w : Nat) : State :=
  { s with busy := false, spin := none, work := [], script := tableWord w :: s.script }

end Sys2Proof.Machine
end

