-- ==== Sys2Proof/Safety.lean ====
section
/-! DEFINITION. What claims about the machine speak of: the timing grid of R78, the invariants of R22, R26,
R30 and R41 for an armed engine (`EngineOk`), the invariant of the whole machine (`MachineOk`), what R22 and R41 say of
the working registers and the latch lines of any state (`WorkingOk`, `latchesOff`), the common answers
of operations (refusals, raised faults, the contexts that may issue them), pin sets as R76 defines them, the checks
of R202 one by one, and runs of several operations. None of it is used by the machine itself. -/

namespace Sys2Proof.Machine

/-- DEDICATED_TIMER outside the vertical active phase: the horizontal axis is parked (R146). -/
abbrev parked (c : Cfg) (s : State) : Prop := c.verticalDrive = .dedicatedTimer ∧ s.vPhase ≠ .activePixel

/-- The time at which the horizontal phase that has begun (or, on an active line, the pixel period) began: the
cumulative thresholds of R78. -/
def hPhaseStart (c : Cfg) (s : State) : Nat :=
  match s.hPhase with
  | .activePixel => if s.vPhase = .activePixel then s.lineStart + s.fast / c.stride * c.pixelPeriod else s.lineStart
  | .frontPorch => s.lineStart + c.hActive
  | .sync => hFpEnd c s
  | .backPorch => hSyncEnd c s

/-- The time at which it ends (R78): pixel tick k of an active line is at `LINE_START + (k+1)*PIXEL_PERIOD`. -/
def hPhaseEnd (c : Cfg) (s : State) : Nat :=
  match s.hPhase with
  | .activePixel =>
    if s.vPhase = .activePixel then s.lineStart + (s.fast / c.stride + 1) * c.pixelPeriod
    else s.lineStart + c.hActive
  | .frontPorch => hFpEnd c s
  | .sync => hSyncEnd c s
  | .backPorch => hLineEnd c s

/-- The time at which the vertical phase began (R78). -/
def vPhaseStart (c : Cfg) (s : State) : Nat :=
  match s.vPhase with
  | .activePixel => s.frameStart
  | .frontPorch => s.frameStart + c.nSlow * c.hLine
  | .sync => vFpEnd c s
  | .backPorch => vSyncEnd c s

/-- The time at which the vertical phase ends (R78). -/
def vPhaseEnd (c : Cfg) (s : State) : Nat :=
  match s.vPhase with
  | .activePixel => s.frameStart + c.nSlow * c.hLine
  | .frontPorch => vFpEnd c s
  | .sync => vSyncEnd c s
  | .backPorch => vFrameEnd c s

/-- The lines a vertical blanking phase lasts (R140). -/
def phaseLines (c : Cfg) : Phase → Nat
  | .activePixel => c.nSlow
  | .frontPorch => c.vFp
  | .sync => c.vSync
  | .backPorch => c.vBp

/-- The line of the frame on which a vertical phase ends (R78). -/
def phaseEndLine (c : Cfg) : Phase → Nat
  | .activePixel => c.nSlow
  | .frontPorch => c.nSlow + c.vFp
  | .sync => c.nSlow + c.vFp + c.vSync
  | .backPorch => c.nSlow + c.vFp + c.vSync + c.vBp

/-- The line period the horizontal axis is in is line `L` of the frame (R78: `LINE_START = FRAME_START +
L*H_LINE`). At the end of an active line SLOW has already been advanced, or wrapped (R122). -/
def lineIs (c : Cfg) (s : State) (L : Nat) : Prop :=
  match s.vPhase, s.hPhase, c.verticalDrive with
  | .activePixel, .activePixel, _ => s.slow = L * c.stride
  | .activePixel, _, _ => s.slow = (L + 1) * c.stride ∨ s.slow = 0 ∧ L + 1 = c.nSlow
  | _, _, .dedicatedTimer => L + 1 = c.nSlow
  | p, _, .lineChained => L + s.vcnt = phaseEndLine c p

/-- BUSY, and the busy-wait it stands for, between steps (R38, R171): never under PHASE_CHAINED; under
FREE_RUNNING from the end of a line's active slot to the end of the line, and through vertical blanking while
the horizontal axis is parked. -/
def contextIs (c : Cfg) (s : State) : Prop :=
  match c.strategy with
  | .phaseChained => s.busy = false ∧ s.spin = none
  | .freeRunning =>
    if s.hPhase = .activePixel then s.busy = false ∧ s.spin = none
    else s.busy = true ∧ s.spin = some (.thenRun (if parked c s then .V else .H))

/-- What holds of an armed engine with configuration `c` between two steps. -/
structure EngineOk (c : Cfg) (s : State) : Prop where
  /-- R31: only a legal configuration is installed. -/
  valid : c.valid
  /-- R22: the Scan Cursor is in range. -/
  cursor : s.fast < c.fastLimit ∧ s.slow < c.slowLimit
  /-- R84: the cursor only visits multiples of STRIDE. -/
  stride : c.stride ∣ s.fast
  /-- FAST is 0 outside the active slot of an active line (R122). -/
  fastZero : s.hPhase ≠ .activePixel → s.fast = 0
  /-- R41 item 7. -/
  cursorZero : s.vPhase ≠ .activePixel → s.fast = 0 ∧ s.slow = 0
  /-- R26, R41 items 3 to 5, R78: the horizontal axis runs, its alarm on the grid and not yet due. -/
  running : ¬ parked c s →
    s.alarmH = ⟨true, hPhaseEnd c s, HandlerId.ofAxisPhase .H s.hPhase⟩ ∧ s.alarmV.en = false
      ∧ hPhaseStart c s ≤ s.cnt ∧ s.cnt < hPhaseEnd c s
  /-- R26, R41 items 4 and 5, R78: the horizontal axis is parked where it handed over. -/
  handedOver : parked c s →
    s.alarmV = ⟨true, vPhaseEnd c s, HandlerId.ofAxisPhase .V s.vPhase⟩ ∧ s.alarmH.en = false
      ∧ s.hPhase = .backPorch ∧ vPhaseStart c s ≤ s.cnt ∧ s.cnt < vPhaseEnd c s
  /-- R78: LINE_START is on the line grid of the frame. -/
  line : ∃ L, s.lineStart = s.frameStart + L * c.hLine ∧ lineIs c s L
  /-- R24, R41 item 6: VCNT is positive exactly in LINE_CHAINED vertical blanking, and in its phase's range. -/
  lines : if c.verticalDrive = .lineChained ∧ s.vPhase ≠ .activePixel then
      1 ≤ s.vcnt ∧ s.vcnt ≤ phaseLines c s.vPhase else s.vcnt = 0
  /-- R30, R41 item 9. -/
  hsync : s.asserted c.hsyncPin = (s.hPhase == .sync)
  vsync : s.asserted c.vsyncPin = (s.vPhase == .sync)
  /-- R29, R41 item 8: no latch line is left asserted. -/
  latches : ∀ ch, s.asserted (c.latchPin.get ch) = false
  /-- R38, R171. -/
  context : contextIs c s

/-- TRACE is a history: times do not decrease and do not exceed CNT, pin sets are strictly rising (R39). -/
def traceOk (s : State) : Prop :=
  s.trace.Pairwise (fun a b => a.time ≤ b.time) ∧ ∀ e ∈ s.trace, e.time ≤ s.cnt ∧ e.pins.Pairwise (· < ·)

/-- Every store was to a slot of the installed Framebuffer (R50, R203). -/
def slotsOk (s : State) : Prop :=
  ∀ b ch, ∀ e ∈ (s.buffer b).get ch, ∃ c, s.md = some c ∧ e.1 < c.w * c.h

/-- What holds of the machine between two steps. -/
structure MachineOk (s : State) : Prop where
  /-- An armed engine is in order. -/
  engine : s.armed = true → ∃ c, s.md = some c ∧ EngineOk c s
  /-- R27, R41 item 2: while ARMED is false no alarm is enabled and no handler runs. -/
  idle : s.armed = false → s.alarmH.en = false ∧ s.alarmV.en = false ∧ s.busy = false ∧ s.spin = none
  /-- R31: MD holds a legal configuration or none. -/
  mode : ∀ c, s.md = some c → c.valid
  /-- Every channel memory is in canonical form. -/
  memory : ∀ b ch, Memory.wf ((s.buffer b).get ch)
  slots : slotsOk s
  /-- R37: without DOUBLE_BUFFER there is one buffer. -/
  single : ∀ c, s.md = some c → c.doubleBuffer = false → s.front = false ∧ s.swapReq = false
  /-- The GPIO set is a set. -/
  pins : s.gpio.Pairwise (· < ·)
  trace : traceOk s

/-- The working registers (`10_state.md` section 2) and the installed mode, armed or not: R22, R41 items 6 and 7. It
is kept by every step but the SCH.CONFIG that replaces a mode, which R161 forbids to touch the cursor (log 16). -/
structure WorkingOk (s : State) : Prop where
  /-- R40: before the first mode is installed nothing has moved. -/
  unconfigured : s.md = none → s.fast = 0 ∧ s.slow = 0 ∧ s.vcnt = 0 ∧ s.vPhase = .activePixel
  /-- R22: the Scan Cursor is in range. -/
  cursor : ∀ c, s.md = some c → s.fast < c.fastLimit ∧ s.slow < c.slowLimit
  /-- R41 item 6. -/
  lines : ∀ c, s.md = some c → (0 < s.vcnt ↔ c.verticalDrive = .lineChained ∧ s.vPhase ≠ .activePixel)
  /-- R41 item 7. -/
  cursorZero : s.vPhase ≠ .activePixel → s.fast = 0 ∧ s.slow = 0

/-- R29, R41 item 8: every latch line of the installed mode is deasserted, armed or not (log 33). -/
def latchesOff (s : State) : Prop := ∀ c, s.md = some c → ∀ ch, s.asserted (c.latchPin.get ch) = false

/-! ### Answers -/

/-- Refused: the reason goes to the issuer and no state changes (R204). -/
abbrev refusedWith (r : Reason) (s : State) : State := { s with response := .refused r }

/-- The refusals every normal-context operation opens with, in R204's order: wrong context, then FAULTED. -/
def normalRefusals (i : Instr) (s : State) : Prop :=
  (s.busy = true → exec i s = .next (refusedWith .badOp s)) ∧
  (s.busy = false → s.fault ≠ .none → exec i s = .next (refusedWith .faulted s))

/-- The same, and NOT_CONFIGURED after them, for an operation that needs the mode (R204). -/
def modeRefusals (i : Instr) (s : State) : Prop :=
  normalRefusals i s ∧
  (s.busy = false → s.fault = .none → s.md = none → exec i s = .next (refusedWith .notConfigured s))

/-- The refusals of a unit 1 primitive: issued on its own while ARMED, or with no mode (R80, R204). -/
def primitiveRefusals (i : Instr) (s : State) : Prop :=
  (s.busy = false → s.armed = true → exec i s = .next (refusedWith .badOp s)) ∧
  (s.busy = true ∨ s.armed = false → s.md = none → exec i s = .next (refusedWith .notConfigured s))

/-- The normal context may issue an operation under mode `c`: no handler runs, no fault, a mode (R204). -/
abbrev ready (c : Cfg) (s : State) : Prop := s.busy = false ∧ s.fault = .none ∧ s.md = some c

/-- A unit 1 primitive may run under mode `c`: called from a handler, or directly while disarmed (R80). -/
abbrev primitiveReady (c : Cfg) (s : State) : Prop := (s.busy = true ∨ s.armed = false) ∧ s.md = some c

/-- A handler may run under mode `c`: the interrupt context of an armed engine with a legal configuration. -/
abbrev handlerReady (c : Cfg) (s : State) : Prop :=
  s.busy = true ∧ s.armed = true ∧ s.md = some c ∧ c.valid

/-- The operation raises `f` in the normal context: FAULT records it, no value is returned and nothing else of the
spec's state changes (R203). -/
def raises (i : Instr) (s : State) (f : FaultCode) : Prop :=
  ∃ t, exec i s = .next t ∧ t.fault = f ∧ t.response = .raised ∧
    { t with fault := s.fault, work := s.work, response := s.response } = s

/-- ALARM_a is pending at the present CNT and may be served: not BUSY, or BUSY only with the busy-wait this very
alarm ends (R166, R167, R209). -/
abbrev due (a : Axis) (s : State) : Prop :=
  (s.alarm a).en = true ∧ (s.alarm a).deadline = s.cnt ∧ (s.busy = false ∨ s.spin = some (.thenRun a))

/-- The operation a HandlerId names (R73, R175). -/
def handlerInstr : HandlerId → Instr
  | .hActive => .hActive
  | .hFp => .hFp
  | .hSync => .hSync
  | .hBp => .hBp
  | .vEnter => .vEnter
  | .vFp => .vFp
  | .vSync => .vSync
  | .vBp => .vBp

/-- Under FREE_RUNNING the operation `i`, whose PHASE_CHAINED form ends with a SETALARM of ALARM_a, spins to `th` and
then runs `h` in place of that SETALARM (R169); everything else it does is the same. A threshold that has passed is
refused (log 20). -/
def spinsTo (i : Instr) (a : Axis) (th : Nat) (h : HandlerId) (c : Cfg) (s : State) : Prop :=
  ∃ u, exec i { s with md := some { c with strategy := .phaseChained } } = .next u ∧
    (s.cnt < th →
      exec i s = .next { u.setAlarmRec a ⟨true, th, h⟩ with md := some c, spin := some (.thenRun a) }) ∧
    (th ≤ s.cnt → exec i s = .next { u.setAlarmRec a (s.alarm a) with md := some c, response := .refused .badOp })

/-! ### Refusals in R204's order -/

/-- The column ctx of R71. -/
inductive Ctx where
  | normal | interrupt | timers
  deriving DecidableEq, Repr

/-- The context that may issue an operation (R71). `SCH.SETALARM` is the interrupt context's: inside `SCH.ARM` it is
no operation of its own. -/
def context : Instr → Ctx
  | .fbGet .. | .fbSet .. | .fbSwap | .fbSetch .. | .schConfig _ | .schArm | .schDisarm
  | .hostWriterow .. | .hostLoadimage _ | .hostQuerycaps => .normal
  | .schTick | .schDispatch _ => .timers
  | .fbGetu .. | .poClrcolor | .poSetcolor _ | .poLatchon _ | .poLatchoff _ | .poEmitchannel .. | .poEmitpixel _
  | .hActive | .hFp | .hSync | .hBp | .vEnter | .vFp | .vSync | .vBp | .schSetalarm .. | .schSpin _ => .interrupt

/-- A unit 1 primitive, which a test may also call directly while disarmed (R80). -/
def isPrimitive : Instr → Bool
  | .poClrcolor | .poSetcolor _ | .poLatchon _ | .poLatchoff _ | .poEmitchannel .. | .poEmitpixel _ => true
  | _ => false

/-- The operation is issued from the wrong context (R80). -/
def wrongContext (i : Instr) (s : State) : Bool :=
  match context i with
  | .normal => s.busy
  | .timers => false
  | .interrupt => !s.busy && !(isPrimitive i && !s.armed)

/-- The operation needs the mode (R204, NOT_CONFIGURED). -/
def needsMode : Instr → Bool
  | .fbGet .. | .fbSet .. | .fbGetu .. | .fbSwap | .fbSetch .. | .schArm | .hostWriterow .. | .hostLoadimage _ => true
  | i => isPrimitive i

/-- The precondition of a handler on ARMED, h_phase, v_phase and SLOW (R122 to R125, R141 to R144). -/
def precondition (s : State) : Instr → Bool
  | .hActive => s.armed && s.hPhase == .activePixel
  | .hFp => s.armed && s.hPhase == .frontPorch
  | .hSync => s.armed && s.hPhase == .sync
  | .hBp => s.armed && s.hPhase == .backPorch
  | .vEnter => s.armed && s.vPhase == .activePixel && s.slow == 0
  | .vFp => s.armed && s.vPhase == .frontPorch
  | .vSync => s.armed && s.vPhase == .sync
  | .vBp => s.armed && s.vPhase == .backPorch
  | _ => true

/-- What depends on the state or on Cfg: FB.SWAP without DOUBLE_BUFFER, SCH.SPIN with `th <= CNT`, a handler whose
precondition is false (R204). -/
def lateBadOp (i : Instr) (s : State) : Bool :=
  match i with
  | .fbSwap => s.md.any fun c => !c.doubleBuffer
  | .schSpin th => decide (th ≤ s.cnt)
  | i => !precondition s i

/-- The first refusal, in R204's order of tests. -/
def firstRefusal (i : Instr) (s : State) : Option Reason :=
  if !i.wellFormed || wrongContext i s then some .badOp
  else if context i = .normal ∧ s.fault ≠ .none then some .faulted
  else if needsMode i ∧ s.md = none then some .notConfigured
  else
    match i with
    | .schConfig _ => if s.armed then some .isArmed else none
    | .schArm => if s.armed then some .isArmed else none
    | .schDisarm => if s.armed then none else some .notArmed
    | i => if lateBadOp i s then some .badOp else none

/-! ### Pin sets -/

/-- `p` is in COLOR_PINS (R76). -/
def isColorPin (t : PinTable) (p : Nat) : Prop := ∃ i, i < 8 ∧ t.get i = some p

/-- `p` is in MASK(v) (R76). -/
def isMaskPin (t : PinTable) (v : Byte) (p : Nat) : Prop := ∃ i, i < 8 ∧ v.getLsbD i = true ∧ t.get i = some p

/-- `p` is one of the pins SCH.ARM deasserts (R162). -/
def isEnginePin (c : Cfg) (p : Nat) : Prop :=
  isColorPin c.pinOfBit p ∨ (∃ ch, p = c.latchPin.get ch) ∨ p = c.hsyncPin ∨ p = c.vsyncPin

/-- `ps` is the list, strictly rising, of exactly the pins in `P`. -/
def listsSet (ps : List Nat) (P : Nat → Prop) : Prop := ps.Pairwise (· < ·) ∧ ∀ p, p ∈ ps ↔ P p

/-- What the events of a history make of the level of pin `p` (R35, R39). -/
def replay (p : Nat) : List Event → Bool → Bool
  | [], b => b
  | e :: es, b => replay p es (if p ∈ e.pins then e.kind == .set else b)

/-! ### The checks of R202, one by one -/

/-- Check `k` of R202 holds of `c`. -/
def configCheck (c : Cfg) : Nat → Prop
  | 1 => 1 ≤ c.w ∧ 1 ≤ c.h
  | 2 => 1 ≤ c.hActive ∧ 1 ≤ c.hFp ∧ 1 ≤ c.hSync ∧ 1 ≤ c.hBp
  | 3 => 1 ≤ c.vActive ∧ 1 ≤ c.vFp ∧ 1 ≤ c.vSync ∧ 1 ≤ c.vBp
  | 4 => 1 ≤ c.pixelPeriod ∧ 1 ≤ c.stride
  | 5 => c.hActive = c.nFast * c.pixelPeriod
  | 6 => c.vActive = c.nSlow
  | 7 => ∀ n, c.hTotal = some n → c.hLine ≤ n + 1 ∧ n ≤ c.hLine + 1
  | 8 => ∀ n, c.fTotal = some n → c.fTicks ≤ n + 1 ∧ n ≤ c.fTicks + 1
  | 9 =>
    (∀ i j p, c.pinOfBit.get i = some p → c.pinOfBit.get j = some p → i = j) ∧
    (∀ p, isColorPin c.pinOfBit p → p ≠ c.hsyncPin ∧ p ≠ c.vsyncPin ∧ ∀ ch, p ≠ c.latchPin.get ch) ∧
    (∀ ch dh, c.latchPin.get ch = c.latchPin.get dh → ch = dh) ∧
    (∀ ch, c.latchPin.get ch ≠ c.hsyncPin ∧ c.latchPin.get ch ≠ c.vsyncPin) ∧ c.hsyncPin ≠ c.vsyncPin
  | 10 => ∀ ch i, (c.wired.get ch).getLsbD i = true → ∃ p, c.pinOfBit.get i = some p
  | 11 => ∀ n, c.timerWidth = some n → c.fTicks < 2 ^ n
  | _ => True

/-! ### Runs of several operations -/

/-- The operations of `l` one after the other, stopping at the first that does not answer a next state. -/
def runAll : List Instr → State → Host.Outcome State Fault Refusal
  | [], s => .next s
  | i :: l, s =>
    match exec i s with
    | .next t => runAll l t
    | .fault f => .fault f
    | .refused r => .refused r

/-- `TICKS n` (R82). -/
def runTicks (n : Nat) (s : State) : Host.Outcome State Fault Refusal := runAll (List.replicate n .schTick) s

/-- `n` steps lead from `s` to `t`, and the engine is armed after each of them. -/
def stepsArmed : Nat → State → State → Prop
  | 0, s, t => t = s
  | n + 1, s, t => ∃ u, step s = .next u ∧ u.armed = true ∧ stepsArmed n u t

/-- `n` steps lead from `s` to `t`, and none of them replaces the mode installed by another: the configuration is "fixed
for a run" (`00_scope.md` section 4). -/
def stepsOneMode : Nat → State → State → Prop
  | 0, s, t => t = s
  | n + 1, s, t => ∃ u, step s = .next u ∧ (s.md = none ∨ u.md = s.md) ∧ stepsOneMode n u t

/-- Under mode `c` the engine's read of each slot answers what `f` says of it, and changes nothing (R92). -/
def engineSees (c : Cfg) (s : State) (f : Nat → Pixel) : Prop :=
  ∀ x y, x < c.w → y < c.h →
    exec (.fbGetu x y) { s with busy := true }
      = .next { s with busy := true, response := .pixel (f (y * c.w + x)) }

/-- The single-channel stores that `HOST.WRITEROW y, row` is made of, from column `x` on (R191, R91). -/
def rowStores (y : Nat) : Nat → List Pixel → List Instr
  | _, [] => []
  | x, p :: ps =>
    .fbSetch x y (channelCode .R) p.r :: .fbSetch x y (channelCode .G) p.g :: .fbSetch x y (channelCode .B) p.b
      :: rowStores y (x + 1) ps

/-- The state of an engine without what the strategy may change: STRATEGY itself and BUSY, with the busy-wait it
stands for (R171). -/
def withoutStrategy (s : State) : State :=
  { s with md := s.md.map fun c => { c with strategy := .phaseChained }, busy := false, spin := none }

end Sys2Proof.Machine
end

