-- ==== Sys2Proof/Certificates/Slice0/Obligations.lean ====
section
/-! DEFINITION. The statements for the provers. Each operation has one statement of all it answers: its encoding
byte, its refusals in R204's order, its faults, and its result as an equation that is its frame too. Then come the
statements about decoding, a step, and the machine as a whole. -/

open Sys2Proof Sys2Proof.Machine

/-! ### Unit 0: the Framebuffer -/

/-- R90. The read answers the pixel of the slot in the writer's buffer and changes nothing. -/
def Obligations.FbGetReadsWriterSlot : Prop :=
  ∀ (x y : Nat) (s : State),
    (encode (.fbGet x y)).op = 0x00 ∧ modeRefusals (.fbGet x y) s ∧
    ∀ c, ready c s →
      (c.w ≤ x ∨ c.h ≤ y → raises (.fbGet x y) s (.fbRange x y)) ∧
      (x < c.w → y < c.h →
        exec (.fbGet x y) s
          = .next { s with response := .pixel (readPixel s (c.doubleBuffer && !s.front) (y * c.w + x)) })

/-- R91. With PIXEL_WRITE_ATOMIC one step writes exactly the slot; without it three channel stores become
outstanding, in no order (the list of outstanding groups is the model's: log 6). -/
def Obligations.FbSetStoresPixelOrThreeStores : Prop :=
  ∀ (x y : Nat) (p : Pixel) (s : State),
    (encode (.fbSet x y p)).op = 0x01 ∧ modeRefusals (.fbSet x y p) s ∧
    ∀ c, ready c s →
      (c.w ≤ x ∨ c.h ≤ y → raises (.fbSet x y p) s (.fbRange x y)) ∧
      (x < c.w → y < c.h → c.pixelWriteAtomic = true →
        ∃ t, exec (.fbSet x y p) s = .next t ∧ { t with fb0 := s.fb0, fb1 := s.fb1 } = s ∧
          ∀ b a ch, readChannel t b a ch
            = if b = (c.doubleBuffer && !s.front) ∧ a = y * c.w + x then p.get ch else readChannel s b a ch) ∧
      (x < c.w → y < c.h → c.pixelWriteAtomic = false →
        exec (.fbSet x y p) s
          = .next { s with
              work := [.op (.fbSetch x y 0 p.r), .op (.fbSetch x y 1 p.g), .op (.fbSetch x y 2 p.b)] :: s.work })

/-- R95. One channel of one slot changes; a channel operand of 3 is refused before anything else. -/
def Obligations.FbSetchStoresOneChannel : Prop :=
  ∀ (x y : Nat) (v : Byte) (s : State),
    exec (.fbSetch x y 3 v) s = .next (refusedWith .badOp s) ∧
    ∀ ch, (encode (.fbSetch x y (channelCode ch) v)).op = 0x04 ∧ modeRefusals (.fbSetch x y (channelCode ch) v) s ∧
      ∀ c, ready c s →
        (c.w ≤ x ∨ c.h ≤ y → raises (.fbSetch x y (channelCode ch) v) s (.fbRange x y)) ∧
        (x < c.w → y < c.h →
          ∃ t, exec (.fbSetch x y (channelCode ch) v) s = .next t ∧ { t with fb0 := s.fb0, fb1 := s.fb1 } = s ∧
            ∀ b a dh, readChannel t b a dh
              = if b = (c.doubleBuffer && !s.front) ∧ a = y * c.w + x ∧ dh = ch then v else readChannel s b a dh)

/-- R92, R203, R204. The interrupt context's read, from the engine's buffer. Out of range FAULT is set (if nothing
had set it: log 19), both alarms are disabled and the engine is disarmed; that BUSY and a busy-wait stay as they were is
the model's choice (log 30). -/
def Obligations.FbGetuReadsEngineSlot : Prop :=
  ∀ (x y : Nat) (s : State),
    (encode (.fbGetu x y)).op = 0x02 ∧
    (s.busy = false → exec (.fbGetu x y) s = .next (refusedWith .badOp s)) ∧
    (s.busy = true → s.md = none → exec (.fbGetu x y) s = .next (refusedWith .notConfigured s)) ∧
    ∀ c, s.busy = true → s.md = some c →
      (x < c.w → y < c.h →
        exec (.fbGetu x y) s
          = .next { s with response := .pixel (readPixel s (c.doubleBuffer && s.front) (y * c.w + x)) }) ∧
      (c.w ≤ x ∨ c.h ≤ y →
        exec (.fbGetu x y) s
          = .next { s with
              fault := if s.fault = .none then .fbRange x y else s.fault, alarmH := { s.alarmH with en := false },
              alarmV := { s.alarmV with en := false }, armed := false, response := .raised })

/-- R93. A swap is requested while ARMED and performed at once while disarmed. -/
def Obligations.FbSwapRequestsOrSwaps : Prop :=
  ∀ s : State,
    (encode .fbSwap).op = 0x03 ∧ modeRefusals .fbSwap s ∧
    ∀ c, ready c s →
      (c.doubleBuffer = false → exec .fbSwap s = .next (refusedWith .badOp s)) ∧
      (c.doubleBuffer = true → s.armed = true → exec .fbSwap s = .next { s with swapReq := true }) ∧
      (c.doubleBuffer = true → s.armed = false →
        exec .fbSwap s = .next { s with front := !s.front, swapReq := false })

/-! ### Unit 1: the Pixel Output Primitive -/

/-- R100. One register operation deasserts exactly the color lines. -/
def Obligations.PoClrcolorDeassertsColorLines : Prop :=
  ∀ s : State,
    (encode .poClrcolor).op = 0x10 ∧ primitiveRefusals .poClrcolor s ∧
    ∀ c, primitiveReady c s →
      ∃ t ps, exec .poClrcolor s = .next t ∧ listsSet ps (isColorPin c.pinOfBit) ∧
        (∀ p, t.asserted p = true ↔ s.asserted p = true ∧ ¬ isColorPin c.pinOfBit p) ∧
        { t with gpio := s.gpio } = { s with trace := s.trace ++ [⟨s.cnt, .clear, ps⟩] }

/-- R101. One register operation asserts exactly the lines of the set bits that have a pin. -/
def Obligations.PoSetcolorAssertsMask : Prop :=
  ∀ (v : Byte) (s : State),
    (encode (.poSetcolor v)).op = 0x11 ∧ primitiveRefusals (.poSetcolor v) s ∧
    ∀ c, primitiveReady c s →
      ∃ t ps, exec (.poSetcolor v) s = .next t ∧ listsSet ps (isMaskPin c.pinOfBit v) ∧
        (∀ p, t.asserted p = true ↔ s.asserted p = true ∨ isMaskPin c.pinOfBit v p) ∧
        { t with gpio := s.gpio } = { s with trace := s.trace ++ [⟨s.cnt, .set, ps⟩] }

/-- R102, R106. The strobe's leading edge: the latch line is asserted, and the latch of that channel, no other,
captures the wired bits whose color line is asserted. -/
def Obligations.PoLatchonStrobesAndCaptures : Prop :=
  ∀ s : State,
    exec (.poLatchon 3) s = .next (refusedWith .badOp s) ∧
    ∀ ch, (encode (.poLatchon (channelCode ch))).op = 0x12 ∧ primitiveRefusals (.poLatchon (channelCode ch)) s ∧
      ∀ c, primitiveReady c s →
        ∃ t v, exec (.poLatchon (channelCode ch)) s = .next t ∧
          (∀ p, t.asserted p = true ↔ s.asserted p = true ∨ p = c.latchPin.get ch) ∧
          (∀ i, v.getLsbD i = true ↔
            (c.wired.get ch).getLsbD i = true ∧ ∃ p, c.pinOfBit.get i = some p ∧ t.asserted p = true) ∧
          { t with gpio := s.gpio }
            = { s with
                dac := s.dac.set ch (some v), trace := s.trace ++ [⟨s.cnt, .set, [c.latchPin.get ch]⟩] }

/-- R103. The strobe's trailing edge: the latch line is deasserted, the latches hold. -/
def Obligations.PoLatchoffDeassertsLatch : Prop :=
  ∀ s : State,
    exec (.poLatchoff 3) s = .next (refusedWith .badOp s) ∧
    ∀ ch, (encode (.poLatchoff (channelCode ch))).op = 0x13 ∧ primitiveRefusals (.poLatchoff (channelCode ch)) s ∧
      ∀ c, primitiveReady c s →
        ∃ t, exec (.poLatchoff (channelCode ch)) s = .next t ∧
          (∀ p, t.asserted p = true ↔ s.asserted p = true ∧ p ≠ c.latchPin.get ch) ∧
          { t with gpio := s.gpio } = { s with trace := s.trace ++ [⟨s.cnt, .clear, [c.latchPin.get ch]⟩] }

/-- R104. Under a legal configuration (R31) `emitChannel` is four register operations; afterwards the color lines
carry `v`, the latch line is deasserted, the latch holds `v AND WIRED[c]`, and every other pin and register is as
before. -/
def Obligations.PoEmitchannelFourOperations : Prop :=
  ∀ (v : Byte) (s : State),
    exec (.poEmitchannel 3 v) s = .next (refusedWith .badOp s) ∧
    ∀ ch, (encode (.poEmitchannel (channelCode ch) v)).op = 0x14 ∧
      primitiveRefusals (.poEmitchannel (channelCode ch) v) s ∧
      ∀ c, primitiveReady c s → c.valid →
        ∃ t cs ms, exec (.poEmitchannel (channelCode ch) v) s = .next t ∧
          listsSet cs (isColorPin c.pinOfBit) ∧ listsSet ms (isMaskPin c.pinOfBit v) ∧
          (∀ p, t.asserted p = true ↔
            isMaskPin c.pinOfBit v p ∨
              s.asserted p = true ∧ ¬ isColorPin c.pinOfBit p ∧ p ≠ c.latchPin.get ch) ∧
          { t with gpio := s.gpio }
            = { s with
                dac := s.dac.set ch (some (v &&& c.wired.get ch)),
                trace := s.trace ++ [⟨s.cnt, .clear, cs⟩, ⟨s.cnt, .set, ms⟩, ⟨s.cnt, .set, [c.latchPin.get ch]⟩,
                  ⟨s.cnt, .clear, [c.latchPin.get ch]⟩] }

/-- R105. Under a legal configuration `emitPixel` is twelve register operations; afterwards every latch holds its
channel reduced to its wired bits, the color lines carry the channel emitted last, no latch line is asserted, and
every other pin and register is as before. -/
def Obligations.PoEmitpixelTwelveOperations : Prop :=
  ∀ (p : Pixel) (s : State),
    (encode (.poEmitpixel p)).op = 0x15 ∧ primitiveRefusals (.poEmitpixel p) s ∧
    ∀ c last, primitiveReady c s → c.valid → c.channelOrder.toList.getLast? = some last →
      ∃ t evs, exec (.poEmitpixel p) s = .next t ∧ evs.length = 12 ∧
        (∀ q, t.asserted q = true ↔
          isMaskPin c.pinOfBit (p.get last) q ∨
            s.asserted q = true ∧ ¬ isColorPin c.pinOfBit q ∧ ∀ ch, q ≠ c.latchPin.get ch) ∧
        { t with gpio := s.gpio }
          = { s with
              dac := ⟨some (p.r &&& c.wired.r), some (p.g &&& c.wired.g), some (p.b &&& c.wired.b)⟩,
              trace := s.trace ++ evs }

/-- R104, R105, R82. `PO.EMITCHANNEL` is its four register operations in order, and `PO.EMITPIXEL` its three
channels in CHANNEL_ORDER, under every configuration. -/
def Obligations.PoEmitEqualsExpansion : Prop :=
  ∀ (c : Cfg) (s : State), primitiveReady c s →
    (∀ ch v, exec (.poEmitchannel (channelCode ch) v) s
      = runAll [.poClrcolor, .poSetcolor v, .poLatchon (channelCode ch), .poLatchoff (channelCode ch)] s) ∧
    ∀ p : Pixel, exec (.poEmitpixel p) s
      = runAll (c.channelOrder.toList.map fun ch => .poEmitchannel (channelCode ch) (p.get ch)) s

/-! ### Unit 2: the horizontal handlers -/

/-- R122, R121, with PHASE_CHAINED (R168). `u` is the state after the emission of the pixel under the Scan Cursor, or
`s` itself where a corrupted cursor is only wrapped. -/
def Obligations.HActiveEmitsAndAdvances : Prop :=
  ∀ s : State,
    (encode .hActive).op = 0x20 ∧
    (¬ (s.busy = true ∧ s.armed = true ∧ s.hPhase = .activePixel) →
      exec .hActive s = .next (refusedWith .badOp s)) ∧
    ∀ c x y p, handlerReady c s → c.strategy = .phaseChained → s.hPhase = .activePixel →
      (x, y) = (if c.scanOrder = .rowMajor then (s.fast, s.slow) else (s.slow, s.fast)) →
      p = readPixel s (c.doubleBuffer && s.front) (y * c.w + x) →
        (s.vPhase ≠ .activePixel →
          exec .hActive s = .next { s with hPhase := .frontPorch, alarmH := ⟨true, s.cnt + c.hFp, .hFp⟩ }) ∧
        (s.vPhase = .activePixel →
          ∃ u, (if s.fast < c.fastLimit ∧ s.slow < c.slowLimit
              then exec (.poEmitpixel p) { s with pix := p } = .next u else u = s) ∧
            (s.fast + c.stride < c.fastLimit →
              exec .hActive s
                = .next { u with fast := s.fast + c.stride, alarmH := ⟨true, s.cnt + c.pixelPeriod, .hActive⟩ }) ∧
            (c.fastLimit ≤ s.fast + c.stride →
              exec .hActive s
                = .next { u with
                    fast := 0, slow := if c.slowLimit ≤ s.slow + c.stride then 0 else s.slow + c.stride,
                    hPhase := .frontPorch, alarmH := ⟨true, s.cnt + c.hFp, .hFp⟩ }))

/-- R123, with PHASE_CHAINED (R168). -/
def Obligations.HFpAssertsHsync : Prop :=
  ∀ s : State,
    (encode .hFp).op = 0x21 ∧
    (¬ (s.busy = true ∧ s.armed = true ∧ s.hPhase = .frontPorch) → exec .hFp s = .next (refusedWith .badOp s)) ∧
    ∀ c, handlerReady c s → c.strategy = .phaseChained → s.hPhase = .frontPorch →
      ∃ t, exec .hFp s = .next t ∧
        (∀ p, t.asserted p = true ↔ s.asserted p = true ∨ p = c.hsyncPin) ∧
        { t with gpio := s.gpio }
          = { s with
              hPhase := .sync, alarmH := ⟨true, s.cnt + c.hSync, .hSync⟩,
              trace := s.trace ++ [⟨s.cnt, .set, [c.hsyncPin]⟩] }

/-- R124, with PHASE_CHAINED (R168). -/
def Obligations.HSyncDeassertsHsync : Prop :=
  ∀ s : State,
    (encode .hSync).op = 0x22 ∧
    (¬ (s.busy = true ∧ s.armed = true ∧ s.hPhase = .sync) → exec .hSync s = .next (refusedWith .badOp s)) ∧
    ∀ c, handlerReady c s → c.strategy = .phaseChained → s.hPhase = .sync →
      ∃ t, exec .hSync s = .next t ∧
        (∀ p, t.asserted p = true ↔ s.asserted p = true ∧ p ≠ c.hsyncPin) ∧
        { t with gpio := s.gpio }
          = { s with
              hPhase := .backPorch, alarmH := ⟨true, s.cnt + c.hBp, .hBp⟩,
              trace := s.trace ++ [⟨s.cnt, .clear, [c.hsyncPin]⟩] }

/-- R125 with the two line starts of R126, under both drives and both strategies. VCNT is at least 1 where it is
decremented (R83; R41 item 6, an invariant of `MachineOk`). -/
def Obligations.HBpEndsLine : Prop :=
  ∀ s : State,
    (encode .hBp).op = 0x23 ∧
    (¬ (s.busy = true ∧ s.armed = true ∧ s.hPhase = .backPorch) → exec .hBp s = .next (refusedWith .badOp s)) ∧
    ∀ c, handlerReady c s → s.hPhase = .backPorch →
      ((c.verticalDrive = .dedicatedTimer ∨ s.vPhase = .activePixel) → s.slow ≠ 0 →
        exec .hBp s
          = .next { s with
              hPhase := .activePixel, lineStart := s.cnt, alarmH := ⟨true, s.cnt + c.pixelPeriod, .hActive⟩ }) ∧
      (c.verticalDrive = .dedicatedTimer → s.slow = 0 → exec .hBp s = exec .vEnter s) ∧
      (c.verticalDrive = .lineChained → s.vPhase = .activePixel → s.slow = 0 →
        ∃ u, exec .vEnter s = .next u ∧
          exec .hBp s
            = .next { u with
                hPhase := .activePixel, lineStart := s.cnt, alarmH := ⟨true, s.cnt + c.hActive, .hActive⟩ }) ∧
      (c.verticalDrive = .lineChained → s.vPhase ≠ .activePixel → 2 ≤ s.vcnt →
        exec .hBp s
          = .next { s with
              vcnt := s.vcnt - 1, hPhase := .activePixel, lineStart := s.cnt,
              alarmH := ⟨true, s.cnt + c.hActive, .hActive⟩ }) ∧
      (c.verticalDrive = .lineChained → s.vcnt = 1 →
        (s.vPhase = .frontPorch →
          ∃ u, exec .vFp { s with vcnt := 0 } = .next u ∧
            exec .hBp s
              = .next { u with
                  hPhase := .activePixel, lineStart := s.cnt, alarmH := ⟨true, s.cnt + c.hActive, .hActive⟩ }) ∧
        (s.vPhase = .sync →
          ∃ u, exec .vSync { s with vcnt := 0 } = .next u ∧
            exec .hBp s
              = .next { u with
                  hPhase := .activePixel, lineStart := s.cnt, alarmH := ⟨true, s.cnt + c.hActive, .hActive⟩ }) ∧
        (s.vPhase = .backPorch → exec .hBp s = exec .vBp { s with vcnt := 0 }))

/-! ### Unit 3: the vertical handlers -/

/-- R141; the DEDICATED_TIMER clause with PHASE_CHAINED (R168). -/
def Obligations.VEnterBeginsFrontPorch : Prop :=
  ∀ s : State,
    (encode .vEnter).op = 0x30 ∧
    (¬ (s.busy = true ∧ s.armed = true ∧ s.vPhase = .activePixel ∧ s.slow = 0) →
      exec .vEnter s = .next (refusedWith .badOp s)) ∧
    ∀ c, handlerReady c s → s.vPhase = .activePixel → s.slow = 0 →
      (c.verticalDrive = .lineChained →
        exec .vEnter s = .next { s with vPhase := .frontPorch, vcnt := c.vFp }) ∧
      (c.verticalDrive = .dedicatedTimer → c.strategy = .phaseChained →
        exec .vEnter s
          = .next { s with vPhase := .frontPorch, alarmV := ⟨true, s.cnt + c.vFp * c.hLine, .vFp⟩ })

/-- R142; the DEDICATED_TIMER clause with PHASE_CHAINED (R168). -/
def Obligations.VFpAssertsVsync : Prop :=
  ∀ s : State,
    (encode .vFp).op = 0x31 ∧
    (¬ (s.busy = true ∧ s.armed = true ∧ s.vPhase = .frontPorch) → exec .vFp s = .next (refusedWith .badOp s)) ∧
    ∀ c, handlerReady c s → s.vPhase = .frontPorch →
      c.verticalDrive = .lineChained ∨ c.strategy = .phaseChained →
      ∃ t, exec .vFp s = .next t ∧
        (∀ p, t.asserted p = true ↔ s.asserted p = true ∨ p = c.vsyncPin) ∧
        (c.verticalDrive = .lineChained →
          { t with gpio := s.gpio }
            = { s with vPhase := .sync, vcnt := c.vSync, trace := s.trace ++ [⟨s.cnt, .set, [c.vsyncPin]⟩] }) ∧
        (c.verticalDrive = .dedicatedTimer →
          { t with gpio := s.gpio }
            = { s with
                vPhase := .sync, alarmV := ⟨true, s.cnt + c.vSync * c.hLine, .vSync⟩,
                trace := s.trace ++ [⟨s.cnt, .set, [c.vsyncPin]⟩] })

/-- R143; the DEDICATED_TIMER clause with PHASE_CHAINED (R168). -/
def Obligations.VSyncDeassertsVsync : Prop :=
  ∀ s : State,
    (encode .vSync).op = 0x32 ∧
    (¬ (s.busy = true ∧ s.armed = true ∧ s.vPhase = .sync) → exec .vSync s = .next (refusedWith .badOp s)) ∧
    ∀ c, handlerReady c s → s.vPhase = .sync →
      c.verticalDrive = .lineChained ∨ c.strategy = .phaseChained →
      ∃ t, exec .vSync s = .next t ∧
        (∀ p, t.asserted p = true ↔ s.asserted p = true ∧ p ≠ c.vsyncPin) ∧
        (c.verticalDrive = .lineChained →
          { t with gpio := s.gpio }
            = { s with vPhase := .backPorch, vcnt := c.vBp, trace := s.trace ++ [⟨s.cnt, .clear, [c.vsyncPin]⟩] }) ∧
        (c.verticalDrive = .dedicatedTimer →
          { t with gpio := s.gpio }
            = { s with
                vPhase := .backPorch, alarmV := ⟨true, s.cnt + c.vBp * c.hLine, .vBp⟩,
                trace := s.trace ++ [⟨s.cnt, .clear, [c.vsyncPin]⟩] })

/-- R144 with R126 and R64: the frame start, under both drives and both strategies. -/
def Obligations.VBpStartsFrame : Prop :=
  ∀ s : State,
    (encode .vBp).op = 0x33 ∧
    (¬ (s.busy = true ∧ s.armed = true ∧ s.vPhase = .backPorch) → exec .vBp s = .next (refusedWith .badOp s)) ∧
    ∀ c, handlerReady c s → s.vPhase = .backPorch →
      exec .vBp s
        = .next { s with
            fast := 0, slow := 0, vPhase := .activePixel, vcnt := 0, frameStart := s.cnt,
            front := if c.doubleBuffer = true ∧ s.swapReq = true then !s.front else s.front,
            swapReq := if c.doubleBuffer = true ∧ s.swapReq = true then false else s.swapReq,
            hPhase := .activePixel, lineStart := s.cnt, alarmH := ⟨true, s.cnt + c.pixelPeriod, .hActive⟩ }

/-- R169, R167, R170. Under FREE_RUNNING each blanking handler does what it does under PHASE_CHAINED, but for its
final SETALARM: it spins to the absolute threshold of R170 and runs the successor in place. A pixel tick that does not
end its line keeps its SETALARM. (The spin is held as R167's
equivalent: ALARM_a with the threshold, BUSY left true: log 4. A threshold that has passed is refused: log 20.) -/
def Obligations.FreeRunningSpinsToThreshold : Prop :=
  ∀ (c : Cfg) (s : State), handlerReady c s → c.strategy = .freeRunning →
    (s.hPhase = .activePixel → s.vPhase ≠ .activePixel ∨ c.fastLimit ≤ s.fast + c.stride →
      spinsTo .hActive .H (s.lineStart + c.hActive + c.hFp) .hFp c s) ∧
    (s.hPhase = .activePixel → s.vPhase = .activePixel → s.fast + c.stride < c.fastLimit →
      ∃ u, exec .hActive { s with md := some { c with strategy := .phaseChained } } = .next u ∧
        exec .hActive s = .next { u with md := some c }) ∧
    (s.hPhase = .frontPorch → spinsTo .hFp .H (s.lineStart + c.hActive + c.hFp + c.hSync) .hSync c s) ∧
    (s.hPhase = .sync → spinsTo .hSync .H (s.lineStart + c.hLine) .hBp c s) ∧
    (c.verticalDrive = .dedicatedTimer →
      (s.vPhase = .activePixel → s.slow = 0 →
        spinsTo .vEnter .V (s.frameStart + (c.nSlow + c.vFp) * c.hLine) .vFp c s) ∧
      (s.vPhase = .frontPorch →
        spinsTo .vFp .V (s.frameStart + (c.nSlow + c.vFp + c.vSync) * c.hLine) .vSync c s) ∧
      (s.vPhase = .sync → spinsTo .vSync .V (s.frameStart + c.vLines * c.hLine) .vBp c s))

/-! ### Unit 4: the scheduler -/

/-- R161, R202. A configuration that fails a check raises CONFIG_INVALID with the index of the first; a legal one is
installed, and every slot of the new Framebuffer reads as a value nothing has fixed (log 8). That a failing
reconfiguration keeps the mode installed before, where R161 says "MD is left none" and R202 "MD stays none", is the
model's choice (log 15). -/
def Obligations.SchConfigChecksThenInstalls : Prop :=
  ∀ (cfg : Cfg) (s : State),
    (encode (.schConfig cfg)).op = 0x40 ∧ normalRefusals (.schConfig cfg) s ∧
    (s.busy = false → s.fault = .none →
      (s.armed = true → exec (.schConfig cfg) s = .next (refusedWith .isArmed s)) ∧
      (s.armed = false →
        (∀ k, 1 ≤ k → k ≤ 11 → ¬ configCheck cfg k → (∀ j, 1 ≤ j → j < k → configCheck cfg j) →
          raises (.schConfig cfg) s (.configInvalid k)) ∧
        ((∀ k, configCheck cfg k) →
          ∃ t, exec (.schConfig cfg) s = .next t ∧ t.alloc ≠ s.alloc ∧
            { t with fb0 := s.fb0, fb1 := s.fb1, alloc := s.alloc }
              = { s with md := some cfg, front := false, swapReq := false } ∧
            ∀ b a ch, readChannel t b a ch = Config.freeByte t.alloc b ch a)))

/-- R162 with R126. (`spin` is the model's own field: log 4.) -/
def Obligations.SchArmStartsFrame : Prop :=
  ∀ s : State,
    (encode .schArm).op = 0x41 ∧ modeRefusals .schArm s ∧
    ∀ c, ready c s → c.valid →
      (s.armed = true → exec .schArm s = .next (refusedWith .isArmed s)) ∧
      (s.armed = false →
        ∃ t ps, exec .schArm s = .next t ∧ listsSet ps (isEnginePin c) ∧
          (∀ p, t.asserted p = true ↔ s.asserted p = true ∧ ¬ isEnginePin c p) ∧
          { t with gpio := s.gpio, spin := s.spin }
            = { s with
                trace := s.trace ++ [⟨s.cnt, .clear, ps⟩], fast := 0, slow := 0, vcnt := 0, vPhase := .activePixel,
                alarmV := { s.alarmV with en := false }, frameStart := s.cnt, busy := false, armed := true,
                hPhase := .activePixel, lineStart := s.cnt, alarmH := ⟨true, s.cnt + c.pixelPeriod, .hActive⟩ })

/-- R163. -/
def Obligations.SchDisarmClearsEnables : Prop :=
  ∀ s : State,
    (encode .schDisarm).op = 0x42 ∧ normalRefusals .schDisarm s ∧
    (s.busy = false → s.fault = .none →
      (s.armed = false → exec .schDisarm s = .next (refusedWith .notArmed s)) ∧
      (s.armed = true →
        exec .schDisarm s
          = .next { s with
              alarmH := { s.alarmH with en := false }, alarmV := { s.alarmV with en := false }, armed := false }))

/-- R164, R210. A tick adds one to CNT and dispatches what is due at the new time, ALARM_H before ALARM_V. -/
def Obligations.SchTickCountsAndServes : Prop :=
  ∀ s s₁ : State, (encode .schTick).op = 0x43 ∧
    (s₁ = { s with cnt := s.cnt + 1 } → s.spin ≠ some (.bare s₁.cnt) →
      (¬ due .H s₁ → ¬ due .V s₁ → exec .schTick s = .next s₁) ∧
      (due .H s₁ →
        ∃ u, exec (.schDispatch .H) s₁ = .next u ∧
          (¬ due .H u → ¬ due .V u → exec .schTick s = .next u) ∧
          (¬ due .H u → due .V u → exec .schTick s = exec (.schDispatch .V) u)) ∧
      (¬ due .H s₁ → due .V s₁ →
        ∃ u, exec (.schDispatch .V) s₁ = .next u ∧ (¬ due .H u → ¬ due .V u → exec .schTick s = .next u)))

/-- R165. -/
def Obligations.SchSetalarmProgramsAlarm : Prop :=
  ∀ (a : Axis) (d : Nat) (h : HandlerId) (s : State),
    (encode (.schSetalarm a d h)).op = 0x44 ∧
    (d = 0 ∨ h = .vEnter ∨ h.axis ≠ a ∨ s.busy = false →
      exec (.schSetalarm a d h) s = .next (refusedWith .badOp s)) ∧
    (s.busy = true → 1 ≤ d → h ≠ .vEnter → h.axis = a →
      (a = .H → exec (.schSetalarm a d h) s = .next { s with alarmH := ⟨true, s.cnt + d, h⟩ }) ∧
      (a = .V → exec (.schSetalarm a d h) s = .next { s with alarmV := ⟨true, s.cnt + d, h⟩ }))

/-- R166, R211, R212, R175. Entry clears the alarm's enable and sets BUSY and saves nothing else; the handler the alarm
names runs whole; the return clears BUSY, unless the invocation spins on (R169). A dispatch of an alarm that is not due is
refused (log 28). -/
def Obligations.SchDispatchRunsHandler : Prop :=
  ∀ (a : Axis) (s : State),
    (encode (.schDispatch a)).op = 0x45 ∧
    (¬ due a s → exec (.schDispatch a) s = .next (refusedWith .badOp s)) ∧
    (due a s →
      ∃ u, exec (handlerInstr (s.alarm a).handler)
          { s.setAlarmRec a { s.alarm a with en := false } with busy := true, spin := none } = .next u ∧
        exec (.schDispatch a) s = .next { u with busy := u.spin.isSome })

/-- R167. The busy-wait holds the interrupt context and writes nothing else (how it is held: log 4). The ticks before its
threshold pass with no handler run, and the tick that makes CNT its threshold ends it. -/
def Obligations.SchSpinHoldsUntilThreshold : Prop :=
  ∀ (th : Nat) (s : State),
    (encode (.schSpin th)).op = 0x46 ∧
    (s.busy = false ∨ th ≤ s.cnt → exec (.schSpin th) s = .next (refusedWith .badOp s)) ∧
    (s.busy = true → s.cnt < th → exec (.schSpin th) s = .next { s with spin := some (.bare th) }) ∧
    (s.busy = true → s.spin = some (.bare th) →
      (s.cnt + 1 < th → exec .schTick s = .next { s with cnt := s.cnt + 1 }) ∧
      (s.cnt + 1 = th → ¬ due .H { s with cnt := th, busy := false, spin := none } →
        ¬ due .V { s with cnt := th, busy := false, spin := none } →
        exec .schTick s = .next { s with cnt := th, busy := false, spin := none }))

/-! ### Unit 5: the host -/

/-- R191. A row that does not fit raises FB_RANGE; one that fits makes its W `FB.SET`s outstanding, in no order (log 6). -/
def Obligations.HostWriterowIsRowOfStores : Prop :=
  ∀ (y : Nat) (row : List Pixel) (s : State),
    (encode (.hostWriterow y row)).op = 0x50 ∧ modeRefusals (.hostWriterow y row) s ∧
    ∀ c, ready c s →
      (c.h ≤ y ∨ row.length ≠ c.w → raises (.hostWriterow y row) s (.fbRange row.length y)) ∧
      (y < c.h → row.length = c.w →
        exec (.hostWriterow y row) s
          = .next { s with work := (row.zipIdx.map fun px => Job.op (.fbSet px.2 y px.1)) :: s.work })

/-- R192. The environment's outcome, listed or free (log 7), decides: a failure at once, or the rows one after the
other and then the result (log 6). -/
def Obligations.HostLoadimageFollowsOutcome : Prop :=
  ∀ (src : Nat) (s : State) (o : LoadOutcome),
    (encode (.hostLoadimage src)).op = 0x51 ∧ modeRefusals (.hostLoadimage src) s ∧
    ∀ c, ready c s → o = (s.outcomes.lookup src).getD (Config.freeOutcome src s.nfree) →
      (o = .openFailed ∨ o = .badFormat →
        exec (.hostLoadimage src) s = .next { s with nfree := s.nfree + 1, response := .failure }) ∧
      ∀ rows complete, o = .rows rows complete →
        exec (.hostLoadimage src) s
          = .next { s with
              nfree := s.nfree + 1,
              work := (rows.map fun yr => [Job.op (.hostWriterow yr.1 yr.2)]) ++ [.finish complete] :: s.work }

/-- R193. (With no mode installed HAS_CAPQUERY has its decided value false: log 17.) -/
def Obligations.HostQuerycapsAnswers : Prop :=
  ∀ s : State,
    (encode .hostQuerycaps).op = 0x52 ∧ normalRefusals .hostQuerycaps s ∧
    (s.busy = false → s.fault = .none →
      (s.md = none → exec .hostQuerycaps s = .next { s with response := .unsupported }) ∧
      ∀ c, s.md = some c →
        (c.hasCapquery = false → exec .hostQuerycaps s = .next { s with response := .unsupported }) ∧
        (c.hasCapquery = true →
          exec .hostQuerycaps s
            = .next { s with response := .resolution Config.monitorNative.1 Config.monitorNative.2 }))

/-! ### Encodings -/

/-- R71 to R75. Decoding an encoded instruction gives it back, every operand at every value. -/
def Obligations.DecodeEncode : Prop := ∀ i : Instr, decode (encode i) = .ok i

/-- R71. A word that decodes is the encoding of what it decodes to: no word has two readings and no bit is dropped. -/
def Obligations.EncodeDecode : Prop := ∀ (w : OpWord) (i : Instr), decode w = .ok i → encode i = w

/-- R79. The reserved operation bytes are exactly those listed there, and no operands make one legal. -/
def Obligations.ReservedBytes : Prop :=
  ∀ op : Byte,
    ((∃ args, decode ⟨op, args⟩ = .error .reservedByte) ↔
      0x05 ≤ op.toNat ∧ op.toNat ≤ 0x0F ∨ 0x16 ≤ op.toNat ∧ op.toNat ≤ 0x1F ∨ 0x24 ≤ op.toNat ∧ op.toNat ≤ 0x2F ∨
      0x34 ≤ op.toNat ∧ op.toNat ≤ 0x3F ∨ 0x47 ≤ op.toNat ∧ op.toNat ≤ 0x4F ∨ 0x53 ≤ op.toNat ∧ op.toNat ≤ 0x5F ∨
      0x60 ≤ op.toNat) ∧
    ∀ args, decode ⟨op, args⟩ = .error .reservedByte → ∀ args', decode ⟨op, args'⟩ = .error .reservedByte

/-- R71, R73, R74, R79. Words of each unit, written out from the map of R71. -/
def Obligations.SampleWords : Prop :=
  decode ⟨0b0000_0000#8, [.nat 3, .nat 5]⟩ = .ok (.fbGet 3 5) ∧
  decode ⟨0b0000_0100#8, [.nat 1, .nat 2, .chan 0b10#2, .byte 0x7F]⟩ = .ok (.fbSetch 1 2 2 0x7F) ∧
  decode ⟨0b0001_0100#8, [.chan 0b01#2, .byte 0xA0]⟩ = .ok (.poEmitchannel 1 0xA0) ∧
  decode ⟨0b0010_0010#8, []⟩ = .ok .hSync ∧
  decode ⟨0b0011_0011#8, []⟩ = .ok .vBp ∧
  decode ⟨0b0100_0100#8, [.alarm 1, .nat 9, .handler 0b110#3]⟩ = .ok (.schSetalarm .V 9 .vSync) ∧
  decode ⟨0b0101_0001#8, [.source 4]⟩ = .ok (.hostLoadimage 4) ∧
  decode ⟨0b0101_0011#8, []⟩ = .error .reservedByte ∧
  decode ⟨0b0100_0001#8, [.nat 0]⟩ = .error .badOperands

/-! ### A step -/

/-- R60, R81 (log 2, log 27). With the interrupt context free and no sub-step outstanding, a step issues the script's
next word: it runs exactly the instruction the word decodes to, on the state without the word and without the last
answer. -/
def Obligations.StepRunsDecoded : Prop :=
  ∀ (s : State) (w : OpWord) (rest : List OpWord) (i : Instr),
    s.busy = false → s.work = [] → s.script = w :: rest → decode w = .ok i →
      step s = exec i { s with script := rest, response := .none }

/-- R79, R81. A word that does not decode is answered BAD_OP and changes nothing else. -/
def Obligations.StepRejects : Prop :=
  ∀ (s : State) (w : OpWord) (rest : List OpWord) (e : DecodeError),
    s.busy = false → s.work = [] → s.script = w :: rest → decode w = .error e →
      step s = .next { s with script := rest, response := .refused .badOp }

/-- R171, R169, R33 (log 5). While the interrupt context is occupied the normal context is held: a step is a tick, which
uses up the script's next word only if that is a SCH.TICK line. With nothing to issue a step is a tick too (log 2). -/
def Obligations.StepTicks : Prop :=
  ∀ s : State,
    (s.busy = true →
      (∀ rest, s.script = ⟨0x43, []⟩ :: rest → step s = exec .schTick { s with script := rest }) ∧
      (∀ w rest, s.script = w :: rest → w ≠ ⟨0x43, []⟩ → step s = exec .schTick s) ∧
      (s.script = [] → step s = exec .schTick s)) ∧
    (s.busy = false → s.work = [] → s.script = [] → step s = exec .schTick s)

/-- R60 item 4, R91, R191 (log 6). Between the sub-steps of a compound operation the environment's choice `k` picks any
sub-step of the first group, or a tick; the sub-step then runs as an operation of the normal context. A tick so chosen
uses up the script's next word if that is a SCH.TICK line, and leaves any other (log 5). -/
def Obligations.StepSubsteps : Prop :=
  ∀ (s : State) (g : List Job) (rest : List (List Job)) (k : Nat) (ks : List Nat),
    s.busy = false → s.work = g :: rest → s.choices = k :: ks → k ≤ g.length →
      (∀ i, g[k]? = some (.op i) →
        step s = exec i { s with choices := ks, work := if g.length = 1 then rest else g.eraseIdx k :: rest }) ∧
      (∀ complete, g[k]? = some (.finish complete) → s.fault = .none →
        step s
          = .next { s with
              choices := ks, work := if g.length = 1 then rest else g.eraseIdx k :: rest,
              response := if complete = true then .success else .failure }) ∧
      (k = g.length → g ≠ [] →
        (∀ more, s.script = ⟨0x43, []⟩ :: more → step s = exec .schTick { s with choices := ks, script := more }) ∧
        (∀ w more, s.script = w :: more → w ≠ ⟨0x43, []⟩ → step s = exec .schTick { s with choices := ks }) ∧
        (s.script = [] → step s = exec .schTick { s with choices := ks }))

/-! ### Refusals, faults, contexts -/

/-- R204. The first refusal in R204's order is the one reported, and a refused operation changes no state at all. -/
def Obligations.RefusalOrder : Prop :=
  ∀ (i : Instr) (s : State) (r : Reason),
    firstRefusal i s = some r → exec i s = .next (refusedWith r s)

/-- R207. Once FAULT is not none, no step writes it again. -/
def Obligations.FaultSticky : Prop :=
  ∀ s t : State, s.fault ≠ .none → step s = .next t → t.fault = s.fault

/-- R214, R190, R195. No normal-context operation but SCH.ARM and SCH.DISARM writes an engine register, a pin, a latch,
the counter or the history. -/
def Obligations.NormalLeavesEngine : Prop :=
  ∀ (i : Instr) (s t : State), context i = .normal → i ≠ .schArm → i ≠ .schDisarm → exec i s = .next t →
    t.fast = s.fast ∧ t.slow = s.slow ∧ t.pix = s.pix ∧ t.vcnt = s.vcnt ∧ t.hPhase = s.hPhase ∧ t.vPhase = s.vPhase ∧
    t.alarmH = s.alarmH ∧ t.alarmV = s.alarmV ∧ t.armed = s.armed ∧ t.gpio = s.gpio ∧ t.cnt = s.cnt ∧
    t.frameStart = s.frameStart ∧ t.lineStart = s.lineStart ∧ t.dac = s.dac ∧ t.busy = s.busy ∧ t.trace = s.trace

/-- R59, R57. Only `FB.SET`, `FB.SETCH` and `SCH.CONFIG` change what any slot of either buffer reads as: the engine, the
timers and the primitives never write the Framebuffer, and the compound host operations only through those stores. -/
def Obligations.FramebufferFrame : Prop :=
  ∀ (i : Instr) (s t : State), exec i s = .next t →
    (∀ x y p, i ≠ .fbSet x y p) → (∀ x y c v, i ≠ .fbSetch x y c v) → (∀ c, i ≠ .schConfig c) →
      ∀ b a ch, readChannel t b a ch = readChannel s b a ch

/-- R36. The latches are written by the strobe and by nothing else. -/
def Obligations.DacFrame : Prop :=
  ∀ (i : Instr) (s t : State), exec i s = .next t →
    (∀ c, i ≠ .poLatchon c) → (∀ c v, i ≠ .poEmitchannel c v) → (∀ p, i ≠ .poEmitpixel p) → i ≠ .hActive →
    i ≠ .schTick → (∀ a, i ≠ .schDispatch a) → t.dac = s.dac

/-- R33. CNT is incremented by one per SCH.TICK, and no other operation writes it. -/
def Obligations.CounterOnlyTicks : Prop :=
  ∀ (i : Instr) (s t : State), exec i s = .next t → t.cnt = if i = .schTick then s.cnt + 1 else s.cnt

/-- R35, R39. Every change of a pin is in the history: an operation only appends events, all of the time it happens at,
and the levels after it are those before it with these events replayed. -/
def Obligations.TraceReplaysPins : Prop :=
  ∀ (i : Instr) (s t : State), exec i s = .next t →
    ∃ evs, t.trace = s.trace ++ evs ∧ (∀ e ∈ evs, e.time = t.cnt) ∧
      ∀ p, t.asserted p = replay p evs (s.asserted p)

/-! ### Reset and the invariant -/

/-- R230, R231. Nothing runs at reset: from reset with nothing issued, `n` steps only count to CNT + `n`; and the
engine stays disarmed, with no alarm enabled, no mode, no fault, the cursor at (0, 0) and both phases ACTIVE_PIXEL. -/
def Obligations.ResetIsInert : Prop :=
  ∀ n : Nat, ∃ t, Host.Core.run Sys2Proof.core n State.reset = .next t ∧
    t = { State.reset with cnt := State.reset.cnt + n } ∧
    t.armed = false ∧ t.alarmH.en = false ∧ t.alarmV.en = false ∧ t.md = none ∧ t.fault = .none ∧ t.fast = 0 ∧
    t.slow = 0 ∧ t.vcnt = 0 ∧ t.hPhase = .activePixel ∧ t.vPhase = .activePixel ∧ t.front = false ∧
    t.swapReq = false ∧ t.busy = false ∧ t.trace = [] ∧ (∀ ch, t.dac.get ch = none)

/-- R41, R26, R31, R22. The machine's invariant holds at reset, and so does what R22 and R41 say of the working
registers. -/
def Obligations.ResetMeetsInvariant : Prop := MachineOk State.reset ∧ WorkingOk State.reset

/-- R41, R22, R24, R26, R30, R31. Every step keeps the invariant, from every state that has it. `MachineOk` claims R22 and
R41 items 3 to 9 of an ARMED engine; the further clauses say what of them holds while it is disarmed too. R22 and items 6
and 7 (`WorkingOk`) hold after every step that leaves the engine armed, and are kept by every step but a SCH.CONFIG that
replaces the mode installed by another (log 16). Item 8 (`latchesOff`) holds after every step that leaves the engine
armed, and is kept by every step that leaves the mode but a PO.LATCHON issued on its own (log 33). So in every state
reached from reset, whatever is issued, under the one mode of a run, the invariant, R22 and items 6 and 7 hold. -/
def Obligations.StepKeepsInvariant : Prop :=
  (∀ s t : State, MachineOk s → step s = .next t →
    MachineOk t ∧
    (t.armed = true → WorkingOk t ∧ latchesOff t) ∧
    (WorkingOk s → s.md = none ∨ t.md = s.md → WorkingOk t) ∧
    (latchesOff s → t.md = s.md → (∀ ch u, nextMove s ≠ .run (.poLatchon ch) u) → latchesOff t)) ∧
  ∀ (script : List OpWord) (choices : List Nat) (outcomes : List (Nat × LoadOutcome)) (n : Nat) (t : State),
    stepsOneMode n { State.reset with script := script, choices := choices, outcomes := outcomes } t →
      MachineOk t ∧ WorkingOk t

/-- R174, R209, R26, R41 items 3 to 5. An armed engine always has exactly one alarm enabled, with a deadline to come and a
handler that names the phase of its axis; no tick disarms it, and no pending alarm survives a tick. -/
def Obligations.EngineNeverStops : Prop :=
  ∀ s t : State, MachineOk s → s.armed = true → exec .schTick s = .next t →
    t.armed = true ∧ t.fault = s.fault ∧ (∀ a, ¬ due a t) ∧
    ((t.alarmH.en = true ∧ t.alarmV.en = false ∧ t.cnt < t.alarmH.deadline ∧
        t.alarmH.handler = HandlerId.ofAxisPhase .H t.hPhase) ∨
      (t.alarmV.en = true ∧ t.alarmH.en = false ∧ t.cnt < t.alarmV.deadline ∧
        t.alarmV.handler = HandlerId.ofAxisPhase .V t.vPhase))

/-! ### The waveforms -/

/-- R129. The HSYNC waveform: at every state that steps lead to from an arming, whatever the host does between the
ticks short of disarming, under both drives and both strategies. -/
def Obligations.HsyncWaveform : Prop :=
  ∀ (c : Cfg) (s a t : State) (n T : Nat), MachineOk s → ready c s → s.armed = false → exec .schArm s = .next a →
    stepsArmed n a t → T = (t.cnt - s.cnt) % c.fTicks →
      (t.asserted c.hsyncPin = true ↔
        (c.hActive + c.hFp ≤ T % c.hLine ∧ T % c.hLine < c.hActive + c.hFp + c.hSync) ∧
        (T / c.hLine < c.nSlow ∨ c.verticalDrive = .lineChained))

/-- R147. The VSYNC waveform and the vertical phase, at every such state. -/
def Obligations.VsyncWaveform : Prop :=
  ∀ (c : Cfg) (s a t : State) (n T : Nat), MachineOk s → ready c s → s.armed = false → exec .schArm s = .next a →
    stepsArmed n a t → T = (t.cnt - s.cnt) % c.fTicks →
      (t.asserted c.vsyncPin = true ↔
        (c.nSlow + c.vFp) * c.hLine ≤ T ∧ T < (c.nSlow + c.vFp + c.vSync) * c.hLine) ∧
      t.vPhase
        = if T < c.nSlow * c.hLine then .activePixel
          else if T < (c.nSlow + c.vFp) * c.hLine then .frontPorch
          else if T < (c.nSlow + c.vFp + c.vSync) * c.hLine then .sync
          else .backPorch

/-- R130. The pixel schedule: of the steps that follow an arming at CNT = T0 = `z.cnt` (whatever the host does meanwhile,
short of disarming), one that counts to `T0 + m*F_TICKS + j*H_LINE + (i + 1)*PIXEL_PERIOD` emits the slot
`coord(i*STRIDE, j*STRIDE)` as it reads then, and the latches hold it masked; and at every other step PIX and the latches
hold. -/
def Obligations.PixelSchedule : Prop :=
  ∀ (c : Cfg) (z a s t : State) (n : Nat), MachineOk z → ready c z → z.armed = false → exec .schArm z = .next a →
    stepsArmed n a s → step s = .next t →
    (∀ m i j x y p, i < c.nFast → j < c.nSlow → t.cnt = s.cnt + 1 →
      t.cnt = z.cnt + m * c.fTicks + j * c.hLine + (i + 1) * c.pixelPeriod →
      (x, y) = (if c.scanOrder = .rowMajor then (i * c.stride, j * c.stride) else (j * c.stride, i * c.stride)) →
      p = readPixel s (c.doubleBuffer && s.front) (y * c.w + x) →
        x < c.w ∧ y < c.h ∧ t.pix = p ∧
        t.dac = ⟨some (p.r &&& c.wired.r), some (p.g &&& c.wired.g), some (p.b &&& c.wired.b)⟩ ∧
        ∃ evs, t.trace = s.trace ++ evs ∧ evs.length = 12) ∧
    ((t.cnt = s.cnt ∨ ∀ m i j, i < c.nFast → j < c.nSlow →
        t.cnt ≠ z.cnt + m * c.fTicks + j * c.hLine + (i + 1) * c.pixelPeriod) →
      t.pix = s.pix ∧ t.dac = s.dac)

/-- R131, R148. From a frame start of an armed engine, F_TICKS ticks end in a frame start: the cursor at (0, 0), both
phases ACTIVE_PIXEL, FRAME_START and LINE_START at the new CNT, ALARM_H one pixel period ahead; and none of the ticks
before was one. -/
def Obligations.FramePeriod : Prop :=
  ∀ (c : Cfg) (s : State), MachineOk s → s.armed = true → s.md = some c → s.frameStart = s.cnt →
    ∃ t, runTicks c.fTicks s = .next t ∧ t.cnt = s.cnt + c.fTicks ∧ t.frameStart = t.cnt ∧ t.lineStart = t.cnt ∧
      t.fast = 0 ∧ t.slow = 0 ∧ t.vcnt = 0 ∧ t.hPhase = .activePixel ∧ t.vPhase = .activePixel ∧
      t.alarmH = ⟨true, t.cnt + c.pixelPeriod, .hActive⟩ ∧ t.alarmV.en = false ∧
      ∀ n u, 1 ≤ n → n < c.fTicks → runTicks n s = .next u → u.frameStart = s.frameStart ∧ u.frameStart ≠ u.cnt

/-- R171. Two engines in order that differ only in STRATEGY and BUSY still differ only in these after a tick: the same
history, cursor, phases, latches, alarms and Framebuffer. -/
def Obligations.StrategiesAgree : Prop :=
  ∀ s s' t t' : State, MachineOk s → MachineOk s' → s.armed = true → withoutStrategy s = withoutStrategy s' →
    exec .schTick s = .next t → exec .schTick s' = .next t' → withoutStrategy t = withoutStrategy t'

/-- R195, R109. What the Framebuffer holds cannot move the timing: two machines in order that differ only in its contents
agree after a tick in everything but the pixel, the latches, the color lines and what the history says of them. -/
def Obligations.FramebufferCannotSteer : Prop :=
  ∀ (s s' t t' : State) (c : Cfg), MachineOk s → MachineOk s' → s.md = some c →
    s' = { s with fb0 := s'.fb0, fb1 := s'.fb1, alloc := s'.alloc } →
    exec .schTick s = .next t → exec .schTick s' = .next t' →
      { t' with
          fb0 := t.fb0, fb1 := t.fb1, alloc := t.alloc, pix := t.pix, dac := t.dac, gpio := t.gpio,
          trace := t.trace } = t ∧
      t'.trace.length = t.trace.length ∧
      ∀ p, ¬ isColorPin c.pinOfBit p → t'.asserted p = t.asserted p

/-- R64, R144. While the engine is armed the front buffer changes at a frame start only, and only if a swap was
requested, which it then was for the last time. -/
def Obligations.SwapAtFrameStart : Prop :=
  ∀ s t : State, MachineOk s → s.armed = true → step s = .next t → t.front ≠ s.front →
    t.frameStart = t.cnt ∧ t.cnt = s.cnt + 1 ∧ s.swapReq = true ∧ t.swapReq = false

/-! ### Stores in any order -/

/-- R91, R94, R95. The three channel stores of `FB.SET x, y, p`, in any order, leave `p` in the slot and every other slot
as it was; then `FB.GET x, y` returns `p`, all 24 bits. -/
def Obligations.FbSetAnyOrder : Prop :=
  ∀ (c : Cfg) (x y : Nat) (p : Pixel) (s : State) (l : List Instr),
    ready c s → x < c.w → y < c.h → l.Perm (rowStores y x [p]) →
      ∃ t, runAll l s = .next t ∧ { t with fb0 := s.fb0, fb1 := s.fb1 } = s ∧
        (∀ b a, readPixel t b a
          = if b = (c.doubleBuffer && !s.front) ∧ a = y * c.w + x then p else readPixel s b a) ∧
        exec (.fbGet x y) t = .next { t with response := .pixel p }

/-- R191. The stores of a row, down to single channels and in any order, leave the row in its slots and every other slot of
either buffer as it was. -/
def Obligations.WriterowAnyOrder : Prop :=
  ∀ (c : Cfg) (y : Nat) (row : List Pixel) (s : State) (l : List Instr),
    ready c s → y < c.h → row.length = c.w → l.Perm (rowStores y 0 row) →
      ∃ t, runAll l s = .next t ∧ { t with fb0 := s.fb0, fb1 := s.fb1 } = s ∧
        (∀ x p, row[x]? = some p → readPixel t (c.doubleBuffer && !s.front) (y * c.w + x) = p) ∧
        ∀ b a, b ≠ (c.doubleBuffer && !s.front) ∨ a < y * c.w ∨ (y + 1) * c.w ≤ a → readPixel t b a = readPixel s b a

/-- R64, R93, R94, R91, R95. With DOUBLE_BUFFER the engine, armed or not, reads after a FB.SET or a FB.SETCH what it read
before, in every slot; the store is in the writer's buffer. A FB.SWAP while disarmed shows the engine that buffer at once,
so that it reads the stored pixel or channel; while armed it shows it nothing new, and then the tick of the next frame
start, and no other tick, shows it the writer's buffer. -/
def Obligations.DoubleBufferIsolates : Prop :=
  (∀ (c : Cfg) (x y : Nat) (p : Pixel) (ch : Channel) (v : Byte) (i : Instr) (s t : State),
    ready c s → c.doubleBuffer = true → x < c.w → y < c.h →
    i = .fbSet x y p ∨ i = .fbSetch x y (channelCode ch) v → exec i s = .next t →
      engineSees c t (readPixel s s.front) ∧
      (i = .fbSet x y p → c.pixelWriteAtomic = true → readPixel t (!t.front) (y * c.w + x) = p) ∧
      (i = .fbSetch x y (channelCode ch) v → readChannel t (!t.front) (y * c.w + x) ch = v) ∧
      ∀ u, s.armed = false → exec .fbSwap t = .next u →
        (i = .fbSet x y p → c.pixelWriteAtomic = true →
          exec (.fbGetu x y) { u with busy := true } = .next { u with busy := true, response := .pixel p }) ∧
        (i = .fbSetch x y (channelCode ch) v → ∃ q : Pixel, q.get ch = v ∧
          exec (.fbGetu x y) { u with busy := true } = .next { u with busy := true, response := .pixel q })) ∧
  (∀ (c : Cfg) (s t : State), ready c s → c.doubleBuffer = true → exec .fbSwap s = .next t →
    (s.armed = false → engineSees c t (readPixel s (!s.front))) ∧
    (s.armed = true → t.swapReq = true ∧ engineSees c t (readPixel s s.front))) ∧
  ∀ (c : Cfg) (s t : State), MachineOk s → s.armed = true → s.md = some c → c.doubleBuffer = true →
    exec .schTick s = .next t →
      (t.frameStart = t.cnt → s.swapReq = true → t.swapReq = false ∧ engineSees c t (readPixel s (!s.front))) ∧
      (t.frameStart ≠ t.cnt ∨ s.swapReq = false → t.swapReq = s.swapReq ∧ engineSees c t (readPixel s s.front))
end

