-- ==== Sys2Proof/Laws/State.lean ====
section
/-! SUPPORT. One lemma per field per update of State: what each of the plain updates leaves unchanged, and what
it writes. -/

namespace Sys2Proof.Machine


/-! ### State.setBuffer -/

@[simp] theorem setBuffer_fast (s : State) (b : Bool) (fb : Framebuffer) : (s.setBuffer b fb).fast = s.fast := by cases b <;> rfl
@[simp] theorem setBuffer_slow (s : State) (b : Bool) (fb : Framebuffer) : (s.setBuffer b fb).slow = s.slow := by cases b <;> rfl
@[simp] theorem setBuffer_pix (s : State) (b : Bool) (fb : Framebuffer) : (s.setBuffer b fb).pix = s.pix := by cases b <;> rfl
@[simp] theorem setBuffer_vcnt (s : State) (b : Bool) (fb : Framebuffer) : (s.setBuffer b fb).vcnt = s.vcnt := by cases b <;> rfl
@[simp] theorem setBuffer_hPhase (s : State) (b : Bool) (fb : Framebuffer) : (s.setBuffer b fb).hPhase = s.hPhase := by cases b <;> rfl
@[simp] theorem setBuffer_vPhase (s : State) (b : Bool) (fb : Framebuffer) : (s.setBuffer b fb).vPhase = s.vPhase := by cases b <;> rfl
@[simp] theorem setBuffer_alarmH (s : State) (b : Bool) (fb : Framebuffer) : (s.setBuffer b fb).alarmH = s.alarmH := by cases b <;> rfl
@[simp] theorem setBuffer_alarmV (s : State) (b : Bool) (fb : Framebuffer) : (s.setBuffer b fb).alarmV = s.alarmV := by cases b <;> rfl
@[simp] theorem setBuffer_armed (s : State) (b : Bool) (fb : Framebuffer) : (s.setBuffer b fb).armed = s.armed := by cases b <;> rfl
@[simp] theorem setBuffer_fault (s : State) (b : Bool) (fb : Framebuffer) : (s.setBuffer b fb).fault = s.fault := by cases b <;> rfl
@[simp] theorem setBuffer_gpio (s : State) (b : Bool) (fb : Framebuffer) : (s.setBuffer b fb).gpio = s.gpio := by cases b <;> rfl
@[simp] theorem setBuffer_md (s : State) (b : Bool) (fb : Framebuffer) : (s.setBuffer b fb).md = s.md := by cases b <;> rfl
@[simp] theorem setBuffer_cnt (s : State) (b : Bool) (fb : Framebuffer) : (s.setBuffer b fb).cnt = s.cnt := by cases b <;> rfl
@[simp] theorem setBuffer_frameStart (s : State) (b : Bool) (fb : Framebuffer) : (s.setBuffer b fb).frameStart = s.frameStart := by cases b <;> rfl
@[simp] theorem setBuffer_lineStart (s : State) (b : Bool) (fb : Framebuffer) : (s.setBuffer b fb).lineStart = s.lineStart := by cases b <;> rfl
@[simp] theorem setBuffer_dac (s : State) (b : Bool) (fb : Framebuffer) : (s.setBuffer b fb).dac = s.dac := by cases b <;> rfl
@[simp] theorem setBuffer_front (s : State) (b : Bool) (fb : Framebuffer) : (s.setBuffer b fb).front = s.front := by cases b <;> rfl
@[simp] theorem setBuffer_swapReq (s : State) (b : Bool) (fb : Framebuffer) : (s.setBuffer b fb).swapReq = s.swapReq := by cases b <;> rfl
@[simp] theorem setBuffer_busy (s : State) (b : Bool) (fb : Framebuffer) : (s.setBuffer b fb).busy = s.busy := by cases b <;> rfl
@[simp] theorem setBuffer_trace (s : State) (b : Bool) (fb : Framebuffer) : (s.setBuffer b fb).trace = s.trace := by cases b <;> rfl
@[simp] theorem setBuffer_spin (s : State) (b : Bool) (fb : Framebuffer) : (s.setBuffer b fb).spin = s.spin := by cases b <;> rfl
@[simp] theorem setBuffer_script (s : State) (b : Bool) (fb : Framebuffer) : (s.setBuffer b fb).script = s.script := by cases b <;> rfl
@[simp] theorem setBuffer_work (s : State) (b : Bool) (fb : Framebuffer) : (s.setBuffer b fb).work = s.work := by cases b <;> rfl
@[simp] theorem setBuffer_choices (s : State) (b : Bool) (fb : Framebuffer) : (s.setBuffer b fb).choices = s.choices := by cases b <;> rfl
@[simp] theorem setBuffer_outcomes (s : State) (b : Bool) (fb : Framebuffer) : (s.setBuffer b fb).outcomes = s.outcomes := by cases b <;> rfl
@[simp] theorem setBuffer_nfree (s : State) (b : Bool) (fb : Framebuffer) : (s.setBuffer b fb).nfree = s.nfree := by cases b <;> rfl
@[simp] theorem setBuffer_alloc (s : State) (b : Bool) (fb : Framebuffer) : (s.setBuffer b fb).alloc = s.alloc := by cases b <;> rfl
@[simp] theorem setBuffer_response (s : State) (b : Bool) (fb : Framebuffer) : (s.setBuffer b fb).response = s.response := by cases b <;> rfl

/-! ### State.setAlarmRec -/

@[simp] theorem setAlarmRec_fast (s : State) (a : Axis) (r : Alarm) : (s.setAlarmRec a r).fast = s.fast := by cases a <;> rfl
@[simp] theorem setAlarmRec_slow (s : State) (a : Axis) (r : Alarm) : (s.setAlarmRec a r).slow = s.slow := by cases a <;> rfl
@[simp] theorem setAlarmRec_pix (s : State) (a : Axis) (r : Alarm) : (s.setAlarmRec a r).pix = s.pix := by cases a <;> rfl
@[simp] theorem setAlarmRec_vcnt (s : State) (a : Axis) (r : Alarm) : (s.setAlarmRec a r).vcnt = s.vcnt := by cases a <;> rfl
@[simp] theorem setAlarmRec_hPhase (s : State) (a : Axis) (r : Alarm) : (s.setAlarmRec a r).hPhase = s.hPhase := by cases a <;> rfl
@[simp] theorem setAlarmRec_vPhase (s : State) (a : Axis) (r : Alarm) : (s.setAlarmRec a r).vPhase = s.vPhase := by cases a <;> rfl
@[simp] theorem setAlarmRec_armed (s : State) (a : Axis) (r : Alarm) : (s.setAlarmRec a r).armed = s.armed := by cases a <;> rfl
@[simp] theorem setAlarmRec_fault (s : State) (a : Axis) (r : Alarm) : (s.setAlarmRec a r).fault = s.fault := by cases a <;> rfl
@[simp] theorem setAlarmRec_gpio (s : State) (a : Axis) (r : Alarm) : (s.setAlarmRec a r).gpio = s.gpio := by cases a <;> rfl
@[simp] theorem setAlarmRec_md (s : State) (a : Axis) (r : Alarm) : (s.setAlarmRec a r).md = s.md := by cases a <;> rfl
@[simp] theorem setAlarmRec_cnt (s : State) (a : Axis) (r : Alarm) : (s.setAlarmRec a r).cnt = s.cnt := by cases a <;> rfl
@[simp] theorem setAlarmRec_frameStart (s : State) (a : Axis) (r : Alarm) : (s.setAlarmRec a r).frameStart = s.frameStart := by cases a <;> rfl
@[simp] theorem setAlarmRec_lineStart (s : State) (a : Axis) (r : Alarm) : (s.setAlarmRec a r).lineStart = s.lineStart := by cases a <;> rfl
@[simp] theorem setAlarmRec_dac (s : State) (a : Axis) (r : Alarm) : (s.setAlarmRec a r).dac = s.dac := by cases a <;> rfl
@[simp] theorem setAlarmRec_fb0 (s : State) (a : Axis) (r : Alarm) : (s.setAlarmRec a r).fb0 = s.fb0 := by cases a <;> rfl
@[simp] theorem setAlarmRec_fb1 (s : State) (a : Axis) (r : Alarm) : (s.setAlarmRec a r).fb1 = s.fb1 := by cases a <;> rfl
@[simp] theorem setAlarmRec_front (s : State) (a : Axis) (r : Alarm) : (s.setAlarmRec a r).front = s.front := by cases a <;> rfl
@[simp] theorem setAlarmRec_swapReq (s : State) (a : Axis) (r : Alarm) : (s.setAlarmRec a r).swapReq = s.swapReq := by cases a <;> rfl
@[simp] theorem setAlarmRec_busy (s : State) (a : Axis) (r : Alarm) : (s.setAlarmRec a r).busy = s.busy := by cases a <;> rfl
@[simp] theorem setAlarmRec_trace (s : State) (a : Axis) (r : Alarm) : (s.setAlarmRec a r).trace = s.trace := by cases a <;> rfl
@[simp] theorem setAlarmRec_spin (s : State) (a : Axis) (r : Alarm) : (s.setAlarmRec a r).spin = s.spin := by cases a <;> rfl
@[simp] theorem setAlarmRec_script (s : State) (a : Axis) (r : Alarm) : (s.setAlarmRec a r).script = s.script := by cases a <;> rfl
@[simp] theorem setAlarmRec_work (s : State) (a : Axis) (r : Alarm) : (s.setAlarmRec a r).work = s.work := by cases a <;> rfl
@[simp] theorem setAlarmRec_choices (s : State) (a : Axis) (r : Alarm) : (s.setAlarmRec a r).choices = s.choices := by cases a <;> rfl
@[simp] theorem setAlarmRec_outcomes (s : State) (a : Axis) (r : Alarm) : (s.setAlarmRec a r).outcomes = s.outcomes := by cases a <;> rfl
@[simp] theorem setAlarmRec_nfree (s : State) (a : Axis) (r : Alarm) : (s.setAlarmRec a r).nfree = s.nfree := by cases a <;> rfl
@[simp] theorem setAlarmRec_alloc (s : State) (a : Axis) (r : Alarm) : (s.setAlarmRec a r).alloc = s.alloc := by cases a <;> rfl
@[simp] theorem setAlarmRec_response (s : State) (a : Axis) (r : Alarm) : (s.setAlarmRec a r).response = s.response := by cases a <;> rfl
@[simp] theorem setAlarmRec_H_alarmH (s : State) (r : Alarm) : (s.setAlarmRec .H r).alarmH = r := rfl
@[simp] theorem setAlarmRec_H_alarmV (s : State) (r : Alarm) : (s.setAlarmRec .H r).alarmV = s.alarmV := rfl
@[simp] theorem setAlarmRec_V_alarmH (s : State) (r : Alarm) : (s.setAlarmRec .V r).alarmH = s.alarmH := rfl
@[simp] theorem setAlarmRec_V_alarmV (s : State) (r : Alarm) : (s.setAlarmRec .V r).alarmV = r := rfl
@[simp] theorem alarm_H (s : State) : s.alarm .H = s.alarmH := rfl
@[simp] theorem alarm_V (s : State) : s.alarm .V = s.alarmV := rfl

/-! ### refuse -/

@[simp] theorem refuse_fast (r : Reason) (s : State) : (refuse r s).fast = s.fast := rfl
@[simp] theorem refuse_slow (r : Reason) (s : State) : (refuse r s).slow = s.slow := rfl
@[simp] theorem refuse_pix (r : Reason) (s : State) : (refuse r s).pix = s.pix := rfl
@[simp] theorem refuse_vcnt (r : Reason) (s : State) : (refuse r s).vcnt = s.vcnt := rfl
@[simp] theorem refuse_hPhase (r : Reason) (s : State) : (refuse r s).hPhase = s.hPhase := rfl
@[simp] theorem refuse_vPhase (r : Reason) (s : State) : (refuse r s).vPhase = s.vPhase := rfl
@[simp] theorem refuse_alarmH (r : Reason) (s : State) : (refuse r s).alarmH = s.alarmH := rfl
@[simp] theorem refuse_alarmV (r : Reason) (s : State) : (refuse r s).alarmV = s.alarmV := rfl
@[simp] theorem refuse_armed (r : Reason) (s : State) : (refuse r s).armed = s.armed := rfl
@[simp] theorem refuse_fault (r : Reason) (s : State) : (refuse r s).fault = s.fault := rfl
@[simp] theorem refuse_gpio (r : Reason) (s : State) : (refuse r s).gpio = s.gpio := rfl
@[simp] theorem refuse_md (r : Reason) (s : State) : (refuse r s).md = s.md := rfl
@[simp] theorem refuse_cnt (r : Reason) (s : State) : (refuse r s).cnt = s.cnt := rfl
@[simp] theorem refuse_frameStart (r : Reason) (s : State) : (refuse r s).frameStart = s.frameStart := rfl
@[simp] theorem refuse_lineStart (r : Reason) (s : State) : (refuse r s).lineStart = s.lineStart := rfl
@[simp] theorem refuse_dac (r : Reason) (s : State) : (refuse r s).dac = s.dac := rfl
@[simp] theorem refuse_fb0 (r : Reason) (s : State) : (refuse r s).fb0 = s.fb0 := rfl
@[simp] theorem refuse_fb1 (r : Reason) (s : State) : (refuse r s).fb1 = s.fb1 := rfl
@[simp] theorem refuse_front (r : Reason) (s : State) : (refuse r s).front = s.front := rfl
@[simp] theorem refuse_swapReq (r : Reason) (s : State) : (refuse r s).swapReq = s.swapReq := rfl
@[simp] theorem refuse_busy (r : Reason) (s : State) : (refuse r s).busy = s.busy := rfl
@[simp] theorem refuse_trace (r : Reason) (s : State) : (refuse r s).trace = s.trace := rfl
@[simp] theorem refuse_spin (r : Reason) (s : State) : (refuse r s).spin = s.spin := rfl
@[simp] theorem refuse_script (r : Reason) (s : State) : (refuse r s).script = s.script := rfl
@[simp] theorem refuse_work (r : Reason) (s : State) : (refuse r s).work = s.work := rfl
@[simp] theorem refuse_choices (r : Reason) (s : State) : (refuse r s).choices = s.choices := rfl
@[simp] theorem refuse_outcomes (r : Reason) (s : State) : (refuse r s).outcomes = s.outcomes := rfl
@[simp] theorem refuse_nfree (r : Reason) (s : State) : (refuse r s).nfree = s.nfree := rfl
@[simp] theorem refuse_alloc (r : Reason) (s : State) : (refuse r s).alloc = s.alloc := rfl
@[simp] theorem refuse_response (r : Reason) (s : State) : (refuse r s).response = .refused r := rfl

/-! ### setFault -/

@[simp] theorem setFault_fast (f : FaultCode) (s : State) : (setFault f s).fast = s.fast := rfl
@[simp] theorem setFault_slow (f : FaultCode) (s : State) : (setFault f s).slow = s.slow := rfl
@[simp] theorem setFault_pix (f : FaultCode) (s : State) : (setFault f s).pix = s.pix := rfl
@[simp] theorem setFault_vcnt (f : FaultCode) (s : State) : (setFault f s).vcnt = s.vcnt := rfl
@[simp] theorem setFault_hPhase (f : FaultCode) (s : State) : (setFault f s).hPhase = s.hPhase := rfl
@[simp] theorem setFault_vPhase (f : FaultCode) (s : State) : (setFault f s).vPhase = s.vPhase := rfl
@[simp] theorem setFault_alarmH (f : FaultCode) (s : State) : (setFault f s).alarmH = s.alarmH := rfl
@[simp] theorem setFault_alarmV (f : FaultCode) (s : State) : (setFault f s).alarmV = s.alarmV := rfl
@[simp] theorem setFault_armed (f : FaultCode) (s : State) : (setFault f s).armed = s.armed := rfl
@[simp] theorem setFault_gpio (f : FaultCode) (s : State) : (setFault f s).gpio = s.gpio := rfl
@[simp] theorem setFault_md (f : FaultCode) (s : State) : (setFault f s).md = s.md := rfl
@[simp] theorem setFault_cnt (f : FaultCode) (s : State) : (setFault f s).cnt = s.cnt := rfl
@[simp] theorem setFault_frameStart (f : FaultCode) (s : State) : (setFault f s).frameStart = s.frameStart := rfl
@[simp] theorem setFault_lineStart (f : FaultCode) (s : State) : (setFault f s).lineStart = s.lineStart := rfl
@[simp] theorem setFault_dac (f : FaultCode) (s : State) : (setFault f s).dac = s.dac := rfl
@[simp] theorem setFault_fb0 (f : FaultCode) (s : State) : (setFault f s).fb0 = s.fb0 := rfl
@[simp] theorem setFault_fb1 (f : FaultCode) (s : State) : (setFault f s).fb1 = s.fb1 := rfl
@[simp] theorem setFault_front (f : FaultCode) (s : State) : (setFault f s).front = s.front := rfl
@[simp] theorem setFault_swapReq (f : FaultCode) (s : State) : (setFault f s).swapReq = s.swapReq := rfl
@[simp] theorem setFault_busy (f : FaultCode) (s : State) : (setFault f s).busy = s.busy := rfl
@[simp] theorem setFault_trace (f : FaultCode) (s : State) : (setFault f s).trace = s.trace := rfl
@[simp] theorem setFault_spin (f : FaultCode) (s : State) : (setFault f s).spin = s.spin := rfl
@[simp] theorem setFault_script (f : FaultCode) (s : State) : (setFault f s).script = s.script := rfl
@[simp] theorem setFault_work (f : FaultCode) (s : State) : (setFault f s).work = s.work := rfl
@[simp] theorem setFault_choices (f : FaultCode) (s : State) : (setFault f s).choices = s.choices := rfl
@[simp] theorem setFault_outcomes (f : FaultCode) (s : State) : (setFault f s).outcomes = s.outcomes := rfl
@[simp] theorem setFault_nfree (f : FaultCode) (s : State) : (setFault f s).nfree = s.nfree := rfl
@[simp] theorem setFault_alloc (f : FaultCode) (s : State) : (setFault f s).alloc = s.alloc := rfl
@[simp] theorem setFault_response (f : FaultCode) (s : State) : (setFault f s).response = s.response := rfl

/-! ### raiseNormal -/

@[simp] theorem raiseNormal_fast (f : FaultCode) (s : State) : (raiseNormal f s).fast = s.fast := rfl
@[simp] theorem raiseNormal_slow (f : FaultCode) (s : State) : (raiseNormal f s).slow = s.slow := rfl
@[simp] theorem raiseNormal_pix (f : FaultCode) (s : State) : (raiseNormal f s).pix = s.pix := rfl
@[simp] theorem raiseNormal_vcnt (f : FaultCode) (s : State) : (raiseNormal f s).vcnt = s.vcnt := rfl
@[simp] theorem raiseNormal_hPhase (f : FaultCode) (s : State) : (raiseNormal f s).hPhase = s.hPhase := rfl
@[simp] theorem raiseNormal_vPhase (f : FaultCode) (s : State) : (raiseNormal f s).vPhase = s.vPhase := rfl
@[simp] theorem raiseNormal_alarmH (f : FaultCode) (s : State) : (raiseNormal f s).alarmH = s.alarmH := rfl
@[simp] theorem raiseNormal_alarmV (f : FaultCode) (s : State) : (raiseNormal f s).alarmV = s.alarmV := rfl
@[simp] theorem raiseNormal_armed (f : FaultCode) (s : State) : (raiseNormal f s).armed = s.armed := rfl
@[simp] theorem raiseNormal_gpio (f : FaultCode) (s : State) : (raiseNormal f s).gpio = s.gpio := rfl
@[simp] theorem raiseNormal_md (f : FaultCode) (s : State) : (raiseNormal f s).md = s.md := rfl
@[simp] theorem raiseNormal_cnt (f : FaultCode) (s : State) : (raiseNormal f s).cnt = s.cnt := rfl
@[simp] theorem raiseNormal_frameStart (f : FaultCode) (s : State) : (raiseNormal f s).frameStart = s.frameStart := rfl
@[simp] theorem raiseNormal_lineStart (f : FaultCode) (s : State) : (raiseNormal f s).lineStart = s.lineStart := rfl
@[simp] theorem raiseNormal_dac (f : FaultCode) (s : State) : (raiseNormal f s).dac = s.dac := rfl
@[simp] theorem raiseNormal_fb0 (f : FaultCode) (s : State) : (raiseNormal f s).fb0 = s.fb0 := rfl
@[simp] theorem raiseNormal_fb1 (f : FaultCode) (s : State) : (raiseNormal f s).fb1 = s.fb1 := rfl
@[simp] theorem raiseNormal_front (f : FaultCode) (s : State) : (raiseNormal f s).front = s.front := rfl
@[simp] theorem raiseNormal_swapReq (f : FaultCode) (s : State) : (raiseNormal f s).swapReq = s.swapReq := rfl
@[simp] theorem raiseNormal_busy (f : FaultCode) (s : State) : (raiseNormal f s).busy = s.busy := rfl
@[simp] theorem raiseNormal_trace (f : FaultCode) (s : State) : (raiseNormal f s).trace = s.trace := rfl
@[simp] theorem raiseNormal_spin (f : FaultCode) (s : State) : (raiseNormal f s).spin = s.spin := rfl
@[simp] theorem raiseNormal_script (f : FaultCode) (s : State) : (raiseNormal f s).script = s.script := rfl
@[simp] theorem raiseNormal_choices (f : FaultCode) (s : State) : (raiseNormal f s).choices = s.choices := rfl
@[simp] theorem raiseNormal_outcomes (f : FaultCode) (s : State) : (raiseNormal f s).outcomes = s.outcomes := rfl
@[simp] theorem raiseNormal_nfree (f : FaultCode) (s : State) : (raiseNormal f s).nfree = s.nfree := rfl
@[simp] theorem raiseNormal_alloc (f : FaultCode) (s : State) : (raiseNormal f s).alloc = s.alloc := rfl

/-! ### raiseInterrupt -/

@[simp] theorem raiseInterrupt_fast (f : FaultCode) (s : State) : (raiseInterrupt f s).fast = s.fast := rfl
@[simp] theorem raiseInterrupt_slow (f : FaultCode) (s : State) : (raiseInterrupt f s).slow = s.slow := rfl
@[simp] theorem raiseInterrupt_pix (f : FaultCode) (s : State) : (raiseInterrupt f s).pix = s.pix := rfl
@[simp] theorem raiseInterrupt_vcnt (f : FaultCode) (s : State) : (raiseInterrupt f s).vcnt = s.vcnt := rfl
@[simp] theorem raiseInterrupt_hPhase (f : FaultCode) (s : State) : (raiseInterrupt f s).hPhase = s.hPhase := rfl
@[simp] theorem raiseInterrupt_vPhase (f : FaultCode) (s : State) : (raiseInterrupt f s).vPhase = s.vPhase := rfl
@[simp] theorem raiseInterrupt_gpio (f : FaultCode) (s : State) : (raiseInterrupt f s).gpio = s.gpio := rfl
@[simp] theorem raiseInterrupt_md (f : FaultCode) (s : State) : (raiseInterrupt f s).md = s.md := rfl
@[simp] theorem raiseInterrupt_cnt (f : FaultCode) (s : State) : (raiseInterrupt f s).cnt = s.cnt := rfl
@[simp] theorem raiseInterrupt_frameStart (f : FaultCode) (s : State) : (raiseInterrupt f s).frameStart = s.frameStart := rfl
@[simp] theorem raiseInterrupt_lineStart (f : FaultCode) (s : State) : (raiseInterrupt f s).lineStart = s.lineStart := rfl
@[simp] theorem raiseInterrupt_dac (f : FaultCode) (s : State) : (raiseInterrupt f s).dac = s.dac := rfl
@[simp] theorem raiseInterrupt_fb0 (f : FaultCode) (s : State) : (raiseInterrupt f s).fb0 = s.fb0 := rfl
@[simp] theorem raiseInterrupt_fb1 (f : FaultCode) (s : State) : (raiseInterrupt f s).fb1 = s.fb1 := rfl
@[simp] theorem raiseInterrupt_front (f : FaultCode) (s : State) : (raiseInterrupt f s).front = s.front := rfl
@[simp] theorem raiseInterrupt_swapReq (f : FaultCode) (s : State) : (raiseInterrupt f s).swapReq = s.swapReq := rfl
@[simp] theorem raiseInterrupt_busy (f : FaultCode) (s : State) : (raiseInterrupt f s).busy = s.busy := rfl
@[simp] theorem raiseInterrupt_trace (f : FaultCode) (s : State) : (raiseInterrupt f s).trace = s.trace := rfl
@[simp] theorem raiseInterrupt_spin (f : FaultCode) (s : State) : (raiseInterrupt f s).spin = s.spin := rfl
@[simp] theorem raiseInterrupt_script (f : FaultCode) (s : State) : (raiseInterrupt f s).script = s.script := rfl
@[simp] theorem raiseInterrupt_work (f : FaultCode) (s : State) : (raiseInterrupt f s).work = s.work := rfl
@[simp] theorem raiseInterrupt_choices (f : FaultCode) (s : State) : (raiseInterrupt f s).choices = s.choices := rfl
@[simp] theorem raiseInterrupt_outcomes (f : FaultCode) (s : State) : (raiseInterrupt f s).outcomes = s.outcomes := rfl
@[simp] theorem raiseInterrupt_nfree (f : FaultCode) (s : State) : (raiseInterrupt f s).nfree = s.nfree := rfl
@[simp] theorem raiseInterrupt_alloc (f : FaultCode) (s : State) : (raiseInterrupt f s).alloc = s.alloc := rfl

/-! ### pinSetOp -/

@[simp] theorem pinSetOp_fast (ps : List Nat) (s : State) : (pinSetOp ps s).fast = s.fast := rfl
@[simp] theorem pinSetOp_slow (ps : List Nat) (s : State) : (pinSetOp ps s).slow = s.slow := rfl
@[simp] theorem pinSetOp_pix (ps : List Nat) (s : State) : (pinSetOp ps s).pix = s.pix := rfl
@[simp] theorem pinSetOp_vcnt (ps : List Nat) (s : State) : (pinSetOp ps s).vcnt = s.vcnt := rfl
@[simp] theorem pinSetOp_hPhase (ps : List Nat) (s : State) : (pinSetOp ps s).hPhase = s.hPhase := rfl
@[simp] theorem pinSetOp_vPhase (ps : List Nat) (s : State) : (pinSetOp ps s).vPhase = s.vPhase := rfl
@[simp] theorem pinSetOp_alarmH (ps : List Nat) (s : State) : (pinSetOp ps s).alarmH = s.alarmH := rfl
@[simp] theorem pinSetOp_alarmV (ps : List Nat) (s : State) : (pinSetOp ps s).alarmV = s.alarmV := rfl
@[simp] theorem pinSetOp_armed (ps : List Nat) (s : State) : (pinSetOp ps s).armed = s.armed := rfl
@[simp] theorem pinSetOp_fault (ps : List Nat) (s : State) : (pinSetOp ps s).fault = s.fault := rfl
@[simp] theorem pinSetOp_md (ps : List Nat) (s : State) : (pinSetOp ps s).md = s.md := rfl
@[simp] theorem pinSetOp_cnt (ps : List Nat) (s : State) : (pinSetOp ps s).cnt = s.cnt := rfl
@[simp] theorem pinSetOp_frameStart (ps : List Nat) (s : State) : (pinSetOp ps s).frameStart = s.frameStart := rfl
@[simp] theorem pinSetOp_lineStart (ps : List Nat) (s : State) : (pinSetOp ps s).lineStart = s.lineStart := rfl
@[simp] theorem pinSetOp_dac (ps : List Nat) (s : State) : (pinSetOp ps s).dac = s.dac := rfl
@[simp] theorem pinSetOp_fb0 (ps : List Nat) (s : State) : (pinSetOp ps s).fb0 = s.fb0 := rfl
@[simp] theorem pinSetOp_fb1 (ps : List Nat) (s : State) : (pinSetOp ps s).fb1 = s.fb1 := rfl
@[simp] theorem pinSetOp_front (ps : List Nat) (s : State) : (pinSetOp ps s).front = s.front := rfl
@[simp] theorem pinSetOp_swapReq (ps : List Nat) (s : State) : (pinSetOp ps s).swapReq = s.swapReq := rfl
@[simp] theorem pinSetOp_busy (ps : List Nat) (s : State) : (pinSetOp ps s).busy = s.busy := rfl
@[simp] theorem pinSetOp_spin (ps : List Nat) (s : State) : (pinSetOp ps s).spin = s.spin := rfl
@[simp] theorem pinSetOp_script (ps : List Nat) (s : State) : (pinSetOp ps s).script = s.script := rfl
@[simp] theorem pinSetOp_work (ps : List Nat) (s : State) : (pinSetOp ps s).work = s.work := rfl
@[simp] theorem pinSetOp_choices (ps : List Nat) (s : State) : (pinSetOp ps s).choices = s.choices := rfl
@[simp] theorem pinSetOp_outcomes (ps : List Nat) (s : State) : (pinSetOp ps s).outcomes = s.outcomes := rfl
@[simp] theorem pinSetOp_nfree (ps : List Nat) (s : State) : (pinSetOp ps s).nfree = s.nfree := rfl
@[simp] theorem pinSetOp_alloc (ps : List Nat) (s : State) : (pinSetOp ps s).alloc = s.alloc := rfl
@[simp] theorem pinSetOp_response (ps : List Nat) (s : State) : (pinSetOp ps s).response = s.response := rfl
@[simp] theorem pinSetOp_trace (ps : List Nat) (s : State) : (pinSetOp ps s).trace = s.trace ++ [⟨s.cnt, .set, ps⟩] := rfl

/-! ### pinClearOp -/

@[simp] theorem pinClearOp_fast (ps : List Nat) (s : State) : (pinClearOp ps s).fast = s.fast := rfl
@[simp] theorem pinClearOp_slow (ps : List Nat) (s : State) : (pinClearOp ps s).slow = s.slow := rfl
@[simp] theorem pinClearOp_pix (ps : List Nat) (s : State) : (pinClearOp ps s).pix = s.pix := rfl
@[simp] theorem pinClearOp_vcnt (ps : List Nat) (s : State) : (pinClearOp ps s).vcnt = s.vcnt := rfl
@[simp] theorem pinClearOp_hPhase (ps : List Nat) (s : State) : (pinClearOp ps s).hPhase = s.hPhase := rfl
@[simp] theorem pinClearOp_vPhase (ps : List Nat) (s : State) : (pinClearOp ps s).vPhase = s.vPhase := rfl
@[simp] theorem pinClearOp_alarmH (ps : List Nat) (s : State) : (pinClearOp ps s).alarmH = s.alarmH := rfl
@[simp] theorem pinClearOp_alarmV (ps : List Nat) (s : State) : (pinClearOp ps s).alarmV = s.alarmV := rfl
@[simp] theorem pinClearOp_armed (ps : List Nat) (s : State) : (pinClearOp ps s).armed = s.armed := rfl
@[simp] theorem pinClearOp_fault (ps : List Nat) (s : State) : (pinClearOp ps s).fault = s.fault := rfl
@[simp] theorem pinClearOp_md (ps : List Nat) (s : State) : (pinClearOp ps s).md = s.md := rfl
@[simp] theorem pinClearOp_cnt (ps : List Nat) (s : State) : (pinClearOp ps s).cnt = s.cnt := rfl
@[simp] theorem pinClearOp_frameStart (ps : List Nat) (s : State) : (pinClearOp ps s).frameStart = s.frameStart := rfl
@[simp] theorem pinClearOp_lineStart (ps : List Nat) (s : State) : (pinClearOp ps s).lineStart = s.lineStart := rfl
@[simp] theorem pinClearOp_dac (ps : List Nat) (s : State) : (pinClearOp ps s).dac = s.dac := rfl
@[simp] theorem pinClearOp_fb0 (ps : List Nat) (s : State) : (pinClearOp ps s).fb0 = s.fb0 := rfl
@[simp] theorem pinClearOp_fb1 (ps : List Nat) (s : State) : (pinClearOp ps s).fb1 = s.fb1 := rfl
@[simp] theorem pinClearOp_front (ps : List Nat) (s : State) : (pinClearOp ps s).front = s.front := rfl
@[simp] theorem pinClearOp_swapReq (ps : List Nat) (s : State) : (pinClearOp ps s).swapReq = s.swapReq := rfl
@[simp] theorem pinClearOp_busy (ps : List Nat) (s : State) : (pinClearOp ps s).busy = s.busy := rfl
@[simp] theorem pinClearOp_spin (ps : List Nat) (s : State) : (pinClearOp ps s).spin = s.spin := rfl
@[simp] theorem pinClearOp_script (ps : List Nat) (s : State) : (pinClearOp ps s).script = s.script := rfl
@[simp] theorem pinClearOp_work (ps : List Nat) (s : State) : (pinClearOp ps s).work = s.work := rfl
@[simp] theorem pinClearOp_choices (ps : List Nat) (s : State) : (pinClearOp ps s).choices = s.choices := rfl
@[simp] theorem pinClearOp_outcomes (ps : List Nat) (s : State) : (pinClearOp ps s).outcomes = s.outcomes := rfl
@[simp] theorem pinClearOp_nfree (ps : List Nat) (s : State) : (pinClearOp ps s).nfree = s.nfree := rfl
@[simp] theorem pinClearOp_alloc (ps : List Nat) (s : State) : (pinClearOp ps s).alloc = s.alloc := rfl
@[simp] theorem pinClearOp_response (ps : List Nat) (s : State) : (pinClearOp ps s).response = s.response := rfl
@[simp] theorem pinClearOp_trace (ps : List Nat) (s : State) : (pinClearOp ps s).trace = s.trace ++ [⟨s.cnt, .clear, ps⟩] := rfl

/-! ### storeChannel -/

@[simp] theorem storeChannel_fast (b : Bool) (a : Nat) (ch : Channel) (v : Byte) (s : State) : (storeChannel b a ch v s).fast = s.fast := by cases b <;> rfl
@[simp] theorem storeChannel_slow (b : Bool) (a : Nat) (ch : Channel) (v : Byte) (s : State) : (storeChannel b a ch v s).slow = s.slow := by cases b <;> rfl
@[simp] theorem storeChannel_pix (b : Bool) (a : Nat) (ch : Channel) (v : Byte) (s : State) : (storeChannel b a ch v s).pix = s.pix := by cases b <;> rfl
@[simp] theorem storeChannel_vcnt (b : Bool) (a : Nat) (ch : Channel) (v : Byte) (s : State) : (storeChannel b a ch v s).vcnt = s.vcnt := by cases b <;> rfl
@[simp] theorem storeChannel_hPhase (b : Bool) (a : Nat) (ch : Channel) (v : Byte) (s : State) : (storeChannel b a ch v s).hPhase = s.hPhase := by cases b <;> rfl
@[simp] theorem storeChannel_vPhase (b : Bool) (a : Nat) (ch : Channel) (v : Byte) (s : State) : (storeChannel b a ch v s).vPhase = s.vPhase := by cases b <;> rfl
@[simp] theorem storeChannel_alarmH (b : Bool) (a : Nat) (ch : Channel) (v : Byte) (s : State) : (storeChannel b a ch v s).alarmH = s.alarmH := by cases b <;> rfl
@[simp] theorem storeChannel_alarmV (b : Bool) (a : Nat) (ch : Channel) (v : Byte) (s : State) : (storeChannel b a ch v s).alarmV = s.alarmV := by cases b <;> rfl
@[simp] theorem storeChannel_armed (b : Bool) (a : Nat) (ch : Channel) (v : Byte) (s : State) : (storeChannel b a ch v s).armed = s.armed := by cases b <;> rfl
@[simp] theorem storeChannel_fault (b : Bool) (a : Nat) (ch : Channel) (v : Byte) (s : State) : (storeChannel b a ch v s).fault = s.fault := by cases b <;> rfl
@[simp] theorem storeChannel_gpio (b : Bool) (a : Nat) (ch : Channel) (v : Byte) (s : State) : (storeChannel b a ch v s).gpio = s.gpio := by cases b <;> rfl
@[simp] theorem storeChannel_md (b : Bool) (a : Nat) (ch : Channel) (v : Byte) (s : State) : (storeChannel b a ch v s).md = s.md := by cases b <;> rfl
@[simp] theorem storeChannel_cnt (b : Bool) (a : Nat) (ch : Channel) (v : Byte) (s : State) : (storeChannel b a ch v s).cnt = s.cnt := by cases b <;> rfl
@[simp] theorem storeChannel_frameStart (b : Bool) (a : Nat) (ch : Channel) (v : Byte) (s : State) : (storeChannel b a ch v s).frameStart = s.frameStart := by cases b <;> rfl
@[simp] theorem storeChannel_lineStart (b : Bool) (a : Nat) (ch : Channel) (v : Byte) (s : State) : (storeChannel b a ch v s).lineStart = s.lineStart := by cases b <;> rfl
@[simp] theorem storeChannel_dac (b : Bool) (a : Nat) (ch : Channel) (v : Byte) (s : State) : (storeChannel b a ch v s).dac = s.dac := by cases b <;> rfl
@[simp] theorem storeChannel_front (b : Bool) (a : Nat) (ch : Channel) (v : Byte) (s : State) : (storeChannel b a ch v s).front = s.front := by cases b <;> rfl
@[simp] theorem storeChannel_swapReq (b : Bool) (a : Nat) (ch : Channel) (v : Byte) (s : State) : (storeChannel b a ch v s).swapReq = s.swapReq := by cases b <;> rfl
@[simp] theorem storeChannel_busy (b : Bool) (a : Nat) (ch : Channel) (v : Byte) (s : State) : (storeChannel b a ch v s).busy = s.busy := by cases b <;> rfl
@[simp] theorem storeChannel_trace (b : Bool) (a : Nat) (ch : Channel) (v : Byte) (s : State) : (storeChannel b a ch v s).trace = s.trace := by cases b <;> rfl
@[simp] theorem storeChannel_spin (b : Bool) (a : Nat) (ch : Channel) (v : Byte) (s : State) : (storeChannel b a ch v s).spin = s.spin := by cases b <;> rfl
@[simp] theorem storeChannel_script (b : Bool) (a : Nat) (ch : Channel) (v : Byte) (s : State) : (storeChannel b a ch v s).script = s.script := by cases b <;> rfl
@[simp] theorem storeChannel_work (b : Bool) (a : Nat) (ch : Channel) (v : Byte) (s : State) : (storeChannel b a ch v s).work = s.work := by cases b <;> rfl
@[simp] theorem storeChannel_choices (b : Bool) (a : Nat) (ch : Channel) (v : Byte) (s : State) : (storeChannel b a ch v s).choices = s.choices := by cases b <;> rfl
@[simp] theorem storeChannel_outcomes (b : Bool) (a : Nat) (ch : Channel) (v : Byte) (s : State) : (storeChannel b a ch v s).outcomes = s.outcomes := by cases b <;> rfl
@[simp] theorem storeChannel_nfree (b : Bool) (a : Nat) (ch : Channel) (v : Byte) (s : State) : (storeChannel b a ch v s).nfree = s.nfree := by cases b <;> rfl
@[simp] theorem storeChannel_alloc (b : Bool) (a : Nat) (ch : Channel) (v : Byte) (s : State) : (storeChannel b a ch v s).alloc = s.alloc := by cases b <;> rfl
@[simp] theorem storeChannel_response (b : Bool) (a : Nat) (ch : Channel) (v : Byte) (s : State) : (storeChannel b a ch v s).response = s.response := by cases b <;> rfl

/-! ### storePixel -/

@[simp] theorem storePixel_fast (b : Bool) (a : Nat) (p : Pixel) (s : State) : (storePixel b a p s).fast = s.fast := by cases b <;> rfl
@[simp] theorem storePixel_slow (b : Bool) (a : Nat) (p : Pixel) (s : State) : (storePixel b a p s).slow = s.slow := by cases b <;> rfl
@[simp] theorem storePixel_pix (b : Bool) (a : Nat) (p : Pixel) (s : State) : (storePixel b a p s).pix = s.pix := by cases b <;> rfl
@[simp] theorem storePixel_vcnt (b : Bool) (a : Nat) (p : Pixel) (s : State) : (storePixel b a p s).vcnt = s.vcnt := by cases b <;> rfl
@[simp] theorem storePixel_hPhase (b : Bool) (a : Nat) (p : Pixel) (s : State) : (storePixel b a p s).hPhase = s.hPhase := by cases b <;> rfl
@[simp] theorem storePixel_vPhase (b : Bool) (a : Nat) (p : Pixel) (s : State) : (storePixel b a p s).vPhase = s.vPhase := by cases b <;> rfl
@[simp] theorem storePixel_alarmH (b : Bool) (a : Nat) (p : Pixel) (s : State) : (storePixel b a p s).alarmH = s.alarmH := by cases b <;> rfl
@[simp] theorem storePixel_alarmV (b : Bool) (a : Nat) (p : Pixel) (s : State) : (storePixel b a p s).alarmV = s.alarmV := by cases b <;> rfl
@[simp] theorem storePixel_armed (b : Bool) (a : Nat) (p : Pixel) (s : State) : (storePixel b a p s).armed = s.armed := by cases b <;> rfl
@[simp] theorem storePixel_fault (b : Bool) (a : Nat) (p : Pixel) (s : State) : (storePixel b a p s).fault = s.fault := by cases b <;> rfl
@[simp] theorem storePixel_gpio (b : Bool) (a : Nat) (p : Pixel) (s : State) : (storePixel b a p s).gpio = s.gpio := by cases b <;> rfl
@[simp] theorem storePixel_md (b : Bool) (a : Nat) (p : Pixel) (s : State) : (storePixel b a p s).md = s.md := by cases b <;> rfl
@[simp] theorem storePixel_cnt (b : Bool) (a : Nat) (p : Pixel) (s : State) : (storePixel b a p s).cnt = s.cnt := by cases b <;> rfl
@[simp] theorem storePixel_frameStart (b : Bool) (a : Nat) (p : Pixel) (s : State) : (storePixel b a p s).frameStart = s.frameStart := by cases b <;> rfl
@[simp] theorem storePixel_lineStart (b : Bool) (a : Nat) (p : Pixel) (s : State) : (storePixel b a p s).lineStart = s.lineStart := by cases b <;> rfl
@[simp] theorem storePixel_dac (b : Bool) (a : Nat) (p : Pixel) (s : State) : (storePixel b a p s).dac = s.dac := by cases b <;> rfl
@[simp] theorem storePixel_front (b : Bool) (a : Nat) (p : Pixel) (s : State) : (storePixel b a p s).front = s.front := by cases b <;> rfl
@[simp] theorem storePixel_swapReq (b : Bool) (a : Nat) (p : Pixel) (s : State) : (storePixel b a p s).swapReq = s.swapReq := by cases b <;> rfl
@[simp] theorem storePixel_busy (b : Bool) (a : Nat) (p : Pixel) (s : State) : (storePixel b a p s).busy = s.busy := by cases b <;> rfl
@[simp] theorem storePixel_trace (b : Bool) (a : Nat) (p : Pixel) (s : State) : (storePixel b a p s).trace = s.trace := by cases b <;> rfl
@[simp] theorem storePixel_spin (b : Bool) (a : Nat) (p : Pixel) (s : State) : (storePixel b a p s).spin = s.spin := by cases b <;> rfl
@[simp] theorem storePixel_script (b : Bool) (a : Nat) (p : Pixel) (s : State) : (storePixel b a p s).script = s.script := by cases b <;> rfl
@[simp] theorem storePixel_work (b : Bool) (a : Nat) (p : Pixel) (s : State) : (storePixel b a p s).work = s.work := by cases b <;> rfl
@[simp] theorem storePixel_choices (b : Bool) (a : Nat) (p : Pixel) (s : State) : (storePixel b a p s).choices = s.choices := by cases b <;> rfl
@[simp] theorem storePixel_outcomes (b : Bool) (a : Nat) (p : Pixel) (s : State) : (storePixel b a p s).outcomes = s.outcomes := by cases b <;> rfl
@[simp] theorem storePixel_nfree (b : Bool) (a : Nat) (p : Pixel) (s : State) : (storePixel b a p s).nfree = s.nfree := by cases b <;> rfl
@[simp] theorem storePixel_alloc (b : Bool) (a : Nat) (p : Pixel) (s : State) : (storePixel b a p s).alloc = s.alloc := by cases b <;> rfl
@[simp] theorem storePixel_response (b : Bool) (a : Nat) (p : Pixel) (s : State) : (storePixel b a p s).response = s.response := by cases b <;> rfl

/-! ### pushGroup -/

@[simp] theorem pushGroup_fast (g : List Job) (s : State) : (pushGroup g s).fast = s.fast := rfl
@[simp] theorem pushGroup_slow (g : List Job) (s : State) : (pushGroup g s).slow = s.slow := rfl
@[simp] theorem pushGroup_pix (g : List Job) (s : State) : (pushGroup g s).pix = s.pix := rfl
@[simp] theorem pushGroup_vcnt (g : List Job) (s : State) : (pushGroup g s).vcnt = s.vcnt := rfl
@[simp] theorem pushGroup_hPhase (g : List Job) (s : State) : (pushGroup g s).hPhase = s.hPhase := rfl
@[simp] theorem pushGroup_vPhase (g : List Job) (s : State) : (pushGroup g s).vPhase = s.vPhase := rfl
@[simp] theorem pushGroup_alarmH (g : List Job) (s : State) : (pushGroup g s).alarmH = s.alarmH := rfl
@[simp] theorem pushGroup_alarmV (g : List Job) (s : State) : (pushGroup g s).alarmV = s.alarmV := rfl
@[simp] theorem pushGroup_armed (g : List Job) (s : State) : (pushGroup g s).armed = s.armed := rfl
@[simp] theorem pushGroup_fault (g : List Job) (s : State) : (pushGroup g s).fault = s.fault := rfl
@[simp] theorem pushGroup_gpio (g : List Job) (s : State) : (pushGroup g s).gpio = s.gpio := rfl
@[simp] theorem pushGroup_md (g : List Job) (s : State) : (pushGroup g s).md = s.md := rfl
@[simp] theorem pushGroup_cnt (g : List Job) (s : State) : (pushGroup g s).cnt = s.cnt := rfl
@[simp] theorem pushGroup_frameStart (g : List Job) (s : State) : (pushGroup g s).frameStart = s.frameStart := rfl
@[simp] theorem pushGroup_lineStart (g : List Job) (s : State) : (pushGroup g s).lineStart = s.lineStart := rfl
@[simp] theorem pushGroup_dac (g : List Job) (s : State) : (pushGroup g s).dac = s.dac := rfl
@[simp] theorem pushGroup_fb0 (g : List Job) (s : State) : (pushGroup g s).fb0 = s.fb0 := rfl
@[simp] theorem pushGroup_fb1 (g : List Job) (s : State) : (pushGroup g s).fb1 = s.fb1 := rfl
@[simp] theorem pushGroup_front (g : List Job) (s : State) : (pushGroup g s).front = s.front := rfl
@[simp] theorem pushGroup_swapReq (g : List Job) (s : State) : (pushGroup g s).swapReq = s.swapReq := rfl
@[simp] theorem pushGroup_busy (g : List Job) (s : State) : (pushGroup g s).busy = s.busy := rfl
@[simp] theorem pushGroup_trace (g : List Job) (s : State) : (pushGroup g s).trace = s.trace := rfl
@[simp] theorem pushGroup_spin (g : List Job) (s : State) : (pushGroup g s).spin = s.spin := rfl
@[simp] theorem pushGroup_script (g : List Job) (s : State) : (pushGroup g s).script = s.script := rfl
@[simp] theorem pushGroup_choices (g : List Job) (s : State) : (pushGroup g s).choices = s.choices := rfl
@[simp] theorem pushGroup_outcomes (g : List Job) (s : State) : (pushGroup g s).outcomes = s.outcomes := rfl
@[simp] theorem pushGroup_nfree (g : List Job) (s : State) : (pushGroup g s).nfree = s.nfree := rfl
@[simp] theorem pushGroup_alloc (g : List Job) (s : State) : (pushGroup g s).alloc = s.alloc := rfl
@[simp] theorem pushGroup_response (g : List Job) (s : State) : (pushGroup g s).response = s.response := rfl

/-! ### enterInterrupt -/

@[simp] theorem enterInterrupt_fast (a : Axis) (s : State) : (enterInterrupt a s).fast = s.fast := by cases a <;> rfl
@[simp] theorem enterInterrupt_slow (a : Axis) (s : State) : (enterInterrupt a s).slow = s.slow := by cases a <;> rfl
@[simp] theorem enterInterrupt_pix (a : Axis) (s : State) : (enterInterrupt a s).pix = s.pix := by cases a <;> rfl
@[simp] theorem enterInterrupt_vcnt (a : Axis) (s : State) : (enterInterrupt a s).vcnt = s.vcnt := by cases a <;> rfl
@[simp] theorem enterInterrupt_hPhase (a : Axis) (s : State) : (enterInterrupt a s).hPhase = s.hPhase := by cases a <;> rfl
@[simp] theorem enterInterrupt_vPhase (a : Axis) (s : State) : (enterInterrupt a s).vPhase = s.vPhase := by cases a <;> rfl
@[simp] theorem enterInterrupt_armed (a : Axis) (s : State) : (enterInterrupt a s).armed = s.armed := by cases a <;> rfl
@[simp] theorem enterInterrupt_fault (a : Axis) (s : State) : (enterInterrupt a s).fault = s.fault := by cases a <;> rfl
@[simp] theorem enterInterrupt_gpio (a : Axis) (s : State) : (enterInterrupt a s).gpio = s.gpio := by cases a <;> rfl
@[simp] theorem enterInterrupt_md (a : Axis) (s : State) : (enterInterrupt a s).md = s.md := by cases a <;> rfl
@[simp] theorem enterInterrupt_cnt (a : Axis) (s : State) : (enterInterrupt a s).cnt = s.cnt := by cases a <;> rfl
@[simp] theorem enterInterrupt_frameStart (a : Axis) (s : State) : (enterInterrupt a s).frameStart = s.frameStart := by cases a <;> rfl
@[simp] theorem enterInterrupt_lineStart (a : Axis) (s : State) : (enterInterrupt a s).lineStart = s.lineStart := by cases a <;> rfl
@[simp] theorem enterInterrupt_dac (a : Axis) (s : State) : (enterInterrupt a s).dac = s.dac := by cases a <;> rfl
@[simp] theorem enterInterrupt_fb0 (a : Axis) (s : State) : (enterInterrupt a s).fb0 = s.fb0 := by cases a <;> rfl
@[simp] theorem enterInterrupt_fb1 (a : Axis) (s : State) : (enterInterrupt a s).fb1 = s.fb1 := by cases a <;> rfl
@[simp] theorem enterInterrupt_front (a : Axis) (s : State) : (enterInterrupt a s).front = s.front := by cases a <;> rfl
@[simp] theorem enterInterrupt_swapReq (a : Axis) (s : State) : (enterInterrupt a s).swapReq = s.swapReq := by cases a <;> rfl
@[simp] theorem enterInterrupt_trace (a : Axis) (s : State) : (enterInterrupt a s).trace = s.trace := by cases a <;> rfl
@[simp] theorem enterInterrupt_script (a : Axis) (s : State) : (enterInterrupt a s).script = s.script := by cases a <;> rfl
@[simp] theorem enterInterrupt_work (a : Axis) (s : State) : (enterInterrupt a s).work = s.work := by cases a <;> rfl
@[simp] theorem enterInterrupt_choices (a : Axis) (s : State) : (enterInterrupt a s).choices = s.choices := by cases a <;> rfl
@[simp] theorem enterInterrupt_outcomes (a : Axis) (s : State) : (enterInterrupt a s).outcomes = s.outcomes := by cases a <;> rfl
@[simp] theorem enterInterrupt_nfree (a : Axis) (s : State) : (enterInterrupt a s).nfree = s.nfree := by cases a <;> rfl
@[simp] theorem enterInterrupt_alloc (a : Axis) (s : State) : (enterInterrupt a s).alloc = s.alloc := by cases a <;> rfl
@[simp] theorem enterInterrupt_response (a : Axis) (s : State) : (enterInterrupt a s).response = s.response := by cases a <;> rfl

/-! ### returnFromInterrupt -/

@[simp] theorem returnFromInterrupt_fast (s : State) : (returnFromInterrupt s).fast = s.fast := rfl
@[simp] theorem returnFromInterrupt_slow (s : State) : (returnFromInterrupt s).slow = s.slow := rfl
@[simp] theorem returnFromInterrupt_pix (s : State) : (returnFromInterrupt s).pix = s.pix := rfl
@[simp] theorem returnFromInterrupt_vcnt (s : State) : (returnFromInterrupt s).vcnt = s.vcnt := rfl
@[simp] theorem returnFromInterrupt_hPhase (s : State) : (returnFromInterrupt s).hPhase = s.hPhase := rfl
@[simp] theorem returnFromInterrupt_vPhase (s : State) : (returnFromInterrupt s).vPhase = s.vPhase := rfl
@[simp] theorem returnFromInterrupt_alarmH (s : State) : (returnFromInterrupt s).alarmH = s.alarmH := rfl
@[simp] theorem returnFromInterrupt_alarmV (s : State) : (returnFromInterrupt s).alarmV = s.alarmV := rfl
@[simp] theorem returnFromInterrupt_armed (s : State) : (returnFromInterrupt s).armed = s.armed := rfl
@[simp] theorem returnFromInterrupt_fault (s : State) : (returnFromInterrupt s).fault = s.fault := rfl
@[simp] theorem returnFromInterrupt_gpio (s : State) : (returnFromInterrupt s).gpio = s.gpio := rfl
@[simp] theorem returnFromInterrupt_md (s : State) : (returnFromInterrupt s).md = s.md := rfl
@[simp] theorem returnFromInterrupt_cnt (s : State) : (returnFromInterrupt s).cnt = s.cnt := rfl
@[simp] theorem returnFromInterrupt_frameStart (s : State) : (returnFromInterrupt s).frameStart = s.frameStart := rfl
@[simp] theorem returnFromInterrupt_lineStart (s : State) : (returnFromInterrupt s).lineStart = s.lineStart := rfl
@[simp] theorem returnFromInterrupt_dac (s : State) : (returnFromInterrupt s).dac = s.dac := rfl
@[simp] theorem returnFromInterrupt_fb0 (s : State) : (returnFromInterrupt s).fb0 = s.fb0 := rfl
@[simp] theorem returnFromInterrupt_fb1 (s : State) : (returnFromInterrupt s).fb1 = s.fb1 := rfl
@[simp] theorem returnFromInterrupt_front (s : State) : (returnFromInterrupt s).front = s.front := rfl
@[simp] theorem returnFromInterrupt_swapReq (s : State) : (returnFromInterrupt s).swapReq = s.swapReq := rfl
@[simp] theorem returnFromInterrupt_trace (s : State) : (returnFromInterrupt s).trace = s.trace := rfl
@[simp] theorem returnFromInterrupt_spin (s : State) : (returnFromInterrupt s).spin = s.spin := rfl
@[simp] theorem returnFromInterrupt_script (s : State) : (returnFromInterrupt s).script = s.script := rfl
@[simp] theorem returnFromInterrupt_work (s : State) : (returnFromInterrupt s).work = s.work := rfl
@[simp] theorem returnFromInterrupt_choices (s : State) : (returnFromInterrupt s).choices = s.choices := rfl
@[simp] theorem returnFromInterrupt_outcomes (s : State) : (returnFromInterrupt s).outcomes = s.outcomes := rfl
@[simp] theorem returnFromInterrupt_nfree (s : State) : (returnFromInterrupt s).nfree = s.nfree := rfl
@[simp] theorem returnFromInterrupt_alloc (s : State) : (returnFromInterrupt s).alloc = s.alloc := rfl
@[simp] theorem returnFromInterrupt_response (s : State) : (returnFromInterrupt s).response = s.response := rfl

end Sys2Proof.Machine
end

