-- ==== Sys2Proof/Laws/Memory.lean ====
section
/-! SUPPORT. The laws of one channel's memory (read after write, canonical form) and of the Framebuffer
operations built on it. -/

namespace Sys2Proof.Machine

@[simp] theorem Memory.read_nil (a : Nat) : Memory.read [] a = none := rfl

/-- A read after a store to the same slot gives the value stored. -/
@[simp] theorem Memory.read_write_same (m : Memory) (a : Nat) (v : Byte) : (m.write a v).read a = some v := by
  induction m with
  | nil => simp [Memory.write, Memory.read]
  | cons e m ih =>
    obtain ⟨k, w⟩ := e
    unfold Memory.write
    split
    · simp [Memory.read]
    · split
      · simp [Memory.read]
      · next h1 h2 => simp [Memory.read, h1, h2, ih]

/-- A store leaves every other slot alone. -/
theorem Memory.read_write_other (m : Memory) {a b : Nat} (v : Byte) (h : b ≠ a) :
    (m.write a v).read b = m.read b := by
  induction m with
  | nil =>
    simp only [Memory.write, Memory.read, h, if_false]
    split <;> rfl
  | cons e m ih =>
    obtain ⟨k, w⟩ := e
    unfold Memory.write
    split
    · next h1 =>
      simp only [Memory.read, h, if_false]
      split
      · next h2 => simp [show b ≠ k by omega, show b < k by omega]
      · rfl
    · split
      · next h1 h2 => subst h2; simp [Memory.read, h]
      · simp only [Memory.read, ih]

/-- A store adds no slot but its own. -/
theorem Memory.mem_write {m : Memory} {a : Nat} {v : Byte} {e : Host.Cell} (h : e ∈ m.write a v) :
    e = (a, v) ∨ e ∈ m := by
  induction m with
  | nil => simpa [Memory.write] using h
  | cons x m ih =>
    obtain ⟨k, w⟩ := x
    unfold Memory.write at h
    split at h
    · simpa using h
    · split at h
      · rcases List.mem_cons.1 h with h | h
        · exact .inl h
        · exact .inr (List.mem_cons_of_mem _ h)
      · rcases List.mem_cons.1 h with h | h
        · exact .inr (h ▸ List.mem_cons_self)
        · exact (ih h).imp_right (List.mem_cons_of_mem _)

/-- A store keeps the canonical form. -/
theorem Memory.write_wf {m : Memory} (h : Memory.wf m) (a : Nat) (v : Byte) : Memory.wf (m.write a v) := by
  induction m with
  | nil => simp [Memory.write, Memory.wf]
  | cons x m ih =>
    obtain ⟨k, w⟩ := x
    obtain ⟨hk, hm⟩ := List.pairwise_cons.1 h
    unfold Memory.write
    split
    · next h1 =>
      refine List.pairwise_cons.2 ⟨fun e he => ?_, h⟩
      rcases List.mem_cons.1 he with rfl | he
      · exact h1
      · exact h1.trans (hk e he)
    · split
      · next h2 => subst h2; exact List.pairwise_cons.2 ⟨hk, hm⟩
      · refine List.pairwise_cons.2 ⟨fun e he => ?_, ih hm⟩
        rcases Memory.mem_write he with rfl | he
        · change k < a; omega
        · exact hk e he

@[simp] theorem PerChannel.get_set_same {α : Type} (t : PerChannel α) (c : Channel) (v : α) :
    (t.set c v).get c = v := by cases c <;> rfl

theorem PerChannel.get_set_other {α : Type} (t : PerChannel α) {c d : Channel} (v : α) (h : d ≠ c) :
    (t.set c v).get d = t.get d := by cases c <;> cases d <;> first | rfl | exact absurd rfl h

@[simp] theorem buffer_setBuffer_same (s : State) (b : Bool) (fb : Framebuffer) :
    (s.setBuffer b fb).buffer b = fb := by cases b <;> rfl

theorem buffer_setBuffer_other (s : State) {b d : Bool} (fb : Framebuffer) (h : d ≠ b) :
    (s.setBuffer b fb).buffer d = s.buffer d := by cases b <;> cases d <;> first | rfl | exact absurd rfl h

/-- The atomic channel store: the stored channel reads back, every other channel, slot and buffer reads as
before (R95, R57). -/
theorem readChannel_storeChannel (b d : Bool) (a e : Nat) (ch dh : Channel) (v : Byte) (s : State) :
    readChannel (storeChannel b a ch v s) d e dh
      = if d = b ∧ e = a ∧ dh = ch then v else readChannel s d e dh := by
  unfold readChannel storeChannel
  by_cases hd : d = b
  · subst hd
    by_cases hc : dh = ch
    · subst hc
      by_cases he : e = a
      · subst he; simp
      · simp [he, Memory.read_write_other _ v he]
    · simp [hc, PerChannel.get_set_other _ _ hc]
  · simp [hd, buffer_setBuffer_other s _ hd]

/-- The whole-pixel store (R91 with PIXEL_WRITE_ATOMIC, R94). -/
theorem readPixel_storePixel (b d : Bool) (a e : Nat) (p : Pixel) (s : State) :
    readPixel (storePixel b a p s) d e = if d = b ∧ e = a then p else readPixel s d e := by
  unfold readPixel storePixel
  by_cases h : d = b ∧ e = a <;> simp [readChannel_storeChannel, h]

/-- Every channel memory of both buffers is in canonical form. -/
def State.memoryOk (s : State) : Prop := ∀ b ch, Memory.wf ((s.buffer b).get ch)

/-- The atomic channel store keeps the canonical form. -/
theorem storeChannel_memoryOk {s : State} (h : s.memoryOk) (b : Bool) (a : Nat) (ch : Channel) (v : Byte) :
    (storeChannel b a ch v s).memoryOk := by
  intro d dh
  unfold storeChannel
  by_cases hd : d = b
  · subst hd
    by_cases hc : dh = ch
    · subst hc; simpa using Memory.write_wf (h d dh) a v
    · simpa [PerChannel.get_set_other _ _ hc] using h d dh
  · simpa [buffer_setBuffer_other s _ hd] using h d dh

/-- The whole-pixel store keeps the canonical form. -/
theorem storePixel_memoryOk {s : State} (h : s.memoryOk) (b : Bool) (a : Nat) (p : Pixel) :
    (storePixel b a p s).memoryOk :=
  storeChannel_memoryOk (storeChannel_memoryOk (storeChannel_memoryOk h b a .R p.r) b a .G p.g) b a .B p.b

/-- After reset the memory is in canonical form. -/
theorem reset_memoryOk : State.reset.memoryOk := by
  intro b ch
  cases b <;> cases ch <;> exact List.Pairwise.nil

end Sys2Proof.Machine
end

