-- ==== Sys2Proof/Laws/Frames.lean ====
section
/-! SUPPORT. The frames of the shared operations: the fields each one never writes. -/

namespace Sys2Proof.Machine


/-! ### setAlarm -/

@[simp] theorem setAlarm_fast (a : Axis) (d : Nat) (h : HandlerId) (s : State) : (setAlarm a d h s).fast = s.fast := by unfold setAlarm; split <;> simp
@[simp] theorem setAlarm_slow (a : Axis) (d : Nat) (h : HandlerId) (s : State) : (setAlarm a d h s).slow = s.slow := by unfold setAlarm; split <;> simp
@[simp] theorem setAlarm_pix (a : Axis) (d : Nat) (h : HandlerId) (s : State) : (setAlarm a d h s).pix = s.pix := by unfold setAlarm; split <;> simp
@[simp] theorem setAlarm_vcnt (a : Axis) (d : Nat) (h : HandlerId) (s : State) : (setAlarm a d h s).vcnt = s.vcnt := by unfold setAlarm; split <;> simp
@[simp] theorem setAlarm_hPhase (a : Axis) (d : Nat) (h : HandlerId) (s : State) : (setAlarm a d h s).hPhase = s.hPhase := by unfold setAlarm; split <;> simp
@[simp] theorem setAlarm_vPhase (a : Axis) (d : Nat) (h : HandlerId) (s : State) : (setAlarm a d h s).vPhase = s.vPhase := by unfold setAlarm; split <;> simp
@[simp] theorem setAlarm_armed (a : Axis) (d : Nat) (h : HandlerId) (s : State) : (setAlarm a d h s).armed = s.armed := by unfold setAlarm; split <;> simp
@[simp] theorem setAlarm_fault (a : Axis) (d : Nat) (h : HandlerId) (s : State) : (setAlarm a d h s).fault = s.fault := by unfold setAlarm; split <;> simp
@[simp] theorem setAlarm_gpio (a : Axis) (d : Nat) (h : HandlerId) (s : State) : (setAlarm a d h s).gpio = s.gpio := by unfold setAlarm; split <;> simp
@[simp] theorem setAlarm_md (a : Axis) (d : Nat) (h : HandlerId) (s : State) : (setAlarm a d h s).md = s.md := by unfold setAlarm; split <;> simp
@[simp] theorem setAlarm_cnt (a : Axis) (d : Nat) (h : HandlerId) (s : State) : (setAlarm a d h s).cnt = s.cnt := by unfold setAlarm; split <;> simp
@[simp] theorem setAlarm_frameStart (a : Axis) (d : Nat) (h : HandlerId) (s : State) : (setAlarm a d h s).frameStart = s.frameStart := by unfold setAlarm; split <;> simp
@[simp] theorem setAlarm_lineStart (a : Axis) (d : Nat) (h : HandlerId) (s : State) : (setAlarm a d h s).lineStart = s.lineStart := by unfold setAlarm; split <;> simp
@[simp] theorem setAlarm_dac (a : Axis) (d : Nat) (h : HandlerId) (s : State) : (setAlarm a d h s).dac = s.dac := by unfold setAlarm; split <;> simp
@[simp] theorem setAlarm_fb0 (a : Axis) (d : Nat) (h : HandlerId) (s : State) : (setAlarm a d h s).fb0 = s.fb0 := by unfold setAlarm; split <;> simp
@[simp] theorem setAlarm_fb1 (a : Axis) (d : Nat) (h : HandlerId) (s : State) : (setAlarm a d h s).fb1 = s.fb1 := by unfold setAlarm; split <;> simp
@[simp] theorem setAlarm_front (a : Axis) (d : Nat) (h : HandlerId) (s : State) : (setAlarm a d h s).front = s.front := by unfold setAlarm; split <;> simp
@[simp] theorem setAlarm_swapReq (a : Axis) (d : Nat) (h : HandlerId) (s : State) : (setAlarm a d h s).swapReq = s.swapReq := by unfold setAlarm; split <;> simp
@[simp] theorem setAlarm_busy (a : Axis) (d : Nat) (h : HandlerId) (s : State) : (setAlarm a d h s).busy = s.busy := by unfold setAlarm; split <;> simp
@[simp] theorem setAlarm_trace (a : Axis) (d : Nat) (h : HandlerId) (s : State) : (setAlarm a d h s).trace = s.trace := by unfold setAlarm; split <;> simp
@[simp] theorem setAlarm_spin (a : Axis) (d : Nat) (h : HandlerId) (s : State) : (setAlarm a d h s).spin = s.spin := by unfold setAlarm; split <;> simp
@[simp] theorem setAlarm_script (a : Axis) (d : Nat) (h : HandlerId) (s : State) : (setAlarm a d h s).script = s.script := by unfold setAlarm; split <;> simp
@[simp] theorem setAlarm_work (a : Axis) (d : Nat) (h : HandlerId) (s : State) : (setAlarm a d h s).work = s.work := by unfold setAlarm; split <;> simp
@[simp] theorem setAlarm_choices (a : Axis) (d : Nat) (h : HandlerId) (s : State) : (setAlarm a d h s).choices = s.choices := by unfold setAlarm; split <;> simp
@[simp] theorem setAlarm_outcomes (a : Axis) (d : Nat) (h : HandlerId) (s : State) : (setAlarm a d h s).outcomes = s.outcomes := by unfold setAlarm; split <;> simp
@[simp] theorem setAlarm_nfree (a : Axis) (d : Nat) (h : HandlerId) (s : State) : (setAlarm a d h s).nfree = s.nfree := by unfold setAlarm; split <;> simp
@[simp] theorem setAlarm_alloc (a : Axis) (d : Nat) (h : HandlerId) (s : State) : (setAlarm a d h s).alloc = s.alloc := by unfold setAlarm; split <;> simp

/-! ### spinThen -/

@[simp] theorem spinThen_fast (a : Axis) (th : Nat) (h : HandlerId) (s : State) : (spinThen a th h s).fast = s.fast := by unfold spinThen; split <;> simp
@[simp] theorem spinThen_slow (a : Axis) (th : Nat) (h : HandlerId) (s : State) : (spinThen a th h s).slow = s.slow := by unfold spinThen; split <;> simp
@[simp] theorem spinThen_pix (a : Axis) (th : Nat) (h : HandlerId) (s : State) : (spinThen a th h s).pix = s.pix := by unfold spinThen; split <;> simp
@[simp] theorem spinThen_vcnt (a : Axis) (th : Nat) (h : HandlerId) (s : State) : (spinThen a th h s).vcnt = s.vcnt := by unfold spinThen; split <;> simp
@[simp] theorem spinThen_hPhase (a : Axis) (th : Nat) (h : HandlerId) (s : State) : (spinThen a th h s).hPhase = s.hPhase := by unfold spinThen; split <;> simp
@[simp] theorem spinThen_vPhase (a : Axis) (th : Nat) (h : HandlerId) (s : State) : (spinThen a th h s).vPhase = s.vPhase := by unfold spinThen; split <;> simp
@[simp] theorem spinThen_armed (a : Axis) (th : Nat) (h : HandlerId) (s : State) : (spinThen a th h s).armed = s.armed := by unfold spinThen; split <;> simp
@[simp] theorem spinThen_fault (a : Axis) (th : Nat) (h : HandlerId) (s : State) : (spinThen a th h s).fault = s.fault := by unfold spinThen; split <;> simp
@[simp] theorem spinThen_gpio (a : Axis) (th : Nat) (h : HandlerId) (s : State) : (spinThen a th h s).gpio = s.gpio := by unfold spinThen; split <;> simp
@[simp] theorem spinThen_md (a : Axis) (th : Nat) (h : HandlerId) (s : State) : (spinThen a th h s).md = s.md := by unfold spinThen; split <;> simp
@[simp] theorem spinThen_cnt (a : Axis) (th : Nat) (h : HandlerId) (s : State) : (spinThen a th h s).cnt = s.cnt := by unfold spinThen; split <;> simp
@[simp] theorem spinThen_frameStart (a : Axis) (th : Nat) (h : HandlerId) (s : State) : (spinThen a th h s).frameStart = s.frameStart := by unfold spinThen; split <;> simp
@[simp] theorem spinThen_lineStart (a : Axis) (th : Nat) (h : HandlerId) (s : State) : (spinThen a th h s).lineStart = s.lineStart := by unfold spinThen; split <;> simp
@[simp] theorem spinThen_dac (a : Axis) (th : Nat) (h : HandlerId) (s : State) : (spinThen a th h s).dac = s.dac := by unfold spinThen; split <;> simp
@[simp] theorem spinThen_fb0 (a : Axis) (th : Nat) (h : HandlerId) (s : State) : (spinThen a th h s).fb0 = s.fb0 := by unfold spinThen; split <;> simp
@[simp] theorem spinThen_fb1 (a : Axis) (th : Nat) (h : HandlerId) (s : State) : (spinThen a th h s).fb1 = s.fb1 := by unfold spinThen; split <;> simp
@[simp] theorem spinThen_front (a : Axis) (th : Nat) (h : HandlerId) (s : State) : (spinThen a th h s).front = s.front := by unfold spinThen; split <;> simp
@[simp] theorem spinThen_swapReq (a : Axis) (th : Nat) (h : HandlerId) (s : State) : (spinThen a th h s).swapReq = s.swapReq := by unfold spinThen; split <;> simp
@[simp] theorem spinThen_busy (a : Axis) (th : Nat) (h : HandlerId) (s : State) : (spinThen a th h s).busy = s.busy := by unfold spinThen; split <;> simp
@[simp] theorem spinThen_trace (a : Axis) (th : Nat) (h : HandlerId) (s : State) : (spinThen a th h s).trace = s.trace := by unfold spinThen; split <;> simp
@[simp] theorem spinThen_script (a : Axis) (th : Nat) (h : HandlerId) (s : State) : (spinThen a th h s).script = s.script := by unfold spinThen; split <;> simp
@[simp] theorem spinThen_work (a : Axis) (th : Nat) (h : HandlerId) (s : State) : (spinThen a th h s).work = s.work := by unfold spinThen; split <;> simp
@[simp] theorem spinThen_choices (a : Axis) (th : Nat) (h : HandlerId) (s : State) : (spinThen a th h s).choices = s.choices := by unfold spinThen; split <;> simp
@[simp] theorem spinThen_outcomes (a : Axis) (th : Nat) (h : HandlerId) (s : State) : (spinThen a th h s).outcomes = s.outcomes := by unfold spinThen; split <;> simp
@[simp] theorem spinThen_nfree (a : Axis) (th : Nat) (h : HandlerId) (s : State) : (spinThen a th h s).nfree = s.nfree := by unfold spinThen; split <;> simp
@[simp] theorem spinThen_alloc (a : Axis) (th : Nat) (h : HandlerId) (s : State) : (spinThen a th h s).alloc = s.alloc := by unfold spinThen; split <;> simp

/-! ### chain -/

@[simp] theorem chain_fast (c : Cfg) (a : Axis) (d th : Nat) (h : HandlerId) (s : State) : (chain c a d th h s).fast = s.fast := by unfold chain; split <;> simp
@[simp] theorem chain_slow (c : Cfg) (a : Axis) (d th : Nat) (h : HandlerId) (s : State) : (chain c a d th h s).slow = s.slow := by unfold chain; split <;> simp
@[simp] theorem chain_pix (c : Cfg) (a : Axis) (d th : Nat) (h : HandlerId) (s : State) : (chain c a d th h s).pix = s.pix := by unfold chain; split <;> simp
@[simp] theorem chain_vcnt (c : Cfg) (a : Axis) (d th : Nat) (h : HandlerId) (s : State) : (chain c a d th h s).vcnt = s.vcnt := by unfold chain; split <;> simp
@[simp] theorem chain_hPhase (c : Cfg) (a : Axis) (d th : Nat) (h : HandlerId) (s : State) : (chain c a d th h s).hPhase = s.hPhase := by unfold chain; split <;> simp
@[simp] theorem chain_vPhase (c : Cfg) (a : Axis) (d th : Nat) (h : HandlerId) (s : State) : (chain c a d th h s).vPhase = s.vPhase := by unfold chain; split <;> simp
@[simp] theorem chain_armed (c : Cfg) (a : Axis) (d th : Nat) (h : HandlerId) (s : State) : (chain c a d th h s).armed = s.armed := by unfold chain; split <;> simp
@[simp] theorem chain_fault (c : Cfg) (a : Axis) (d th : Nat) (h : HandlerId) (s : State) : (chain c a d th h s).fault = s.fault := by unfold chain; split <;> simp
@[simp] theorem chain_gpio (c : Cfg) (a : Axis) (d th : Nat) (h : HandlerId) (s : State) : (chain c a d th h s).gpio = s.gpio := by unfold chain; split <;> simp
@[simp] theorem chain_md (c : Cfg) (a : Axis) (d th : Nat) (h : HandlerId) (s : State) : (chain c a d th h s).md = s.md := by unfold chain; split <;> simp
@[simp] theorem chain_cnt (c : Cfg) (a : Axis) (d th : Nat) (h : HandlerId) (s : State) : (chain c a d th h s).cnt = s.cnt := by unfold chain; split <;> simp
@[simp] theorem chain_frameStart (c : Cfg) (a : Axis) (d th : Nat) (h : HandlerId) (s : State) : (chain c a d th h s).frameStart = s.frameStart := by unfold chain; split <;> simp
@[simp] theorem chain_lineStart (c : Cfg) (a : Axis) (d th : Nat) (h : HandlerId) (s : State) : (chain c a d th h s).lineStart = s.lineStart := by unfold chain; split <;> simp
@[simp] theorem chain_dac (c : Cfg) (a : Axis) (d th : Nat) (h : HandlerId) (s : State) : (chain c a d th h s).dac = s.dac := by unfold chain; split <;> simp
@[simp] theorem chain_fb0 (c : Cfg) (a : Axis) (d th : Nat) (h : HandlerId) (s : State) : (chain c a d th h s).fb0 = s.fb0 := by unfold chain; split <;> simp
@[simp] theorem chain_fb1 (c : Cfg) (a : Axis) (d th : Nat) (h : HandlerId) (s : State) : (chain c a d th h s).fb1 = s.fb1 := by unfold chain; split <;> simp
@[simp] theorem chain_front (c : Cfg) (a : Axis) (d th : Nat) (h : HandlerId) (s : State) : (chain c a d th h s).front = s.front := by unfold chain; split <;> simp
@[simp] theorem chain_swapReq (c : Cfg) (a : Axis) (d th : Nat) (h : HandlerId) (s : State) : (chain c a d th h s).swapReq = s.swapReq := by unfold chain; split <;> simp
@[simp] theorem chain_busy (c : Cfg) (a : Axis) (d th : Nat) (h : HandlerId) (s : State) : (chain c a d th h s).busy = s.busy := by unfold chain; split <;> simp
@[simp] theorem chain_trace (c : Cfg) (a : Axis) (d th : Nat) (h : HandlerId) (s : State) : (chain c a d th h s).trace = s.trace := by unfold chain; split <;> simp
@[simp] theorem chain_script (c : Cfg) (a : Axis) (d th : Nat) (h : HandlerId) (s : State) : (chain c a d th h s).script = s.script := by unfold chain; split <;> simp
@[simp] theorem chain_work (c : Cfg) (a : Axis) (d th : Nat) (h : HandlerId) (s : State) : (chain c a d th h s).work = s.work := by unfold chain; split <;> simp
@[simp] theorem chain_choices (c : Cfg) (a : Axis) (d th : Nat) (h : HandlerId) (s : State) : (chain c a d th h s).choices = s.choices := by unfold chain; split <;> simp
@[simp] theorem chain_outcomes (c : Cfg) (a : Axis) (d th : Nat) (h : HandlerId) (s : State) : (chain c a d th h s).outcomes = s.outcomes := by unfold chain; split <;> simp
@[simp] theorem chain_nfree (c : Cfg) (a : Axis) (d th : Nat) (h : HandlerId) (s : State) : (chain c a d th h s).nfree = s.nfree := by unfold chain; split <;> simp
@[simp] theorem chain_alloc (c : Cfg) (a : Axis) (d th : Nat) (h : HandlerId) (s : State) : (chain c a d th h s).alloc = s.alloc := by unfold chain; split <;> simp

/-! ### releaseBareSpin -/

@[simp] theorem releaseBareSpin_fast (s : State) : (releaseBareSpin s).fast = s.fast := by unfold releaseBareSpin; split <;> rfl
@[simp] theorem releaseBareSpin_slow (s : State) : (releaseBareSpin s).slow = s.slow := by unfold releaseBareSpin; split <;> rfl
@[simp] theorem releaseBareSpin_pix (s : State) : (releaseBareSpin s).pix = s.pix := by unfold releaseBareSpin; split <;> rfl
@[simp] theorem releaseBareSpin_vcnt (s : State) : (releaseBareSpin s).vcnt = s.vcnt := by unfold releaseBareSpin; split <;> rfl
@[simp] theorem releaseBareSpin_hPhase (s : State) : (releaseBareSpin s).hPhase = s.hPhase := by unfold releaseBareSpin; split <;> rfl
@[simp] theorem releaseBareSpin_vPhase (s : State) : (releaseBareSpin s).vPhase = s.vPhase := by unfold releaseBareSpin; split <;> rfl
@[simp] theorem releaseBareSpin_alarmH (s : State) : (releaseBareSpin s).alarmH = s.alarmH := by unfold releaseBareSpin; split <;> rfl
@[simp] theorem releaseBareSpin_alarmV (s : State) : (releaseBareSpin s).alarmV = s.alarmV := by unfold releaseBareSpin; split <;> rfl
@[simp] theorem releaseBareSpin_armed (s : State) : (releaseBareSpin s).armed = s.armed := by unfold releaseBareSpin; split <;> rfl
@[simp] theorem releaseBareSpin_fault (s : State) : (releaseBareSpin s).fault = s.fault := by unfold releaseBareSpin; split <;> rfl
@[simp] theorem releaseBareSpin_gpio (s : State) : (releaseBareSpin s).gpio = s.gpio := by unfold releaseBareSpin; split <;> rfl
@[simp] theorem releaseBareSpin_md (s : State) : (releaseBareSpin s).md = s.md := by unfold releaseBareSpin; split <;> rfl
@[simp] theorem releaseBareSpin_cnt (s : State) : (releaseBareSpin s).cnt = s.cnt := by unfold releaseBareSpin; split <;> rfl
@[simp] theorem releaseBareSpin_frameStart (s : State) : (releaseBareSpin s).frameStart = s.frameStart := by unfold releaseBareSpin; split <;> rfl
@[simp] theorem releaseBareSpin_lineStart (s : State) : (releaseBareSpin s).lineStart = s.lineStart := by unfold releaseBareSpin; split <;> rfl
@[simp] theorem releaseBareSpin_dac (s : State) : (releaseBareSpin s).dac = s.dac := by unfold releaseBareSpin; split <;> rfl
@[simp] theorem releaseBareSpin_fb0 (s : State) : (releaseBareSpin s).fb0 = s.fb0 := by unfold releaseBareSpin; split <;> rfl
@[simp] theorem releaseBareSpin_fb1 (s : State) : (releaseBareSpin s).fb1 = s.fb1 := by unfold releaseBareSpin; split <;> rfl
@[simp] theorem releaseBareSpin_front (s : State) : (releaseBareSpin s).front = s.front := by unfold releaseBareSpin; split <;> rfl
@[simp] theorem releaseBareSpin_swapReq (s : State) : (releaseBareSpin s).swapReq = s.swapReq := by unfold releaseBareSpin; split <;> rfl
@[simp] theorem releaseBareSpin_trace (s : State) : (releaseBareSpin s).trace = s.trace := by unfold releaseBareSpin; split <;> rfl
@[simp] theorem releaseBareSpin_script (s : State) : (releaseBareSpin s).script = s.script := by unfold releaseBareSpin; split <;> rfl
@[simp] theorem releaseBareSpin_work (s : State) : (releaseBareSpin s).work = s.work := by unfold releaseBareSpin; split <;> rfl
@[simp] theorem releaseBareSpin_choices (s : State) : (releaseBareSpin s).choices = s.choices := by unfold releaseBareSpin; split <;> rfl
@[simp] theorem releaseBareSpin_outcomes (s : State) : (releaseBareSpin s).outcomes = s.outcomes := by unfold releaseBareSpin; split <;> rfl
@[simp] theorem releaseBareSpin_nfree (s : State) : (releaseBareSpin s).nfree = s.nfree := by unfold releaseBareSpin; split <;> rfl
@[simp] theorem releaseBareSpin_alloc (s : State) : (releaseBareSpin s).alloc = s.alloc := by unfold releaseBareSpin; split <;> rfl
@[simp] theorem releaseBareSpin_response (s : State) : (releaseBareSpin s).response = s.response := by unfold releaseBareSpin; split <;> rfl

/-! ### clearColor -/

@[simp] theorem clearColor_fast (c : Cfg) (s : State) : (clearColor c s).fast = s.fast := rfl
@[simp] theorem clearColor_slow (c : Cfg) (s : State) : (clearColor c s).slow = s.slow := rfl
@[simp] theorem clearColor_pix (c : Cfg) (s : State) : (clearColor c s).pix = s.pix := rfl
@[simp] theorem clearColor_vcnt (c : Cfg) (s : State) : (clearColor c s).vcnt = s.vcnt := rfl
@[simp] theorem clearColor_hPhase (c : Cfg) (s : State) : (clearColor c s).hPhase = s.hPhase := rfl
@[simp] theorem clearColor_vPhase (c : Cfg) (s : State) : (clearColor c s).vPhase = s.vPhase := rfl
@[simp] theorem clearColor_alarmH (c : Cfg) (s : State) : (clearColor c s).alarmH = s.alarmH := rfl
@[simp] theorem clearColor_alarmV (c : Cfg) (s : State) : (clearColor c s).alarmV = s.alarmV := rfl
@[simp] theorem clearColor_armed (c : Cfg) (s : State) : (clearColor c s).armed = s.armed := rfl
@[simp] theorem clearColor_fault (c : Cfg) (s : State) : (clearColor c s).fault = s.fault := rfl
@[simp] theorem clearColor_md (c : Cfg) (s : State) : (clearColor c s).md = s.md := rfl
@[simp] theorem clearColor_cnt (c : Cfg) (s : State) : (clearColor c s).cnt = s.cnt := rfl
@[simp] theorem clearColor_frameStart (c : Cfg) (s : State) : (clearColor c s).frameStart = s.frameStart := rfl
@[simp] theorem clearColor_lineStart (c : Cfg) (s : State) : (clearColor c s).lineStart = s.lineStart := rfl
@[simp] theorem clearColor_dac (c : Cfg) (s : State) : (clearColor c s).dac = s.dac := rfl
@[simp] theorem clearColor_fb0 (c : Cfg) (s : State) : (clearColor c s).fb0 = s.fb0 := rfl
@[simp] theorem clearColor_fb1 (c : Cfg) (s : State) : (clearColor c s).fb1 = s.fb1 := rfl
@[simp] theorem clearColor_front (c : Cfg) (s : State) : (clearColor c s).front = s.front := rfl
@[simp] theorem clearColor_swapReq (c : Cfg) (s : State) : (clearColor c s).swapReq = s.swapReq := rfl
@[simp] theorem clearColor_busy (c : Cfg) (s : State) : (clearColor c s).busy = s.busy := rfl
@[simp] theorem clearColor_spin (c : Cfg) (s : State) : (clearColor c s).spin = s.spin := rfl
@[simp] theorem clearColor_script (c : Cfg) (s : State) : (clearColor c s).script = s.script := rfl
@[simp] theorem clearColor_work (c : Cfg) (s : State) : (clearColor c s).work = s.work := rfl
@[simp] theorem clearColor_choices (c : Cfg) (s : State) : (clearColor c s).choices = s.choices := rfl
@[simp] theorem clearColor_outcomes (c : Cfg) (s : State) : (clearColor c s).outcomes = s.outcomes := rfl
@[simp] theorem clearColor_nfree (c : Cfg) (s : State) : (clearColor c s).nfree = s.nfree := rfl
@[simp] theorem clearColor_alloc (c : Cfg) (s : State) : (clearColor c s).alloc = s.alloc := rfl
@[simp] theorem clearColor_response (c : Cfg) (s : State) : (clearColor c s).response = s.response := rfl

/-! ### setColor -/

@[simp] theorem setColor_fast (c : Cfg) (v : Byte) (s : State) : (setColor c v s).fast = s.fast := rfl
@[simp] theorem setColor_slow (c : Cfg) (v : Byte) (s : State) : (setColor c v s).slow = s.slow := rfl
@[simp] theorem setColor_pix (c : Cfg) (v : Byte) (s : State) : (setColor c v s).pix = s.pix := rfl
@[simp] theorem setColor_vcnt (c : Cfg) (v : Byte) (s : State) : (setColor c v s).vcnt = s.vcnt := rfl
@[simp] theorem setColor_hPhase (c : Cfg) (v : Byte) (s : State) : (setColor c v s).hPhase = s.hPhase := rfl
@[simp] theorem setColor_vPhase (c : Cfg) (v : Byte) (s : State) : (setColor c v s).vPhase = s.vPhase := rfl
@[simp] theorem setColor_alarmH (c : Cfg) (v : Byte) (s : State) : (setColor c v s).alarmH = s.alarmH := rfl
@[simp] theorem setColor_alarmV (c : Cfg) (v : Byte) (s : State) : (setColor c v s).alarmV = s.alarmV := rfl
@[simp] theorem setColor_armed (c : Cfg) (v : Byte) (s : State) : (setColor c v s).armed = s.armed := rfl
@[simp] theorem setColor_fault (c : Cfg) (v : Byte) (s : State) : (setColor c v s).fault = s.fault := rfl
@[simp] theorem setColor_md (c : Cfg) (v : Byte) (s : State) : (setColor c v s).md = s.md := rfl
@[simp] theorem setColor_cnt (c : Cfg) (v : Byte) (s : State) : (setColor c v s).cnt = s.cnt := rfl
@[simp] theorem setColor_frameStart (c : Cfg) (v : Byte) (s : State) : (setColor c v s).frameStart = s.frameStart := rfl
@[simp] theorem setColor_lineStart (c : Cfg) (v : Byte) (s : State) : (setColor c v s).lineStart = s.lineStart := rfl
@[simp] theorem setColor_dac (c : Cfg) (v : Byte) (s : State) : (setColor c v s).dac = s.dac := rfl
@[simp] theorem setColor_fb0 (c : Cfg) (v : Byte) (s : State) : (setColor c v s).fb0 = s.fb0 := rfl
@[simp] theorem setColor_fb1 (c : Cfg) (v : Byte) (s : State) : (setColor c v s).fb1 = s.fb1 := rfl
@[simp] theorem setColor_front (c : Cfg) (v : Byte) (s : State) : (setColor c v s).front = s.front := rfl
@[simp] theorem setColor_swapReq (c : Cfg) (v : Byte) (s : State) : (setColor c v s).swapReq = s.swapReq := rfl
@[simp] theorem setColor_busy (c : Cfg) (v : Byte) (s : State) : (setColor c v s).busy = s.busy := rfl
@[simp] theorem setColor_spin (c : Cfg) (v : Byte) (s : State) : (setColor c v s).spin = s.spin := rfl
@[simp] theorem setColor_script (c : Cfg) (v : Byte) (s : State) : (setColor c v s).script = s.script := rfl
@[simp] theorem setColor_work (c : Cfg) (v : Byte) (s : State) : (setColor c v s).work = s.work := rfl
@[simp] theorem setColor_choices (c : Cfg) (v : Byte) (s : State) : (setColor c v s).choices = s.choices := rfl
@[simp] theorem setColor_outcomes (c : Cfg) (v : Byte) (s : State) : (setColor c v s).outcomes = s.outcomes := rfl
@[simp] theorem setColor_nfree (c : Cfg) (v : Byte) (s : State) : (setColor c v s).nfree = s.nfree := rfl
@[simp] theorem setColor_alloc (c : Cfg) (v : Byte) (s : State) : (setColor c v s).alloc = s.alloc := rfl
@[simp] theorem setColor_response (c : Cfg) (v : Byte) (s : State) : (setColor c v s).response = s.response := rfl

/-! ### latchOn -/

@[simp] theorem latchOn_fast (c : Cfg) (ch : Channel) (s : State) : (latchOn c ch s).fast = s.fast := rfl
@[simp] theorem latchOn_slow (c : Cfg) (ch : Channel) (s : State) : (latchOn c ch s).slow = s.slow := rfl
@[simp] theorem latchOn_pix (c : Cfg) (ch : Channel) (s : State) : (latchOn c ch s).pix = s.pix := rfl
@[simp] theorem latchOn_vcnt (c : Cfg) (ch : Channel) (s : State) : (latchOn c ch s).vcnt = s.vcnt := rfl
@[simp] theorem latchOn_hPhase (c : Cfg) (ch : Channel) (s : State) : (latchOn c ch s).hPhase = s.hPhase := rfl
@[simp] theorem latchOn_vPhase (c : Cfg) (ch : Channel) (s : State) : (latchOn c ch s).vPhase = s.vPhase := rfl
@[simp] theorem latchOn_alarmH (c : Cfg) (ch : Channel) (s : State) : (latchOn c ch s).alarmH = s.alarmH := rfl
@[simp] theorem latchOn_alarmV (c : Cfg) (ch : Channel) (s : State) : (latchOn c ch s).alarmV = s.alarmV := rfl
@[simp] theorem latchOn_armed (c : Cfg) (ch : Channel) (s : State) : (latchOn c ch s).armed = s.armed := rfl
@[simp] theorem latchOn_fault (c : Cfg) (ch : Channel) (s : State) : (latchOn c ch s).fault = s.fault := rfl
@[simp] theorem latchOn_md (c : Cfg) (ch : Channel) (s : State) : (latchOn c ch s).md = s.md := rfl
@[simp] theorem latchOn_cnt (c : Cfg) (ch : Channel) (s : State) : (latchOn c ch s).cnt = s.cnt := rfl
@[simp] theorem latchOn_frameStart (c : Cfg) (ch : Channel) (s : State) : (latchOn c ch s).frameStart = s.frameStart := rfl
@[simp] theorem latchOn_lineStart (c : Cfg) (ch : Channel) (s : State) : (latchOn c ch s).lineStart = s.lineStart := rfl
@[simp] theorem latchOn_fb0 (c : Cfg) (ch : Channel) (s : State) : (latchOn c ch s).fb0 = s.fb0 := rfl
@[simp] theorem latchOn_fb1 (c : Cfg) (ch : Channel) (s : State) : (latchOn c ch s).fb1 = s.fb1 := rfl
@[simp] theorem latchOn_front (c : Cfg) (ch : Channel) (s : State) : (latchOn c ch s).front = s.front := rfl
@[simp] theorem latchOn_swapReq (c : Cfg) (ch : Channel) (s : State) : (latchOn c ch s).swapReq = s.swapReq := rfl
@[simp] theorem latchOn_busy (c : Cfg) (ch : Channel) (s : State) : (latchOn c ch s).busy = s.busy := rfl
@[simp] theorem latchOn_spin (c : Cfg) (ch : Channel) (s : State) : (latchOn c ch s).spin = s.spin := rfl
@[simp] theorem latchOn_script (c : Cfg) (ch : Channel) (s : State) : (latchOn c ch s).script = s.script := rfl
@[simp] theorem latchOn_work (c : Cfg) (ch : Channel) (s : State) : (latchOn c ch s).work = s.work := rfl
@[simp] theorem latchOn_choices (c : Cfg) (ch : Channel) (s : State) : (latchOn c ch s).choices = s.choices := rfl
@[simp] theorem latchOn_outcomes (c : Cfg) (ch : Channel) (s : State) : (latchOn c ch s).outcomes = s.outcomes := rfl
@[simp] theorem latchOn_nfree (c : Cfg) (ch : Channel) (s : State) : (latchOn c ch s).nfree = s.nfree := rfl
@[simp] theorem latchOn_alloc (c : Cfg) (ch : Channel) (s : State) : (latchOn c ch s).alloc = s.alloc := rfl
@[simp] theorem latchOn_response (c : Cfg) (ch : Channel) (s : State) : (latchOn c ch s).response = s.response := rfl

/-! ### latchOff -/

@[simp] theorem latchOff_fast (c : Cfg) (ch : Channel) (s : State) : (latchOff c ch s).fast = s.fast := rfl
@[simp] theorem latchOff_slow (c : Cfg) (ch : Channel) (s : State) : (latchOff c ch s).slow = s.slow := rfl
@[simp] theorem latchOff_pix (c : Cfg) (ch : Channel) (s : State) : (latchOff c ch s).pix = s.pix := rfl
@[simp] theorem latchOff_vcnt (c : Cfg) (ch : Channel) (s : State) : (latchOff c ch s).vcnt = s.vcnt := rfl
@[simp] theorem latchOff_hPhase (c : Cfg) (ch : Channel) (s : State) : (latchOff c ch s).hPhase = s.hPhase := rfl
@[simp] theorem latchOff_vPhase (c : Cfg) (ch : Channel) (s : State) : (latchOff c ch s).vPhase = s.vPhase := rfl
@[simp] theorem latchOff_alarmH (c : Cfg) (ch : Channel) (s : State) : (latchOff c ch s).alarmH = s.alarmH := rfl
@[simp] theorem latchOff_alarmV (c : Cfg) (ch : Channel) (s : State) : (latchOff c ch s).alarmV = s.alarmV := rfl
@[simp] theorem latchOff_armed (c : Cfg) (ch : Channel) (s : State) : (latchOff c ch s).armed = s.armed := rfl
@[simp] theorem latchOff_fault (c : Cfg) (ch : Channel) (s : State) : (latchOff c ch s).fault = s.fault := rfl
@[simp] theorem latchOff_md (c : Cfg) (ch : Channel) (s : State) : (latchOff c ch s).md = s.md := rfl
@[simp] theorem latchOff_cnt (c : Cfg) (ch : Channel) (s : State) : (latchOff c ch s).cnt = s.cnt := rfl
@[simp] theorem latchOff_frameStart (c : Cfg) (ch : Channel) (s : State) : (latchOff c ch s).frameStart = s.frameStart := rfl
@[simp] theorem latchOff_lineStart (c : Cfg) (ch : Channel) (s : State) : (latchOff c ch s).lineStart = s.lineStart := rfl
@[simp] theorem latchOff_dac (c : Cfg) (ch : Channel) (s : State) : (latchOff c ch s).dac = s.dac := rfl
@[simp] theorem latchOff_fb0 (c : Cfg) (ch : Channel) (s : State) : (latchOff c ch s).fb0 = s.fb0 := rfl
@[simp] theorem latchOff_fb1 (c : Cfg) (ch : Channel) (s : State) : (latchOff c ch s).fb1 = s.fb1 := rfl
@[simp] theorem latchOff_front (c : Cfg) (ch : Channel) (s : State) : (latchOff c ch s).front = s.front := rfl
@[simp] theorem latchOff_swapReq (c : Cfg) (ch : Channel) (s : State) : (latchOff c ch s).swapReq = s.swapReq := rfl
@[simp] theorem latchOff_busy (c : Cfg) (ch : Channel) (s : State) : (latchOff c ch s).busy = s.busy := rfl
@[simp] theorem latchOff_spin (c : Cfg) (ch : Channel) (s : State) : (latchOff c ch s).spin = s.spin := rfl
@[simp] theorem latchOff_script (c : Cfg) (ch : Channel) (s : State) : (latchOff c ch s).script = s.script := rfl
@[simp] theorem latchOff_work (c : Cfg) (ch : Channel) (s : State) : (latchOff c ch s).work = s.work := rfl
@[simp] theorem latchOff_choices (c : Cfg) (ch : Channel) (s : State) : (latchOff c ch s).choices = s.choices := rfl
@[simp] theorem latchOff_outcomes (c : Cfg) (ch : Channel) (s : State) : (latchOff c ch s).outcomes = s.outcomes := rfl
@[simp] theorem latchOff_nfree (c : Cfg) (ch : Channel) (s : State) : (latchOff c ch s).nfree = s.nfree := rfl
@[simp] theorem latchOff_alloc (c : Cfg) (ch : Channel) (s : State) : (latchOff c ch s).alloc = s.alloc := rfl
@[simp] theorem latchOff_response (c : Cfg) (ch : Channel) (s : State) : (latchOff c ch s).response = s.response := rfl

/-! ### emitChannel -/

@[simp] theorem emitChannel_fast (c : Cfg) (ch : Channel) (v : Byte) (s : State) : (emitChannel c ch v s).fast = s.fast := by simp [emitChannel]
@[simp] theorem emitChannel_slow (c : Cfg) (ch : Channel) (v : Byte) (s : State) : (emitChannel c ch v s).slow = s.slow := by simp [emitChannel]
@[simp] theorem emitChannel_pix (c : Cfg) (ch : Channel) (v : Byte) (s : State) : (emitChannel c ch v s).pix = s.pix := by simp [emitChannel]
@[simp] theorem emitChannel_vcnt (c : Cfg) (ch : Channel) (v : Byte) (s : State) : (emitChannel c ch v s).vcnt = s.vcnt := by simp [emitChannel]
@[simp] theorem emitChannel_hPhase (c : Cfg) (ch : Channel) (v : Byte) (s : State) : (emitChannel c ch v s).hPhase = s.hPhase := by simp [emitChannel]
@[simp] theorem emitChannel_vPhase (c : Cfg) (ch : Channel) (v : Byte) (s : State) : (emitChannel c ch v s).vPhase = s.vPhase := by simp [emitChannel]
@[simp] theorem emitChannel_alarmH (c : Cfg) (ch : Channel) (v : Byte) (s : State) : (emitChannel c ch v s).alarmH = s.alarmH := by simp [emitChannel]
@[simp] theorem emitChannel_alarmV (c : Cfg) (ch : Channel) (v : Byte) (s : State) : (emitChannel c ch v s).alarmV = s.alarmV := by simp [emitChannel]
@[simp] theorem emitChannel_armed (c : Cfg) (ch : Channel) (v : Byte) (s : State) : (emitChannel c ch v s).armed = s.armed := by simp [emitChannel]
@[simp] theorem emitChannel_fault (c : Cfg) (ch : Channel) (v : Byte) (s : State) : (emitChannel c ch v s).fault = s.fault := by simp [emitChannel]
@[simp] theorem emitChannel_md (c : Cfg) (ch : Channel) (v : Byte) (s : State) : (emitChannel c ch v s).md = s.md := by simp [emitChannel]
@[simp] theorem emitChannel_cnt (c : Cfg) (ch : Channel) (v : Byte) (s : State) : (emitChannel c ch v s).cnt = s.cnt := by simp [emitChannel]
@[simp] theorem emitChannel_frameStart (c : Cfg) (ch : Channel) (v : Byte) (s : State) : (emitChannel c ch v s).frameStart = s.frameStart := by simp [emitChannel]
@[simp] theorem emitChannel_lineStart (c : Cfg) (ch : Channel) (v : Byte) (s : State) : (emitChannel c ch v s).lineStart = s.lineStart := by simp [emitChannel]
@[simp] theorem emitChannel_fb0 (c : Cfg) (ch : Channel) (v : Byte) (s : State) : (emitChannel c ch v s).fb0 = s.fb0 := by simp [emitChannel]
@[simp] theorem emitChannel_fb1 (c : Cfg) (ch : Channel) (v : Byte) (s : State) : (emitChannel c ch v s).fb1 = s.fb1 := by simp [emitChannel]
@[simp] theorem emitChannel_front (c : Cfg) (ch : Channel) (v : Byte) (s : State) : (emitChannel c ch v s).front = s.front := by simp [emitChannel]
@[simp] theorem emitChannel_swapReq (c : Cfg) (ch : Channel) (v : Byte) (s : State) : (emitChannel c ch v s).swapReq = s.swapReq := by simp [emitChannel]
@[simp] theorem emitChannel_busy (c : Cfg) (ch : Channel) (v : Byte) (s : State) : (emitChannel c ch v s).busy = s.busy := by simp [emitChannel]
@[simp] theorem emitChannel_spin (c : Cfg) (ch : Channel) (v : Byte) (s : State) : (emitChannel c ch v s).spin = s.spin := by simp [emitChannel]
@[simp] theorem emitChannel_script (c : Cfg) (ch : Channel) (v : Byte) (s : State) : (emitChannel c ch v s).script = s.script := by simp [emitChannel]
@[simp] theorem emitChannel_work (c : Cfg) (ch : Channel) (v : Byte) (s : State) : (emitChannel c ch v s).work = s.work := by simp [emitChannel]
@[simp] theorem emitChannel_choices (c : Cfg) (ch : Channel) (v : Byte) (s : State) : (emitChannel c ch v s).choices = s.choices := by simp [emitChannel]
@[simp] theorem emitChannel_outcomes (c : Cfg) (ch : Channel) (v : Byte) (s : State) : (emitChannel c ch v s).outcomes = s.outcomes := by simp [emitChannel]
@[simp] theorem emitChannel_nfree (c : Cfg) (ch : Channel) (v : Byte) (s : State) : (emitChannel c ch v s).nfree = s.nfree := by simp [emitChannel]
@[simp] theorem emitChannel_alloc (c : Cfg) (ch : Channel) (v : Byte) (s : State) : (emitChannel c ch v s).alloc = s.alloc := by simp [emitChannel]
@[simp] theorem emitChannel_response (c : Cfg) (ch : Channel) (v : Byte) (s : State) : (emitChannel c ch v s).response = s.response := by simp [emitChannel]

/-! ### emitPixel -/

/-- A pixel is three channels, each emitted once (R105). -/
theorem emitPixel_three (c : Cfg) (p : Pixel) (s : State) : ∃ c₁ c₂ c₃,
    emitPixel c p s = emitChannel c c₃ (p.get c₃) (emitChannel c c₂ (p.get c₂) (emitChannel c c₁ (p.get c₁) s)) := by
  unfold emitPixel
  cases c.channelOrder <;> exact ⟨_, _, _, rfl⟩

@[simp] theorem emitPixel_fast (c : Cfg) (p : Pixel) (s : State) : (emitPixel c p s).fast = s.fast := by
  obtain ⟨_, _, _, h⟩ := emitPixel_three c p s
  simp [h]
@[simp] theorem emitPixel_slow (c : Cfg) (p : Pixel) (s : State) : (emitPixel c p s).slow = s.slow := by
  obtain ⟨_, _, _, h⟩ := emitPixel_three c p s
  simp [h]
@[simp] theorem emitPixel_pix (c : Cfg) (p : Pixel) (s : State) : (emitPixel c p s).pix = s.pix := by
  obtain ⟨_, _, _, h⟩ := emitPixel_three c p s
  simp [h]
@[simp] theorem emitPixel_vcnt (c : Cfg) (p : Pixel) (s : State) : (emitPixel c p s).vcnt = s.vcnt := by
  obtain ⟨_, _, _, h⟩ := emitPixel_three c p s
  simp [h]
@[simp] theorem emitPixel_hPhase (c : Cfg) (p : Pixel) (s : State) : (emitPixel c p s).hPhase = s.hPhase := by
  obtain ⟨_, _, _, h⟩ := emitPixel_three c p s
  simp [h]
@[simp] theorem emitPixel_vPhase (c : Cfg) (p : Pixel) (s : State) : (emitPixel c p s).vPhase = s.vPhase := by
  obtain ⟨_, _, _, h⟩ := emitPixel_three c p s
  simp [h]
@[simp] theorem emitPixel_alarmH (c : Cfg) (p : Pixel) (s : State) : (emitPixel c p s).alarmH = s.alarmH := by
  obtain ⟨_, _, _, h⟩ := emitPixel_three c p s
  simp [h]
@[simp] theorem emitPixel_alarmV (c : Cfg) (p : Pixel) (s : State) : (emitPixel c p s).alarmV = s.alarmV := by
  obtain ⟨_, _, _, h⟩ := emitPixel_three c p s
  simp [h]
@[simp] theorem emitPixel_armed (c : Cfg) (p : Pixel) (s : State) : (emitPixel c p s).armed = s.armed := by
  obtain ⟨_, _, _, h⟩ := emitPixel_three c p s
  simp [h]
@[simp] theorem emitPixel_fault (c : Cfg) (p : Pixel) (s : State) : (emitPixel c p s).fault = s.fault := by
  obtain ⟨_, _, _, h⟩ := emitPixel_three c p s
  simp [h]
@[simp] theorem emitPixel_md (c : Cfg) (p : Pixel) (s : State) : (emitPixel c p s).md = s.md := by
  obtain ⟨_, _, _, h⟩ := emitPixel_three c p s
  simp [h]
@[simp] theorem emitPixel_cnt (c : Cfg) (p : Pixel) (s : State) : (emitPixel c p s).cnt = s.cnt := by
  obtain ⟨_, _, _, h⟩ := emitPixel_three c p s
  simp [h]
@[simp] theorem emitPixel_frameStart (c : Cfg) (p : Pixel) (s : State) : (emitPixel c p s).frameStart = s.frameStart := by
  obtain ⟨_, _, _, h⟩ := emitPixel_three c p s
  simp [h]
@[simp] theorem emitPixel_lineStart (c : Cfg) (p : Pixel) (s : State) : (emitPixel c p s).lineStart = s.lineStart := by
  obtain ⟨_, _, _, h⟩ := emitPixel_three c p s
  simp [h]
@[simp] theorem emitPixel_fb0 (c : Cfg) (p : Pixel) (s : State) : (emitPixel c p s).fb0 = s.fb0 := by
  obtain ⟨_, _, _, h⟩ := emitPixel_three c p s
  simp [h]
@[simp] theorem emitPixel_fb1 (c : Cfg) (p : Pixel) (s : State) : (emitPixel c p s).fb1 = s.fb1 := by
  obtain ⟨_, _, _, h⟩ := emitPixel_three c p s
  simp [h]
@[simp] theorem emitPixel_front (c : Cfg) (p : Pixel) (s : State) : (emitPixel c p s).front = s.front := by
  obtain ⟨_, _, _, h⟩ := emitPixel_three c p s
  simp [h]
@[simp] theorem emitPixel_swapReq (c : Cfg) (p : Pixel) (s : State) : (emitPixel c p s).swapReq = s.swapReq := by
  obtain ⟨_, _, _, h⟩ := emitPixel_three c p s
  simp [h]
@[simp] theorem emitPixel_busy (c : Cfg) (p : Pixel) (s : State) : (emitPixel c p s).busy = s.busy := by
  obtain ⟨_, _, _, h⟩ := emitPixel_three c p s
  simp [h]
@[simp] theorem emitPixel_spin (c : Cfg) (p : Pixel) (s : State) : (emitPixel c p s).spin = s.spin := by
  obtain ⟨_, _, _, h⟩ := emitPixel_three c p s
  simp [h]
@[simp] theorem emitPixel_script (c : Cfg) (p : Pixel) (s : State) : (emitPixel c p s).script = s.script := by
  obtain ⟨_, _, _, h⟩ := emitPixel_three c p s
  simp [h]
@[simp] theorem emitPixel_work (c : Cfg) (p : Pixel) (s : State) : (emitPixel c p s).work = s.work := by
  obtain ⟨_, _, _, h⟩ := emitPixel_three c p s
  simp [h]
@[simp] theorem emitPixel_choices (c : Cfg) (p : Pixel) (s : State) : (emitPixel c p s).choices = s.choices := by
  obtain ⟨_, _, _, h⟩ := emitPixel_three c p s
  simp [h]
@[simp] theorem emitPixel_outcomes (c : Cfg) (p : Pixel) (s : State) : (emitPixel c p s).outcomes = s.outcomes := by
  obtain ⟨_, _, _, h⟩ := emitPixel_three c p s
  simp [h]
@[simp] theorem emitPixel_nfree (c : Cfg) (p : Pixel) (s : State) : (emitPixel c p s).nfree = s.nfree := by
  obtain ⟨_, _, _, h⟩ := emitPixel_three c p s
  simp [h]
@[simp] theorem emitPixel_alloc (c : Cfg) (p : Pixel) (s : State) : (emitPixel c p s).alloc = s.alloc := by
  obtain ⟨_, _, _, h⟩ := emitPixel_three c p s
  simp [h]
@[simp] theorem emitPixel_response (c : Cfg) (p : Pixel) (s : State) : (emitPixel c p s).response = s.response := by
  obtain ⟨_, _, _, h⟩ := emitPixel_three c p s
  simp [h]

/-! ### fetchAndEmit -/

@[simp] theorem fetchAndEmit_fast (c : Cfg) (s : State) : (fetchAndEmit c s).fast = s.fast := by simp [fetchAndEmit]
@[simp] theorem fetchAndEmit_slow (c : Cfg) (s : State) : (fetchAndEmit c s).slow = s.slow := by simp [fetchAndEmit]
@[simp] theorem fetchAndEmit_vcnt (c : Cfg) (s : State) : (fetchAndEmit c s).vcnt = s.vcnt := by simp [fetchAndEmit]
@[simp] theorem fetchAndEmit_hPhase (c : Cfg) (s : State) : (fetchAndEmit c s).hPhase = s.hPhase := by simp [fetchAndEmit]
@[simp] theorem fetchAndEmit_vPhase (c : Cfg) (s : State) : (fetchAndEmit c s).vPhase = s.vPhase := by simp [fetchAndEmit]
@[simp] theorem fetchAndEmit_alarmH (c : Cfg) (s : State) : (fetchAndEmit c s).alarmH = s.alarmH := by simp [fetchAndEmit]
@[simp] theorem fetchAndEmit_alarmV (c : Cfg) (s : State) : (fetchAndEmit c s).alarmV = s.alarmV := by simp [fetchAndEmit]
@[simp] theorem fetchAndEmit_armed (c : Cfg) (s : State) : (fetchAndEmit c s).armed = s.armed := by simp [fetchAndEmit]
@[simp] theorem fetchAndEmit_fault (c : Cfg) (s : State) : (fetchAndEmit c s).fault = s.fault := by simp [fetchAndEmit]
@[simp] theorem fetchAndEmit_md (c : Cfg) (s : State) : (fetchAndEmit c s).md = s.md := by simp [fetchAndEmit]
@[simp] theorem fetchAndEmit_cnt (c : Cfg) (s : State) : (fetchAndEmit c s).cnt = s.cnt := by simp [fetchAndEmit]
@[simp] theorem fetchAndEmit_frameStart (c : Cfg) (s : State) : (fetchAndEmit c s).frameStart = s.frameStart := by simp [fetchAndEmit]
@[simp] theorem fetchAndEmit_lineStart (c : Cfg) (s : State) : (fetchAndEmit c s).lineStart = s.lineStart := by simp [fetchAndEmit]
@[simp] theorem fetchAndEmit_fb0 (c : Cfg) (s : State) : (fetchAndEmit c s).fb0 = s.fb0 := by simp [fetchAndEmit]
@[simp] theorem fetchAndEmit_fb1 (c : Cfg) (s : State) : (fetchAndEmit c s).fb1 = s.fb1 := by simp [fetchAndEmit]
@[simp] theorem fetchAndEmit_front (c : Cfg) (s : State) : (fetchAndEmit c s).front = s.front := by simp [fetchAndEmit]
@[simp] theorem fetchAndEmit_swapReq (c : Cfg) (s : State) : (fetchAndEmit c s).swapReq = s.swapReq := by simp [fetchAndEmit]
@[simp] theorem fetchAndEmit_busy (c : Cfg) (s : State) : (fetchAndEmit c s).busy = s.busy := by simp [fetchAndEmit]
@[simp] theorem fetchAndEmit_spin (c : Cfg) (s : State) : (fetchAndEmit c s).spin = s.spin := by simp [fetchAndEmit]
@[simp] theorem fetchAndEmit_script (c : Cfg) (s : State) : (fetchAndEmit c s).script = s.script := by simp [fetchAndEmit]
@[simp] theorem fetchAndEmit_work (c : Cfg) (s : State) : (fetchAndEmit c s).work = s.work := by simp [fetchAndEmit]
@[simp] theorem fetchAndEmit_choices (c : Cfg) (s : State) : (fetchAndEmit c s).choices = s.choices := by simp [fetchAndEmit]
@[simp] theorem fetchAndEmit_outcomes (c : Cfg) (s : State) : (fetchAndEmit c s).outcomes = s.outcomes := by simp [fetchAndEmit]
@[simp] theorem fetchAndEmit_nfree (c : Cfg) (s : State) : (fetchAndEmit c s).nfree = s.nfree := by simp [fetchAndEmit]
@[simp] theorem fetchAndEmit_alloc (c : Cfg) (s : State) : (fetchAndEmit c s).alloc = s.alloc := by simp [fetchAndEmit]
@[simp] theorem fetchAndEmit_response (c : Cfg) (s : State) : (fetchAndEmit c s).response = s.response := by simp [fetchAndEmit]

/-! ### swapAtFrame -/

@[simp] theorem swapAtFrame_fast (c : Cfg) (s : State) : (swapAtFrame c s).fast = s.fast := by unfold swapAtFrame; split <;> rfl
@[simp] theorem swapAtFrame_slow (c : Cfg) (s : State) : (swapAtFrame c s).slow = s.slow := by unfold swapAtFrame; split <;> rfl
@[simp] theorem swapAtFrame_pix (c : Cfg) (s : State) : (swapAtFrame c s).pix = s.pix := by unfold swapAtFrame; split <;> rfl
@[simp] theorem swapAtFrame_vcnt (c : Cfg) (s : State) : (swapAtFrame c s).vcnt = s.vcnt := by unfold swapAtFrame; split <;> rfl
@[simp] theorem swapAtFrame_hPhase (c : Cfg) (s : State) : (swapAtFrame c s).hPhase = s.hPhase := by unfold swapAtFrame; split <;> rfl
@[simp] theorem swapAtFrame_vPhase (c : Cfg) (s : State) : (swapAtFrame c s).vPhase = s.vPhase := by unfold swapAtFrame; split <;> rfl
@[simp] theorem swapAtFrame_alarmH (c : Cfg) (s : State) : (swapAtFrame c s).alarmH = s.alarmH := by unfold swapAtFrame; split <;> rfl
@[simp] theorem swapAtFrame_alarmV (c : Cfg) (s : State) : (swapAtFrame c s).alarmV = s.alarmV := by unfold swapAtFrame; split <;> rfl
@[simp] theorem swapAtFrame_armed (c : Cfg) (s : State) : (swapAtFrame c s).armed = s.armed := by unfold swapAtFrame; split <;> rfl
@[simp] theorem swapAtFrame_fault (c : Cfg) (s : State) : (swapAtFrame c s).fault = s.fault := by unfold swapAtFrame; split <;> rfl
@[simp] theorem swapAtFrame_gpio (c : Cfg) (s : State) : (swapAtFrame c s).gpio = s.gpio := by unfold swapAtFrame; split <;> rfl
@[simp] theorem swapAtFrame_md (c : Cfg) (s : State) : (swapAtFrame c s).md = s.md := by unfold swapAtFrame; split <;> rfl
@[simp] theorem swapAtFrame_cnt (c : Cfg) (s : State) : (swapAtFrame c s).cnt = s.cnt := by unfold swapAtFrame; split <;> rfl
@[simp] theorem swapAtFrame_frameStart (c : Cfg) (s : State) : (swapAtFrame c s).frameStart = s.frameStart := by unfold swapAtFrame; split <;> rfl
@[simp] theorem swapAtFrame_lineStart (c : Cfg) (s : State) : (swapAtFrame c s).lineStart = s.lineStart := by unfold swapAtFrame; split <;> rfl
@[simp] theorem swapAtFrame_dac (c : Cfg) (s : State) : (swapAtFrame c s).dac = s.dac := by unfold swapAtFrame; split <;> rfl
@[simp] theorem swapAtFrame_fb0 (c : Cfg) (s : State) : (swapAtFrame c s).fb0 = s.fb0 := by unfold swapAtFrame; split <;> rfl
@[simp] theorem swapAtFrame_fb1 (c : Cfg) (s : State) : (swapAtFrame c s).fb1 = s.fb1 := by unfold swapAtFrame; split <;> rfl
@[simp] theorem swapAtFrame_busy (c : Cfg) (s : State) : (swapAtFrame c s).busy = s.busy := by unfold swapAtFrame; split <;> rfl
@[simp] theorem swapAtFrame_trace (c : Cfg) (s : State) : (swapAtFrame c s).trace = s.trace := by unfold swapAtFrame; split <;> rfl
@[simp] theorem swapAtFrame_spin (c : Cfg) (s : State) : (swapAtFrame c s).spin = s.spin := by unfold swapAtFrame; split <;> rfl
@[simp] theorem swapAtFrame_script (c : Cfg) (s : State) : (swapAtFrame c s).script = s.script := by unfold swapAtFrame; split <;> rfl
@[simp] theorem swapAtFrame_work (c : Cfg) (s : State) : (swapAtFrame c s).work = s.work := by unfold swapAtFrame; split <;> rfl
@[simp] theorem swapAtFrame_choices (c : Cfg) (s : State) : (swapAtFrame c s).choices = s.choices := by unfold swapAtFrame; split <;> rfl
@[simp] theorem swapAtFrame_outcomes (c : Cfg) (s : State) : (swapAtFrame c s).outcomes = s.outcomes := by unfold swapAtFrame; split <;> rfl
@[simp] theorem swapAtFrame_nfree (c : Cfg) (s : State) : (swapAtFrame c s).nfree = s.nfree := by unfold swapAtFrame; split <;> rfl
@[simp] theorem swapAtFrame_alloc (c : Cfg) (s : State) : (swapAtFrame c s).alloc = s.alloc := by unfold swapAtFrame; split <;> rfl
@[simp] theorem swapAtFrame_response (c : Cfg) (s : State) : (swapAtFrame c s).response = s.response := by unfold swapAtFrame; split <;> rfl

/-! ### timeVertical -/

@[simp] theorem timeVertical_fast (c : Cfg) (n th : Nat) (h : HandlerId) (s : State) : (timeVertical c n th h s).fast = s.fast := by unfold timeVertical; split <;> simp
@[simp] theorem timeVertical_slow (c : Cfg) (n th : Nat) (h : HandlerId) (s : State) : (timeVertical c n th h s).slow = s.slow := by unfold timeVertical; split <;> simp
@[simp] theorem timeVertical_pix (c : Cfg) (n th : Nat) (h : HandlerId) (s : State) : (timeVertical c n th h s).pix = s.pix := by unfold timeVertical; split <;> simp
@[simp] theorem timeVertical_hPhase (c : Cfg) (n th : Nat) (h : HandlerId) (s : State) : (timeVertical c n th h s).hPhase = s.hPhase := by unfold timeVertical; split <;> simp
@[simp] theorem timeVertical_vPhase (c : Cfg) (n th : Nat) (h : HandlerId) (s : State) : (timeVertical c n th h s).vPhase = s.vPhase := by unfold timeVertical; split <;> simp
@[simp] theorem timeVertical_armed (c : Cfg) (n th : Nat) (h : HandlerId) (s : State) : (timeVertical c n th h s).armed = s.armed := by unfold timeVertical; split <;> simp
@[simp] theorem timeVertical_fault (c : Cfg) (n th : Nat) (h : HandlerId) (s : State) : (timeVertical c n th h s).fault = s.fault := by unfold timeVertical; split <;> simp
@[simp] theorem timeVertical_gpio (c : Cfg) (n th : Nat) (h : HandlerId) (s : State) : (timeVertical c n th h s).gpio = s.gpio := by unfold timeVertical; split <;> simp
@[simp] theorem timeVertical_md (c : Cfg) (n th : Nat) (h : HandlerId) (s : State) : (timeVertical c n th h s).md = s.md := by unfold timeVertical; split <;> simp
@[simp] theorem timeVertical_cnt (c : Cfg) (n th : Nat) (h : HandlerId) (s : State) : (timeVertical c n th h s).cnt = s.cnt := by unfold timeVertical; split <;> simp
@[simp] theorem timeVertical_frameStart (c : Cfg) (n th : Nat) (h : HandlerId) (s : State) : (timeVertical c n th h s).frameStart = s.frameStart := by unfold timeVertical; split <;> simp
@[simp] theorem timeVertical_lineStart (c : Cfg) (n th : Nat) (h : HandlerId) (s : State) : (timeVertical c n th h s).lineStart = s.lineStart := by unfold timeVertical; split <;> simp
@[simp] theorem timeVertical_dac (c : Cfg) (n th : Nat) (h : HandlerId) (s : State) : (timeVertical c n th h s).dac = s.dac := by unfold timeVertical; split <;> simp
@[simp] theorem timeVertical_fb0 (c : Cfg) (n th : Nat) (h : HandlerId) (s : State) : (timeVertical c n th h s).fb0 = s.fb0 := by unfold timeVertical; split <;> simp
@[simp] theorem timeVertical_fb1 (c : Cfg) (n th : Nat) (h : HandlerId) (s : State) : (timeVertical c n th h s).fb1 = s.fb1 := by unfold timeVertical; split <;> simp
@[simp] theorem timeVertical_front (c : Cfg) (n th : Nat) (h : HandlerId) (s : State) : (timeVertical c n th h s).front = s.front := by unfold timeVertical; split <;> simp
@[simp] theorem timeVertical_swapReq (c : Cfg) (n th : Nat) (h : HandlerId) (s : State) : (timeVertical c n th h s).swapReq = s.swapReq := by unfold timeVertical; split <;> simp
@[simp] theorem timeVertical_busy (c : Cfg) (n th : Nat) (h : HandlerId) (s : State) : (timeVertical c n th h s).busy = s.busy := by unfold timeVertical; split <;> simp
@[simp] theorem timeVertical_trace (c : Cfg) (n th : Nat) (h : HandlerId) (s : State) : (timeVertical c n th h s).trace = s.trace := by unfold timeVertical; split <;> simp
@[simp] theorem timeVertical_script (c : Cfg) (n th : Nat) (h : HandlerId) (s : State) : (timeVertical c n th h s).script = s.script := by unfold timeVertical; split <;> simp
@[simp] theorem timeVertical_work (c : Cfg) (n th : Nat) (h : HandlerId) (s : State) : (timeVertical c n th h s).work = s.work := by unfold timeVertical; split <;> simp
@[simp] theorem timeVertical_choices (c : Cfg) (n th : Nat) (h : HandlerId) (s : State) : (timeVertical c n th h s).choices = s.choices := by unfold timeVertical; split <;> simp
@[simp] theorem timeVertical_outcomes (c : Cfg) (n th : Nat) (h : HandlerId) (s : State) : (timeVertical c n th h s).outcomes = s.outcomes := by unfold timeVertical; split <;> simp
@[simp] theorem timeVertical_nfree (c : Cfg) (n th : Nat) (h : HandlerId) (s : State) : (timeVertical c n th h s).nfree = s.nfree := by unfold timeVertical; split <;> simp
@[simp] theorem timeVertical_alloc (c : Cfg) (n th : Nat) (h : HandlerId) (s : State) : (timeVertical c n th h s).alloc = s.alloc := by unfold timeVertical; split <;> simp

/-! ### startActiveLine -/

@[simp] theorem startActiveLine_fast (c : Cfg) (s : State) : (startActiveLine c s).fast = s.fast := by simp [startActiveLine]
@[simp] theorem startActiveLine_slow (c : Cfg) (s : State) : (startActiveLine c s).slow = s.slow := by simp [startActiveLine]
@[simp] theorem startActiveLine_pix (c : Cfg) (s : State) : (startActiveLine c s).pix = s.pix := by simp [startActiveLine]
@[simp] theorem startActiveLine_vcnt (c : Cfg) (s : State) : (startActiveLine c s).vcnt = s.vcnt := by simp [startActiveLine]
@[simp] theorem startActiveLine_vPhase (c : Cfg) (s : State) : (startActiveLine c s).vPhase = s.vPhase := by simp [startActiveLine]
@[simp] theorem startActiveLine_armed (c : Cfg) (s : State) : (startActiveLine c s).armed = s.armed := by simp [startActiveLine]
@[simp] theorem startActiveLine_fault (c : Cfg) (s : State) : (startActiveLine c s).fault = s.fault := by simp [startActiveLine]
@[simp] theorem startActiveLine_gpio (c : Cfg) (s : State) : (startActiveLine c s).gpio = s.gpio := by simp [startActiveLine]
@[simp] theorem startActiveLine_md (c : Cfg) (s : State) : (startActiveLine c s).md = s.md := by simp [startActiveLine]
@[simp] theorem startActiveLine_cnt (c : Cfg) (s : State) : (startActiveLine c s).cnt = s.cnt := by simp [startActiveLine]
@[simp] theorem startActiveLine_frameStart (c : Cfg) (s : State) : (startActiveLine c s).frameStart = s.frameStart := by simp [startActiveLine]
@[simp] theorem startActiveLine_dac (c : Cfg) (s : State) : (startActiveLine c s).dac = s.dac := by simp [startActiveLine]
@[simp] theorem startActiveLine_fb0 (c : Cfg) (s : State) : (startActiveLine c s).fb0 = s.fb0 := by simp [startActiveLine]
@[simp] theorem startActiveLine_fb1 (c : Cfg) (s : State) : (startActiveLine c s).fb1 = s.fb1 := by simp [startActiveLine]
@[simp] theorem startActiveLine_front (c : Cfg) (s : State) : (startActiveLine c s).front = s.front := by simp [startActiveLine]
@[simp] theorem startActiveLine_swapReq (c : Cfg) (s : State) : (startActiveLine c s).swapReq = s.swapReq := by simp [startActiveLine]
@[simp] theorem startActiveLine_busy (c : Cfg) (s : State) : (startActiveLine c s).busy = s.busy := by simp [startActiveLine]
@[simp] theorem startActiveLine_trace (c : Cfg) (s : State) : (startActiveLine c s).trace = s.trace := by simp [startActiveLine]
@[simp] theorem startActiveLine_spin (c : Cfg) (s : State) : (startActiveLine c s).spin = s.spin := by simp [startActiveLine]
@[simp] theorem startActiveLine_script (c : Cfg) (s : State) : (startActiveLine c s).script = s.script := by simp [startActiveLine]
@[simp] theorem startActiveLine_work (c : Cfg) (s : State) : (startActiveLine c s).work = s.work := by simp [startActiveLine]
@[simp] theorem startActiveLine_choices (c : Cfg) (s : State) : (startActiveLine c s).choices = s.choices := by simp [startActiveLine]
@[simp] theorem startActiveLine_outcomes (c : Cfg) (s : State) : (startActiveLine c s).outcomes = s.outcomes := by simp [startActiveLine]
@[simp] theorem startActiveLine_nfree (c : Cfg) (s : State) : (startActiveLine c s).nfree = s.nfree := by simp [startActiveLine]
@[simp] theorem startActiveLine_alloc (c : Cfg) (s : State) : (startActiveLine c s).alloc = s.alloc := by simp [startActiveLine]

/-! ### startBlankLine -/

@[simp] theorem startBlankLine_fast (c : Cfg) (s : State) : (startBlankLine c s).fast = s.fast := by simp [startBlankLine]
@[simp] theorem startBlankLine_slow (c : Cfg) (s : State) : (startBlankLine c s).slow = s.slow := by simp [startBlankLine]
@[simp] theorem startBlankLine_pix (c : Cfg) (s : State) : (startBlankLine c s).pix = s.pix := by simp [startBlankLine]
@[simp] theorem startBlankLine_vcnt (c : Cfg) (s : State) : (startBlankLine c s).vcnt = s.vcnt := by simp [startBlankLine]
@[simp] theorem startBlankLine_vPhase (c : Cfg) (s : State) : (startBlankLine c s).vPhase = s.vPhase := by simp [startBlankLine]
@[simp] theorem startBlankLine_armed (c : Cfg) (s : State) : (startBlankLine c s).armed = s.armed := by simp [startBlankLine]
@[simp] theorem startBlankLine_fault (c : Cfg) (s : State) : (startBlankLine c s).fault = s.fault := by simp [startBlankLine]
@[simp] theorem startBlankLine_gpio (c : Cfg) (s : State) : (startBlankLine c s).gpio = s.gpio := by simp [startBlankLine]
@[simp] theorem startBlankLine_md (c : Cfg) (s : State) : (startBlankLine c s).md = s.md := by simp [startBlankLine]
@[simp] theorem startBlankLine_cnt (c : Cfg) (s : State) : (startBlankLine c s).cnt = s.cnt := by simp [startBlankLine]
@[simp] theorem startBlankLine_frameStart (c : Cfg) (s : State) : (startBlankLine c s).frameStart = s.frameStart := by simp [startBlankLine]
@[simp] theorem startBlankLine_dac (c : Cfg) (s : State) : (startBlankLine c s).dac = s.dac := by simp [startBlankLine]
@[simp] theorem startBlankLine_fb0 (c : Cfg) (s : State) : (startBlankLine c s).fb0 = s.fb0 := by simp [startBlankLine]
@[simp] theorem startBlankLine_fb1 (c : Cfg) (s : State) : (startBlankLine c s).fb1 = s.fb1 := by simp [startBlankLine]
@[simp] theorem startBlankLine_front (c : Cfg) (s : State) : (startBlankLine c s).front = s.front := by simp [startBlankLine]
@[simp] theorem startBlankLine_swapReq (c : Cfg) (s : State) : (startBlankLine c s).swapReq = s.swapReq := by simp [startBlankLine]
@[simp] theorem startBlankLine_busy (c : Cfg) (s : State) : (startBlankLine c s).busy = s.busy := by simp [startBlankLine]
@[simp] theorem startBlankLine_trace (c : Cfg) (s : State) : (startBlankLine c s).trace = s.trace := by simp [startBlankLine]
@[simp] theorem startBlankLine_spin (c : Cfg) (s : State) : (startBlankLine c s).spin = s.spin := by simp [startBlankLine]
@[simp] theorem startBlankLine_script (c : Cfg) (s : State) : (startBlankLine c s).script = s.script := by simp [startBlankLine]
@[simp] theorem startBlankLine_work (c : Cfg) (s : State) : (startBlankLine c s).work = s.work := by simp [startBlankLine]
@[simp] theorem startBlankLine_choices (c : Cfg) (s : State) : (startBlankLine c s).choices = s.choices := by simp [startBlankLine]
@[simp] theorem startBlankLine_outcomes (c : Cfg) (s : State) : (startBlankLine c s).outcomes = s.outcomes := by simp [startBlankLine]
@[simp] theorem startBlankLine_nfree (c : Cfg) (s : State) : (startBlankLine c s).nfree = s.nfree := by simp [startBlankLine]
@[simp] theorem startBlankLine_alloc (c : Cfg) (s : State) : (startBlankLine c s).alloc = s.alloc := by simp [startBlankLine]

/-! ### endActiveSlot -/

@[simp] theorem endActiveSlot_fast (c : Cfg) (s : State) : (endActiveSlot c s).fast = s.fast := by simp [endActiveSlot]
@[simp] theorem endActiveSlot_slow (c : Cfg) (s : State) : (endActiveSlot c s).slow = s.slow := by simp [endActiveSlot]
@[simp] theorem endActiveSlot_pix (c : Cfg) (s : State) : (endActiveSlot c s).pix = s.pix := by simp [endActiveSlot]
@[simp] theorem endActiveSlot_vcnt (c : Cfg) (s : State) : (endActiveSlot c s).vcnt = s.vcnt := by simp [endActiveSlot]
@[simp] theorem endActiveSlot_vPhase (c : Cfg) (s : State) : (endActiveSlot c s).vPhase = s.vPhase := by simp [endActiveSlot]
@[simp] theorem endActiveSlot_armed (c : Cfg) (s : State) : (endActiveSlot c s).armed = s.armed := by simp [endActiveSlot]
@[simp] theorem endActiveSlot_fault (c : Cfg) (s : State) : (endActiveSlot c s).fault = s.fault := by simp [endActiveSlot]
@[simp] theorem endActiveSlot_gpio (c : Cfg) (s : State) : (endActiveSlot c s).gpio = s.gpio := by simp [endActiveSlot]
@[simp] theorem endActiveSlot_md (c : Cfg) (s : State) : (endActiveSlot c s).md = s.md := by simp [endActiveSlot]
@[simp] theorem endActiveSlot_cnt (c : Cfg) (s : State) : (endActiveSlot c s).cnt = s.cnt := by simp [endActiveSlot]
@[simp] theorem endActiveSlot_frameStart (c : Cfg) (s : State) : (endActiveSlot c s).frameStart = s.frameStart := by simp [endActiveSlot]
@[simp] theorem endActiveSlot_lineStart (c : Cfg) (s : State) : (endActiveSlot c s).lineStart = s.lineStart := by simp [endActiveSlot]
@[simp] theorem endActiveSlot_dac (c : Cfg) (s : State) : (endActiveSlot c s).dac = s.dac := by simp [endActiveSlot]
@[simp] theorem endActiveSlot_fb0 (c : Cfg) (s : State) : (endActiveSlot c s).fb0 = s.fb0 := by simp [endActiveSlot]
@[simp] theorem endActiveSlot_fb1 (c : Cfg) (s : State) : (endActiveSlot c s).fb1 = s.fb1 := by simp [endActiveSlot]
@[simp] theorem endActiveSlot_front (c : Cfg) (s : State) : (endActiveSlot c s).front = s.front := by simp [endActiveSlot]
@[simp] theorem endActiveSlot_swapReq (c : Cfg) (s : State) : (endActiveSlot c s).swapReq = s.swapReq := by simp [endActiveSlot]
@[simp] theorem endActiveSlot_busy (c : Cfg) (s : State) : (endActiveSlot c s).busy = s.busy := by simp [endActiveSlot]
@[simp] theorem endActiveSlot_trace (c : Cfg) (s : State) : (endActiveSlot c s).trace = s.trace := by simp [endActiveSlot]
@[simp] theorem endActiveSlot_script (c : Cfg) (s : State) : (endActiveSlot c s).script = s.script := by simp [endActiveSlot]
@[simp] theorem endActiveSlot_work (c : Cfg) (s : State) : (endActiveSlot c s).work = s.work := by simp [endActiveSlot]
@[simp] theorem endActiveSlot_choices (c : Cfg) (s : State) : (endActiveSlot c s).choices = s.choices := by simp [endActiveSlot]
@[simp] theorem endActiveSlot_outcomes (c : Cfg) (s : State) : (endActiveSlot c s).outcomes = s.outcomes := by simp [endActiveSlot]
@[simp] theorem endActiveSlot_nfree (c : Cfg) (s : State) : (endActiveSlot c s).nfree = s.nfree := by simp [endActiveSlot]
@[simp] theorem endActiveSlot_alloc (c : Cfg) (s : State) : (endActiveSlot c s).alloc = s.alloc := by simp [endActiveSlot]

/-! ### advanceCursor -/

@[simp] theorem advanceCursor_pix (c : Cfg) (s : State) : (advanceCursor c s).pix = s.pix := by unfold advanceCursor; split <;> simp
@[simp] theorem advanceCursor_vcnt (c : Cfg) (s : State) : (advanceCursor c s).vcnt = s.vcnt := by unfold advanceCursor; split <;> simp
@[simp] theorem advanceCursor_vPhase (c : Cfg) (s : State) : (advanceCursor c s).vPhase = s.vPhase := by unfold advanceCursor; split <;> simp
@[simp] theorem advanceCursor_armed (c : Cfg) (s : State) : (advanceCursor c s).armed = s.armed := by unfold advanceCursor; split <;> simp
@[simp] theorem advanceCursor_fault (c : Cfg) (s : State) : (advanceCursor c s).fault = s.fault := by unfold advanceCursor; split <;> simp
@[simp] theorem advanceCursor_gpio (c : Cfg) (s : State) : (advanceCursor c s).gpio = s.gpio := by unfold advanceCursor; split <;> simp
@[simp] theorem advanceCursor_md (c : Cfg) (s : State) : (advanceCursor c s).md = s.md := by unfold advanceCursor; split <;> simp
@[simp] theorem advanceCursor_cnt (c : Cfg) (s : State) : (advanceCursor c s).cnt = s.cnt := by unfold advanceCursor; split <;> simp
@[simp] theorem advanceCursor_frameStart (c : Cfg) (s : State) : (advanceCursor c s).frameStart = s.frameStart := by unfold advanceCursor; split <;> simp
@[simp] theorem advanceCursor_lineStart (c : Cfg) (s : State) : (advanceCursor c s).lineStart = s.lineStart := by unfold advanceCursor; split <;> simp
@[simp] theorem advanceCursor_dac (c : Cfg) (s : State) : (advanceCursor c s).dac = s.dac := by unfold advanceCursor; split <;> simp
@[simp] theorem advanceCursor_fb0 (c : Cfg) (s : State) : (advanceCursor c s).fb0 = s.fb0 := by unfold advanceCursor; split <;> simp
@[simp] theorem advanceCursor_fb1 (c : Cfg) (s : State) : (advanceCursor c s).fb1 = s.fb1 := by unfold advanceCursor; split <;> simp
@[simp] theorem advanceCursor_front (c : Cfg) (s : State) : (advanceCursor c s).front = s.front := by unfold advanceCursor; split <;> simp
@[simp] theorem advanceCursor_swapReq (c : Cfg) (s : State) : (advanceCursor c s).swapReq = s.swapReq := by unfold advanceCursor; split <;> simp
@[simp] theorem advanceCursor_busy (c : Cfg) (s : State) : (advanceCursor c s).busy = s.busy := by unfold advanceCursor; split <;> simp
@[simp] theorem advanceCursor_trace (c : Cfg) (s : State) : (advanceCursor c s).trace = s.trace := by unfold advanceCursor; split <;> simp
@[simp] theorem advanceCursor_script (c : Cfg) (s : State) : (advanceCursor c s).script = s.script := by unfold advanceCursor; split <;> simp
@[simp] theorem advanceCursor_work (c : Cfg) (s : State) : (advanceCursor c s).work = s.work := by unfold advanceCursor; split <;> simp
@[simp] theorem advanceCursor_choices (c : Cfg) (s : State) : (advanceCursor c s).choices = s.choices := by unfold advanceCursor; split <;> simp
@[simp] theorem advanceCursor_outcomes (c : Cfg) (s : State) : (advanceCursor c s).outcomes = s.outcomes := by unfold advanceCursor; split <;> simp
@[simp] theorem advanceCursor_nfree (c : Cfg) (s : State) : (advanceCursor c s).nfree = s.nfree := by unfold advanceCursor; split <;> simp
@[simp] theorem advanceCursor_alloc (c : Cfg) (s : State) : (advanceCursor c s).alloc = s.alloc := by unfold advanceCursor; split <;> simp

/-! ### vEnterOp -/

@[simp] theorem vEnterOp_armed (s : State) : (vEnterOp s).armed = s.armed := by
  unfold vEnterOp handlerOp withMode; repeat' split
  all_goals simp
@[simp] theorem vEnterOp_fault (s : State) : (vEnterOp s).fault = s.fault := by
  unfold vEnterOp handlerOp withMode; repeat' split
  all_goals simp
@[simp] theorem vEnterOp_md (s : State) : (vEnterOp s).md = s.md := by
  unfold vEnterOp handlerOp withMode; repeat' split
  all_goals simp
@[simp] theorem vEnterOp_cnt (s : State) : (vEnterOp s).cnt = s.cnt := by
  unfold vEnterOp handlerOp withMode; repeat' split
  all_goals simp
@[simp] theorem vEnterOp_fb0 (s : State) : (vEnterOp s).fb0 = s.fb0 := by
  unfold vEnterOp handlerOp withMode; repeat' split
  all_goals simp
@[simp] theorem vEnterOp_fb1 (s : State) : (vEnterOp s).fb1 = s.fb1 := by
  unfold vEnterOp handlerOp withMode; repeat' split
  all_goals simp
@[simp] theorem vEnterOp_busy (s : State) : (vEnterOp s).busy = s.busy := by
  unfold vEnterOp handlerOp withMode; repeat' split
  all_goals simp
@[simp] theorem vEnterOp_script (s : State) : (vEnterOp s).script = s.script := by
  unfold vEnterOp handlerOp withMode; repeat' split
  all_goals simp
@[simp] theorem vEnterOp_work (s : State) : (vEnterOp s).work = s.work := by
  unfold vEnterOp handlerOp withMode; repeat' split
  all_goals simp
@[simp] theorem vEnterOp_choices (s : State) : (vEnterOp s).choices = s.choices := by
  unfold vEnterOp handlerOp withMode; repeat' split
  all_goals simp
@[simp] theorem vEnterOp_outcomes (s : State) : (vEnterOp s).outcomes = s.outcomes := by
  unfold vEnterOp handlerOp withMode; repeat' split
  all_goals simp
@[simp] theorem vEnterOp_nfree (s : State) : (vEnterOp s).nfree = s.nfree := by
  unfold vEnterOp handlerOp withMode; repeat' split
  all_goals simp
@[simp] theorem vEnterOp_alloc (s : State) : (vEnterOp s).alloc = s.alloc := by
  unfold vEnterOp handlerOp withMode; repeat' split
  all_goals simp

/-! ### vFpOp -/

@[simp] theorem vFpOp_armed (s : State) : (vFpOp s).armed = s.armed := by
  unfold vFpOp handlerOp withMode; repeat' split
  all_goals simp
@[simp] theorem vFpOp_fault (s : State) : (vFpOp s).fault = s.fault := by
  unfold vFpOp handlerOp withMode; repeat' split
  all_goals simp
@[simp] theorem vFpOp_md (s : State) : (vFpOp s).md = s.md := by
  unfold vFpOp handlerOp withMode; repeat' split
  all_goals simp
@[simp] theorem vFpOp_cnt (s : State) : (vFpOp s).cnt = s.cnt := by
  unfold vFpOp handlerOp withMode; repeat' split
  all_goals simp
@[simp] theorem vFpOp_fb0 (s : State) : (vFpOp s).fb0 = s.fb0 := by
  unfold vFpOp handlerOp withMode; repeat' split
  all_goals simp
@[simp] theorem vFpOp_fb1 (s : State) : (vFpOp s).fb1 = s.fb1 := by
  unfold vFpOp handlerOp withMode; repeat' split
  all_goals simp
@[simp] theorem vFpOp_busy (s : State) : (vFpOp s).busy = s.busy := by
  unfold vFpOp handlerOp withMode; repeat' split
  all_goals simp
@[simp] theorem vFpOp_script (s : State) : (vFpOp s).script = s.script := by
  unfold vFpOp handlerOp withMode; repeat' split
  all_goals simp
@[simp] theorem vFpOp_work (s : State) : (vFpOp s).work = s.work := by
  unfold vFpOp handlerOp withMode; repeat' split
  all_goals simp
@[simp] theorem vFpOp_choices (s : State) : (vFpOp s).choices = s.choices := by
  unfold vFpOp handlerOp withMode; repeat' split
  all_goals simp
@[simp] theorem vFpOp_outcomes (s : State) : (vFpOp s).outcomes = s.outcomes := by
  unfold vFpOp handlerOp withMode; repeat' split
  all_goals simp
@[simp] theorem vFpOp_nfree (s : State) : (vFpOp s).nfree = s.nfree := by
  unfold vFpOp handlerOp withMode; repeat' split
  all_goals simp
@[simp] theorem vFpOp_alloc (s : State) : (vFpOp s).alloc = s.alloc := by
  unfold vFpOp handlerOp withMode; repeat' split
  all_goals simp

/-! ### vSyncOp -/

@[simp] theorem vSyncOp_armed (s : State) : (vSyncOp s).armed = s.armed := by
  unfold vSyncOp handlerOp withMode; repeat' split
  all_goals simp
@[simp] theorem vSyncOp_fault (s : State) : (vSyncOp s).fault = s.fault := by
  unfold vSyncOp handlerOp withMode; repeat' split
  all_goals simp
@[simp] theorem vSyncOp_md (s : State) : (vSyncOp s).md = s.md := by
  unfold vSyncOp handlerOp withMode; repeat' split
  all_goals simp
@[simp] theorem vSyncOp_cnt (s : State) : (vSyncOp s).cnt = s.cnt := by
  unfold vSyncOp handlerOp withMode; repeat' split
  all_goals simp
@[simp] theorem vSyncOp_fb0 (s : State) : (vSyncOp s).fb0 = s.fb0 := by
  unfold vSyncOp handlerOp withMode; repeat' split
  all_goals simp
@[simp] theorem vSyncOp_fb1 (s : State) : (vSyncOp s).fb1 = s.fb1 := by
  unfold vSyncOp handlerOp withMode; repeat' split
  all_goals simp
@[simp] theorem vSyncOp_busy (s : State) : (vSyncOp s).busy = s.busy := by
  unfold vSyncOp handlerOp withMode; repeat' split
  all_goals simp
@[simp] theorem vSyncOp_script (s : State) : (vSyncOp s).script = s.script := by
  unfold vSyncOp handlerOp withMode; repeat' split
  all_goals simp
@[simp] theorem vSyncOp_work (s : State) : (vSyncOp s).work = s.work := by
  unfold vSyncOp handlerOp withMode; repeat' split
  all_goals simp
@[simp] theorem vSyncOp_choices (s : State) : (vSyncOp s).choices = s.choices := by
  unfold vSyncOp handlerOp withMode; repeat' split
  all_goals simp
@[simp] theorem vSyncOp_outcomes (s : State) : (vSyncOp s).outcomes = s.outcomes := by
  unfold vSyncOp handlerOp withMode; repeat' split
  all_goals simp
@[simp] theorem vSyncOp_nfree (s : State) : (vSyncOp s).nfree = s.nfree := by
  unfold vSyncOp handlerOp withMode; repeat' split
  all_goals simp
@[simp] theorem vSyncOp_alloc (s : State) : (vSyncOp s).alloc = s.alloc := by
  unfold vSyncOp handlerOp withMode; repeat' split
  all_goals simp

/-! ### vBpOp -/

@[simp] theorem vBpOp_armed (s : State) : (vBpOp s).armed = s.armed := by
  unfold vBpOp handlerOp withMode; repeat' split
  all_goals simp
@[simp] theorem vBpOp_fault (s : State) : (vBpOp s).fault = s.fault := by
  unfold vBpOp handlerOp withMode; repeat' split
  all_goals simp
@[simp] theorem vBpOp_md (s : State) : (vBpOp s).md = s.md := by
  unfold vBpOp handlerOp withMode; repeat' split
  all_goals simp
@[simp] theorem vBpOp_cnt (s : State) : (vBpOp s).cnt = s.cnt := by
  unfold vBpOp handlerOp withMode; repeat' split
  all_goals simp
@[simp] theorem vBpOp_fb0 (s : State) : (vBpOp s).fb0 = s.fb0 := by
  unfold vBpOp handlerOp withMode; repeat' split
  all_goals simp
@[simp] theorem vBpOp_fb1 (s : State) : (vBpOp s).fb1 = s.fb1 := by
  unfold vBpOp handlerOp withMode; repeat' split
  all_goals simp
@[simp] theorem vBpOp_busy (s : State) : (vBpOp s).busy = s.busy := by
  unfold vBpOp handlerOp withMode; repeat' split
  all_goals simp
@[simp] theorem vBpOp_script (s : State) : (vBpOp s).script = s.script := by
  unfold vBpOp handlerOp withMode; repeat' split
  all_goals simp
@[simp] theorem vBpOp_work (s : State) : (vBpOp s).work = s.work := by
  unfold vBpOp handlerOp withMode; repeat' split
  all_goals simp
@[simp] theorem vBpOp_choices (s : State) : (vBpOp s).choices = s.choices := by
  unfold vBpOp handlerOp withMode; repeat' split
  all_goals simp
@[simp] theorem vBpOp_outcomes (s : State) : (vBpOp s).outcomes = s.outcomes := by
  unfold vBpOp handlerOp withMode; repeat' split
  all_goals simp
@[simp] theorem vBpOp_nfree (s : State) : (vBpOp s).nfree = s.nfree := by
  unfold vBpOp handlerOp withMode; repeat' split
  all_goals simp
@[simp] theorem vBpOp_alloc (s : State) : (vBpOp s).alloc = s.alloc := by
  unfold vBpOp handlerOp withMode; repeat' split
  all_goals simp

/-! ### hActiveOp -/

@[simp] theorem hActiveOp_armed (s : State) : (hActiveOp s).armed = s.armed := by
  unfold hActiveOp handlerOp withMode; repeat' split
  all_goals try simp
  all_goals split <;> simp
@[simp] theorem hActiveOp_fault (s : State) : (hActiveOp s).fault = s.fault := by
  unfold hActiveOp handlerOp withMode; repeat' split
  all_goals try simp
  all_goals split <;> simp
@[simp] theorem hActiveOp_md (s : State) : (hActiveOp s).md = s.md := by
  unfold hActiveOp handlerOp withMode; repeat' split
  all_goals try simp
  all_goals split <;> simp
@[simp] theorem hActiveOp_cnt (s : State) : (hActiveOp s).cnt = s.cnt := by
  unfold hActiveOp handlerOp withMode; repeat' split
  all_goals try simp
  all_goals split <;> simp
@[simp] theorem hActiveOp_fb0 (s : State) : (hActiveOp s).fb0 = s.fb0 := by
  unfold hActiveOp handlerOp withMode; repeat' split
  all_goals try simp
  all_goals split <;> simp
@[simp] theorem hActiveOp_fb1 (s : State) : (hActiveOp s).fb1 = s.fb1 := by
  unfold hActiveOp handlerOp withMode; repeat' split
  all_goals try simp
  all_goals split <;> simp
@[simp] theorem hActiveOp_busy (s : State) : (hActiveOp s).busy = s.busy := by
  unfold hActiveOp handlerOp withMode; repeat' split
  all_goals try simp
  all_goals split <;> simp
@[simp] theorem hActiveOp_script (s : State) : (hActiveOp s).script = s.script := by
  unfold hActiveOp handlerOp withMode; repeat' split
  all_goals try simp
  all_goals split <;> simp
@[simp] theorem hActiveOp_work (s : State) : (hActiveOp s).work = s.work := by
  unfold hActiveOp handlerOp withMode; repeat' split
  all_goals try simp
  all_goals split <;> simp
@[simp] theorem hActiveOp_choices (s : State) : (hActiveOp s).choices = s.choices := by
  unfold hActiveOp handlerOp withMode; repeat' split
  all_goals try simp
  all_goals split <;> simp
@[simp] theorem hActiveOp_outcomes (s : State) : (hActiveOp s).outcomes = s.outcomes := by
  unfold hActiveOp handlerOp withMode; repeat' split
  all_goals try simp
  all_goals split <;> simp
@[simp] theorem hActiveOp_nfree (s : State) : (hActiveOp s).nfree = s.nfree := by
  unfold hActiveOp handlerOp withMode; repeat' split
  all_goals try simp
  all_goals split <;> simp
@[simp] theorem hActiveOp_alloc (s : State) : (hActiveOp s).alloc = s.alloc := by
  unfold hActiveOp handlerOp withMode; repeat' split
  all_goals try simp
  all_goals split <;> simp

/-! ### hFpOp -/

@[simp] theorem hFpOp_armed (s : State) : (hFpOp s).armed = s.armed := by
  unfold hFpOp handlerOp withMode; repeat' split
  all_goals simp
@[simp] theorem hFpOp_fault (s : State) : (hFpOp s).fault = s.fault := by
  unfold hFpOp handlerOp withMode; repeat' split
  all_goals simp
@[simp] theorem hFpOp_md (s : State) : (hFpOp s).md = s.md := by
  unfold hFpOp handlerOp withMode; repeat' split
  all_goals simp
@[simp] theorem hFpOp_cnt (s : State) : (hFpOp s).cnt = s.cnt := by
  unfold hFpOp handlerOp withMode; repeat' split
  all_goals simp
@[simp] theorem hFpOp_fb0 (s : State) : (hFpOp s).fb0 = s.fb0 := by
  unfold hFpOp handlerOp withMode; repeat' split
  all_goals simp
@[simp] theorem hFpOp_fb1 (s : State) : (hFpOp s).fb1 = s.fb1 := by
  unfold hFpOp handlerOp withMode; repeat' split
  all_goals simp
@[simp] theorem hFpOp_busy (s : State) : (hFpOp s).busy = s.busy := by
  unfold hFpOp handlerOp withMode; repeat' split
  all_goals simp
@[simp] theorem hFpOp_script (s : State) : (hFpOp s).script = s.script := by
  unfold hFpOp handlerOp withMode; repeat' split
  all_goals simp
@[simp] theorem hFpOp_work (s : State) : (hFpOp s).work = s.work := by
  unfold hFpOp handlerOp withMode; repeat' split
  all_goals simp
@[simp] theorem hFpOp_choices (s : State) : (hFpOp s).choices = s.choices := by
  unfold hFpOp handlerOp withMode; repeat' split
  all_goals simp
@[simp] theorem hFpOp_outcomes (s : State) : (hFpOp s).outcomes = s.outcomes := by
  unfold hFpOp handlerOp withMode; repeat' split
  all_goals simp
@[simp] theorem hFpOp_nfree (s : State) : (hFpOp s).nfree = s.nfree := by
  unfold hFpOp handlerOp withMode; repeat' split
  all_goals simp
@[simp] theorem hFpOp_alloc (s : State) : (hFpOp s).alloc = s.alloc := by
  unfold hFpOp handlerOp withMode; repeat' split
  all_goals simp

/-! ### hSyncOp -/

@[simp] theorem hSyncOp_armed (s : State) : (hSyncOp s).armed = s.armed := by
  unfold hSyncOp handlerOp withMode; repeat' split
  all_goals simp
@[simp] theorem hSyncOp_fault (s : State) : (hSyncOp s).fault = s.fault := by
  unfold hSyncOp handlerOp withMode; repeat' split
  all_goals simp
@[simp] theorem hSyncOp_md (s : State) : (hSyncOp s).md = s.md := by
  unfold hSyncOp handlerOp withMode; repeat' split
  all_goals simp
@[simp] theorem hSyncOp_cnt (s : State) : (hSyncOp s).cnt = s.cnt := by
  unfold hSyncOp handlerOp withMode; repeat' split
  all_goals simp
@[simp] theorem hSyncOp_fb0 (s : State) : (hSyncOp s).fb0 = s.fb0 := by
  unfold hSyncOp handlerOp withMode; repeat' split
  all_goals simp
@[simp] theorem hSyncOp_fb1 (s : State) : (hSyncOp s).fb1 = s.fb1 := by
  unfold hSyncOp handlerOp withMode; repeat' split
  all_goals simp
@[simp] theorem hSyncOp_busy (s : State) : (hSyncOp s).busy = s.busy := by
  unfold hSyncOp handlerOp withMode; repeat' split
  all_goals simp
@[simp] theorem hSyncOp_script (s : State) : (hSyncOp s).script = s.script := by
  unfold hSyncOp handlerOp withMode; repeat' split
  all_goals simp
@[simp] theorem hSyncOp_work (s : State) : (hSyncOp s).work = s.work := by
  unfold hSyncOp handlerOp withMode; repeat' split
  all_goals simp
@[simp] theorem hSyncOp_choices (s : State) : (hSyncOp s).choices = s.choices := by
  unfold hSyncOp handlerOp withMode; repeat' split
  all_goals simp
@[simp] theorem hSyncOp_outcomes (s : State) : (hSyncOp s).outcomes = s.outcomes := by
  unfold hSyncOp handlerOp withMode; repeat' split
  all_goals simp
@[simp] theorem hSyncOp_nfree (s : State) : (hSyncOp s).nfree = s.nfree := by
  unfold hSyncOp handlerOp withMode; repeat' split
  all_goals simp
@[simp] theorem hSyncOp_alloc (s : State) : (hSyncOp s).alloc = s.alloc := by
  unfold hSyncOp handlerOp withMode; repeat' split
  all_goals simp

/-! ### blankLineDone -/

@[simp] theorem blankLineDone_armed (c : Cfg) (s : State) : (blankLineDone c s).armed = s.armed := by
  unfold blankLineDone; dsimp only; repeat' split
  all_goals simp
@[simp] theorem blankLineDone_fault (c : Cfg) (s : State) : (blankLineDone c s).fault = s.fault := by
  unfold blankLineDone; dsimp only; repeat' split
  all_goals simp
@[simp] theorem blankLineDone_md (c : Cfg) (s : State) : (blankLineDone c s).md = s.md := by
  unfold blankLineDone; dsimp only; repeat' split
  all_goals simp
@[simp] theorem blankLineDone_cnt (c : Cfg) (s : State) : (blankLineDone c s).cnt = s.cnt := by
  unfold blankLineDone; dsimp only; repeat' split
  all_goals simp
@[simp] theorem blankLineDone_fb0 (c : Cfg) (s : State) : (blankLineDone c s).fb0 = s.fb0 := by
  unfold blankLineDone; dsimp only; repeat' split
  all_goals simp
@[simp] theorem blankLineDone_fb1 (c : Cfg) (s : State) : (blankLineDone c s).fb1 = s.fb1 := by
  unfold blankLineDone; dsimp only; repeat' split
  all_goals simp
@[simp] theorem blankLineDone_busy (c : Cfg) (s : State) : (blankLineDone c s).busy = s.busy := by
  unfold blankLineDone; dsimp only; repeat' split
  all_goals simp
@[simp] theorem blankLineDone_script (c : Cfg) (s : State) : (blankLineDone c s).script = s.script := by
  unfold blankLineDone; dsimp only; repeat' split
  all_goals simp
@[simp] theorem blankLineDone_work (c : Cfg) (s : State) : (blankLineDone c s).work = s.work := by
  unfold blankLineDone; dsimp only; repeat' split
  all_goals simp
@[simp] theorem blankLineDone_choices (c : Cfg) (s : State) : (blankLineDone c s).choices = s.choices := by
  unfold blankLineDone; dsimp only; repeat' split
  all_goals simp
@[simp] theorem blankLineDone_outcomes (c : Cfg) (s : State) : (blankLineDone c s).outcomes = s.outcomes := by
  unfold blankLineDone; dsimp only; repeat' split
  all_goals simp
@[simp] theorem blankLineDone_nfree (c : Cfg) (s : State) : (blankLineDone c s).nfree = s.nfree := by
  unfold blankLineDone; dsimp only; repeat' split
  all_goals simp
@[simp] theorem blankLineDone_alloc (c : Cfg) (s : State) : (blankLineDone c s).alloc = s.alloc := by
  unfold blankLineDone; dsimp only; repeat' split
  all_goals simp

/-! ### hBpOp -/

@[simp] theorem hBpOp_armed (s : State) : (hBpOp s).armed = s.armed := by
  unfold hBpOp handlerOp withMode; repeat' split
  all_goals try simp
  all_goals split <;> simp
@[simp] theorem hBpOp_fault (s : State) : (hBpOp s).fault = s.fault := by
  unfold hBpOp handlerOp withMode; repeat' split
  all_goals try simp
  all_goals split <;> simp
@[simp] theorem hBpOp_md (s : State) : (hBpOp s).md = s.md := by
  unfold hBpOp handlerOp withMode; repeat' split
  all_goals try simp
  all_goals split <;> simp
@[simp] theorem hBpOp_cnt (s : State) : (hBpOp s).cnt = s.cnt := by
  unfold hBpOp handlerOp withMode; repeat' split
  all_goals try simp
  all_goals split <;> simp
@[simp] theorem hBpOp_fb0 (s : State) : (hBpOp s).fb0 = s.fb0 := by
  unfold hBpOp handlerOp withMode; repeat' split
  all_goals try simp
  all_goals split <;> simp
@[simp] theorem hBpOp_fb1 (s : State) : (hBpOp s).fb1 = s.fb1 := by
  unfold hBpOp handlerOp withMode; repeat' split
  all_goals try simp
  all_goals split <;> simp
@[simp] theorem hBpOp_busy (s : State) : (hBpOp s).busy = s.busy := by
  unfold hBpOp handlerOp withMode; repeat' split
  all_goals try simp
  all_goals split <;> simp
@[simp] theorem hBpOp_script (s : State) : (hBpOp s).script = s.script := by
  unfold hBpOp handlerOp withMode; repeat' split
  all_goals try simp
  all_goals split <;> simp
@[simp] theorem hBpOp_work (s : State) : (hBpOp s).work = s.work := by
  unfold hBpOp handlerOp withMode; repeat' split
  all_goals try simp
  all_goals split <;> simp
@[simp] theorem hBpOp_choices (s : State) : (hBpOp s).choices = s.choices := by
  unfold hBpOp handlerOp withMode; repeat' split
  all_goals try simp
  all_goals split <;> simp
@[simp] theorem hBpOp_outcomes (s : State) : (hBpOp s).outcomes = s.outcomes := by
  unfold hBpOp handlerOp withMode; repeat' split
  all_goals try simp
  all_goals split <;> simp
@[simp] theorem hBpOp_nfree (s : State) : (hBpOp s).nfree = s.nfree := by
  unfold hBpOp handlerOp withMode; repeat' split
  all_goals try simp
  all_goals split <;> simp
@[simp] theorem hBpOp_alloc (s : State) : (hBpOp s).alloc = s.alloc := by
  unfold hBpOp handlerOp withMode; repeat' split
  all_goals try simp
  all_goals split <;> simp

/-! ### runHandler -/

@[simp] theorem runHandler_armed (h : HandlerId) (s : State) : (runHandler h s).armed = s.armed := by
  cases h <;> simp [runHandler]
@[simp] theorem runHandler_fault (h : HandlerId) (s : State) : (runHandler h s).fault = s.fault := by
  cases h <;> simp [runHandler]
@[simp] theorem runHandler_md (h : HandlerId) (s : State) : (runHandler h s).md = s.md := by
  cases h <;> simp [runHandler]
@[simp] theorem runHandler_cnt (h : HandlerId) (s : State) : (runHandler h s).cnt = s.cnt := by
  cases h <;> simp [runHandler]
@[simp] theorem runHandler_fb0 (h : HandlerId) (s : State) : (runHandler h s).fb0 = s.fb0 := by
  cases h <;> simp [runHandler]
@[simp] theorem runHandler_fb1 (h : HandlerId) (s : State) : (runHandler h s).fb1 = s.fb1 := by
  cases h <;> simp [runHandler]
@[simp] theorem runHandler_busy (h : HandlerId) (s : State) : (runHandler h s).busy = s.busy := by
  cases h <;> simp [runHandler]
@[simp] theorem runHandler_script (h : HandlerId) (s : State) : (runHandler h s).script = s.script := by
  cases h <;> simp [runHandler]
@[simp] theorem runHandler_work (h : HandlerId) (s : State) : (runHandler h s).work = s.work := by
  cases h <;> simp [runHandler]
@[simp] theorem runHandler_choices (h : HandlerId) (s : State) : (runHandler h s).choices = s.choices := by
  cases h <;> simp [runHandler]
@[simp] theorem runHandler_outcomes (h : HandlerId) (s : State) : (runHandler h s).outcomes = s.outcomes := by
  cases h <;> simp [runHandler]
@[simp] theorem runHandler_nfree (h : HandlerId) (s : State) : (runHandler h s).nfree = s.nfree := by
  cases h <;> simp [runHandler]
@[simp] theorem runHandler_alloc (h : HandlerId) (s : State) : (runHandler h s).alloc = s.alloc := by
  cases h <;> simp [runHandler]

/-! ### dispatch, serveAlarms, tick: what no tick writes -/

@[simp] theorem dispatch_armed (a : Axis) (s : State) : (dispatch a s).armed = s.armed := by simp [dispatch]
@[simp] theorem serveAlarms_armed (n : Nat) (s : State) : (serveAlarms n s).armed = s.armed := by
  induction n generalizing s with
  | zero => rfl
  | succ n ih => unfold serveAlarms; split <;> [skip; split] <;> simp [ih]
@[simp] theorem tick_armed (s : State) : (tick s).armed = s.armed := by simp [tick]
@[simp] theorem dispatch_fault (a : Axis) (s : State) : (dispatch a s).fault = s.fault := by simp [dispatch]
@[simp] theorem serveAlarms_fault (n : Nat) (s : State) : (serveAlarms n s).fault = s.fault := by
  induction n generalizing s with
  | zero => rfl
  | succ n ih => unfold serveAlarms; split <;> [skip; split] <;> simp [ih]
@[simp] theorem tick_fault (s : State) : (tick s).fault = s.fault := by simp [tick]
@[simp] theorem dispatch_md (a : Axis) (s : State) : (dispatch a s).md = s.md := by simp [dispatch]
@[simp] theorem serveAlarms_md (n : Nat) (s : State) : (serveAlarms n s).md = s.md := by
  induction n generalizing s with
  | zero => rfl
  | succ n ih => unfold serveAlarms; split <;> [skip; split] <;> simp [ih]
@[simp] theorem tick_md (s : State) : (tick s).md = s.md := by simp [tick]
@[simp] theorem dispatch_cnt (a : Axis) (s : State) : (dispatch a s).cnt = s.cnt := by simp [dispatch]
@[simp] theorem serveAlarms_cnt (n : Nat) (s : State) : (serveAlarms n s).cnt = s.cnt := by
  induction n generalizing s with
  | zero => rfl
  | succ n ih => unfold serveAlarms; split <;> [skip; split] <;> simp [ih]
@[simp] theorem dispatch_fb0 (a : Axis) (s : State) : (dispatch a s).fb0 = s.fb0 := by simp [dispatch]
@[simp] theorem serveAlarms_fb0 (n : Nat) (s : State) : (serveAlarms n s).fb0 = s.fb0 := by
  induction n generalizing s with
  | zero => rfl
  | succ n ih => unfold serveAlarms; split <;> [skip; split] <;> simp [ih]
@[simp] theorem tick_fb0 (s : State) : (tick s).fb0 = s.fb0 := by simp [tick]
@[simp] theorem dispatch_fb1 (a : Axis) (s : State) : (dispatch a s).fb1 = s.fb1 := by simp [dispatch]
@[simp] theorem serveAlarms_fb1 (n : Nat) (s : State) : (serveAlarms n s).fb1 = s.fb1 := by
  induction n generalizing s with
  | zero => rfl
  | succ n ih => unfold serveAlarms; split <;> [skip; split] <;> simp [ih]
@[simp] theorem tick_fb1 (s : State) : (tick s).fb1 = s.fb1 := by simp [tick]
@[simp] theorem dispatch_script (a : Axis) (s : State) : (dispatch a s).script = s.script := by simp [dispatch]
@[simp] theorem serveAlarms_script (n : Nat) (s : State) : (serveAlarms n s).script = s.script := by
  induction n generalizing s with
  | zero => rfl
  | succ n ih => unfold serveAlarms; split <;> [skip; split] <;> simp [ih]
@[simp] theorem tick_script (s : State) : (tick s).script = s.script := by simp [tick]
@[simp] theorem dispatch_work (a : Axis) (s : State) : (dispatch a s).work = s.work := by simp [dispatch]
@[simp] theorem serveAlarms_work (n : Nat) (s : State) : (serveAlarms n s).work = s.work := by
  induction n generalizing s with
  | zero => rfl
  | succ n ih => unfold serveAlarms; split <;> [skip; split] <;> simp [ih]
@[simp] theorem tick_work (s : State) : (tick s).work = s.work := by simp [tick]
@[simp] theorem dispatch_choices (a : Axis) (s : State) : (dispatch a s).choices = s.choices := by simp [dispatch]
@[simp] theorem serveAlarms_choices (n : Nat) (s : State) : (serveAlarms n s).choices = s.choices := by
  induction n generalizing s with
  | zero => rfl
  | succ n ih => unfold serveAlarms; split <;> [skip; split] <;> simp [ih]
@[simp] theorem tick_choices (s : State) : (tick s).choices = s.choices := by simp [tick]
@[simp] theorem dispatch_outcomes (a : Axis) (s : State) : (dispatch a s).outcomes = s.outcomes := by simp [dispatch]
@[simp] theorem serveAlarms_outcomes (n : Nat) (s : State) : (serveAlarms n s).outcomes = s.outcomes := by
  induction n generalizing s with
  | zero => rfl
  | succ n ih => unfold serveAlarms; split <;> [skip; split] <;> simp [ih]
@[simp] theorem tick_outcomes (s : State) : (tick s).outcomes = s.outcomes := by simp [tick]
@[simp] theorem dispatch_nfree (a : Axis) (s : State) : (dispatch a s).nfree = s.nfree := by simp [dispatch]
@[simp] theorem serveAlarms_nfree (n : Nat) (s : State) : (serveAlarms n s).nfree = s.nfree := by
  induction n generalizing s with
  | zero => rfl
  | succ n ih => unfold serveAlarms; split <;> [skip; split] <;> simp [ih]
@[simp] theorem tick_nfree (s : State) : (tick s).nfree = s.nfree := by simp [tick]
@[simp] theorem dispatch_alloc (a : Axis) (s : State) : (dispatch a s).alloc = s.alloc := by simp [dispatch]
@[simp] theorem serveAlarms_alloc (n : Nat) (s : State) : (serveAlarms n s).alloc = s.alloc := by
  induction n generalizing s with
  | zero => rfl
  | succ n ih => unfold serveAlarms; split <;> [skip; split] <;> simp [ih]
@[simp] theorem tick_alloc (s : State) : (tick s).alloc = s.alloc := by simp [tick]
/-- A tick adds one to CNT (R33, R164). -/
@[simp] theorem tick_cnt (s : State) : (tick s).cnt = s.cnt + 1 := by simp [tick]

end Sys2Proof.Machine
end

