-- ==== Sys2Proof/Laws/Pins.lean ====
section
/-! SUPPORT. Nat sets, the two GPIO register operations, and the Pixel Output Primitive over them. -/

namespace Sys2Proof.Machine

@[simp] theorem mem_pinInsert (p q : Nat) (l : List Nat) : q ∈ pinInsert p l ↔ q = p ∨ q ∈ l := by
  induction l with
  | nil => simp [pinInsert]
  | cons x l ih =>
    unfold pinInsert
    split
    · simp
    · split
      · next h => subst h; simp
      · simp only [List.mem_cons, ih]; tauto

@[simp] theorem mem_foldr_pinInsert (ps l : List Nat) (q : Nat) :
    q ∈ ps.foldr pinInsert l ↔ q ∈ ps ∨ q ∈ l := by
  induction ps with
  | nil => simp
  | cons p ps ih => simp [ih, or_assoc]

@[simp] theorem mem_pinSet (ps : List Nat) (q : Nat) : q ∈ pinSet ps ↔ q ∈ ps := by simp [pinSet]

theorem pinInsert_sorted {l : List Nat} (h : l.Pairwise (· < ·)) (p : Nat) : (pinInsert p l).Pairwise (· < ·) := by
  induction l with
  | nil => simp [pinInsert]
  | cons x l ih =>
    obtain ⟨hx, hl⟩ := List.pairwise_cons.1 h
    unfold pinInsert
    split
    · next hp =>
      refine List.pairwise_cons.2 ⟨fun q hq => ?_, h⟩
      rcases List.mem_cons.1 hq with rfl | hq
      · exact hp
      · exact hp.trans (hx q hq)
    · split
      · exact h
      · refine List.pairwise_cons.2 ⟨fun q hq => ?_, ih hl⟩
        rcases (mem_pinInsert p q l).1 hq with rfl | hq
        · omega
        · exact hx q hq

theorem foldr_pinInsert_sorted {l : List Nat} (h : l.Pairwise (· < ·)) (ps : List Nat) :
    (ps.foldr pinInsert l).Pairwise (· < ·) := by
  induction ps with
  | nil => exact h
  | cons p ps ih => exact pinInsert_sorted ih p

theorem pinSet_sorted (ps : List Nat) : (pinSet ps).Pairwise (· < ·) :=
  foldr_pinInsert_sorted List.Pairwise.nil ps

/-- MASK(v), as R76 defines the set. -/
theorem mem_maskPins (t : PinTable) (v : Byte) (p : Nat) :
    p ∈ maskPins t v ↔ ∃ i, i < 8 ∧ v.getLsbD i = true ∧ t.get i = some p := by
  simp only [maskPins, mem_pinSet, List.mem_filterMap, channelBits]
  constructor
  · rintro ⟨i, hi, h⟩
    split at h
    · next hv =>
      refine ⟨i, ?_, hv, h⟩
      simp at hi
      omega
    · cases h
  · rintro ⟨i, hi, hv, h⟩
    refine ⟨i, ?_, by simp [hv, h]⟩
    simp
    omega

/-- `PinSet(S)` asserts every pin of S and leaves the others (R35). -/
@[simp] theorem asserted_pinSetOp (ps : List Nat) (s : State) (p : Nat) :
    (pinSetOp ps s).asserted p = (ps.contains p || s.asserted p) := by
  rw [Bool.eq_iff_iff]
  simp [State.asserted, pinSetOp]

/-- `PinClear(S)` deasserts every pin of S and leaves the others (R35). -/
@[simp] theorem asserted_pinClearOp (ps : List Nat) (s : State) (p : Nat) :
    (pinClearOp ps s).asserted p = (s.asserted p && !ps.contains p) := by
  rw [Bool.eq_iff_iff]
  simp [State.asserted, pinClearOp]

theorem pinSetOp_gpio_sorted {s : State} (h : s.gpio.Pairwise (· < ·)) (ps : List Nat) :
    (pinSetOp ps s).gpio.Pairwise (· < ·) := foldr_pinInsert_sorted h ps

theorem pinClearOp_gpio_sorted {s : State} (h : s.gpio.Pairwise (· < ·)) (ps : List Nat) :
    (pinClearOp ps s).gpio.Pairwise (· < ·) := h.filter _

end Sys2Proof.Machine
end

