-- ==== Sys2Proof/Laws/Alarms.lean ====
section
/-! SUPPORT. What the alarm operations do: programming one, the tail of a blanking handler, the start of a line,
and the common tests that open an operation. -/

namespace Sys2Proof.Machine

/-- `SETALARM` with legal operands writes one alarm (R165). -/
theorem setAlarm_ok {a : Axis} {d : Nat} {h : HandlerId} (hok : setalarmOk a d h = true) (s : State) :
    setAlarm a d h s = s.setAlarmRec a ⟨true, s.cnt + d, h⟩ := by simp [setAlarm, hok]

/-- `SETALARM` with an illegal operand is refused (R165, R79). -/
theorem setAlarm_refused {a : Axis} {d : Nat} {h : HandlerId} (hok : setalarmOk a d h = false) (s : State) :
    setAlarm a d h s = refuse .badOp s := by simp [setAlarm, hok]

/-- The engine's own calls are legal as soon as their duration is positive (R165). -/
theorem setalarmOk_of_pos {d : Nat} (hd : 1 ≤ d) :
    setalarmOk .H d .hActive = true ∧ setalarmOk .H d .hFp = true ∧ setalarmOk .H d .hSync = true
    ∧ setalarmOk .H d .hBp = true ∧ setalarmOk .V d .vFp = true ∧ setalarmOk .V d .vSync = true
    ∧ setalarmOk .V d .vBp = true := by
  have : d ≠ 0 := by omega
  simp [setalarmOk, HandlerId.axis, this]

/-- The tail of a blanking handler, where the duration and the threshold name the same instant: the alarm holds
the instant and the successor; under FREE_RUNNING the invocation spins until then (R168 to R171). -/
theorem chain_eq {c : Cfg} {a : Axis} {d th : Nat} {h : HandlerId} {s : State} (hok : setalarmOk a d h = true)
    (hth : s.cnt + d = th) :
    chain c a d th h s
      = { s.setAlarmRec a ⟨true, th, h⟩ with
          spin := if c.strategy = .freeRunning then some (.thenRun a) else s.spin } := by
  have hd : 0 < d := by
    simp only [setalarmOk, Bool.and_eq_true, bne_iff_ne, ne_eq] at hok
    omega
  subst hth
  unfold chain
  cases c.strategy
  · simp only [setAlarm_ok hok, reduceCtorEq, if_false]
    cases a <;> rfl
  · simp [spinThen, hd]

/-- start_active_line (R126). -/
theorem startActiveLine_eq {c : Cfg} (hp : 1 ≤ c.pixelPeriod) (s : State) :
    startActiveLine c s
      = { s with hPhase := .activePixel, lineStart := s.cnt, alarmH := ⟨true, s.cnt + c.pixelPeriod, .hActive⟩ } := by
  simp only [startActiveLine, setAlarm_ok (setalarmOk_of_pos hp).1]
  rfl

/-- start_blank_line (R126). -/
theorem startBlankLine_eq {c : Cfg} (hp : 1 ≤ c.hActive) (s : State) :
    startBlankLine c s
      = { s with hPhase := .activePixel, lineStart := s.cnt, alarmH := ⟨true, s.cnt + c.hActive, .hActive⟩ } := by
  simp only [startBlankLine, setAlarm_ok (setalarmOk_of_pos hp).1]
  rfl

/-- A handler whose precondition holds runs its body (R204). -/
theorem handlerOp_run {s : State} {pre : Bool} {c : Cfg} (hb : s.busy = true) (ha : s.armed = true)
    (hm : s.md = some c) (hp : pre = true) (k : Cfg → State) : handlerOp s pre k = k c := by
  simp [handlerOp, hb, ha, hp, withMode, hm]

/-- Outside the interrupt context a handler is refused (R80). -/
theorem handlerOp_refused {s : State} {pre : Bool} (h : s.busy = false) (k : Cfg → State) :
    handlerOp s pre k = refuse .badOp s := by simp [handlerOp, h]

/-- A normal-context operation that passes the common tests runs its body (R204). -/
theorem normalOp_run {s : State} (hb : s.busy = false) (hf : s.fault = .none) (k : State) : normalOp s k = k := by
  simp [normalOp, hb, hf]

/-- What a normal-context operation can be: refused without a change, or its body (R204). -/
theorem normalOp_cases (s k : State) :
    (∃ r, normalOp s k = refuse r s) ∨ s.busy = false ∧ s.fault = .none ∧ normalOp s k = k := by
  unfold normalOp
  by_cases hb : s.busy = true
  · exact .inl ⟨.badOp, by simp [hb]⟩
  · by_cases hf : s.fault = .none
    · exact .inr ⟨by simpa using hb, hf, by simp [hb, hf]⟩
    · exact .inl ⟨.faulted, by simp [hb, hf]⟩

/-- What an operation that needs the mode can be (R204). -/
theorem withMode_cases (s : State) (k : Cfg → State) :
    (∃ r, withMode s k = refuse r s) ∨ ∃ c, s.md = some c ∧ withMode s k = k c := by
  unfold withMode
  cases hm : s.md with
  | none => exact .inl ⟨_, rfl⟩
  | some c => exact .inr ⟨c, rfl, rfl⟩

end Sys2Proof.Machine
end

