-- ==== Sys2Proof/Laws/Answers.lean ====
section
/-! SUPPORT. What an operation answers, from the tests its meaning opens with: the common refusals of R204, a raised
fault, and the body once the tests are passed. -/

namespace Sys2Proof.Machine

/-- A normal-context operation that needs the mode opens with R204's three refusals. -/
theorem modeRefusals_of {i : Instr} {s : State} {k : Cfg → State}
    (h : exec i s = .next (normalOp s (withMode s k))) : modeRefusals i s := by
  refine ⟨⟨fun hb => ?_, fun hb hf => ?_⟩, fun hb hf hm => ?_⟩ <;> rw [h] <;> simp [normalOp, withMode, refuse, *]

/-- A normal-context operation opens with R204's two refusals. -/
theorem normalRefusals_of {i : Instr} {s k : State} (h : exec i s = .next (normalOp s k)) : normalRefusals i s := by
  refine ⟨fun hb => ?_, fun hb hf => ?_⟩ <;> rw [h] <;> simp [normalOp, refuse, *]

/-- A normal-context operation runs its body under mode `c`. -/
theorem ready.run {i : Instr} {s : State} {k : Cfg → State} {c : Cfg} (hr : ready c s)
    (h : exec i s = .next (normalOp s (withMode s k))) : exec i s = .next (k c) := by
  obtain ⟨hb, hf, hm⟩ := hr
  rw [h]
  simp [normalOp, withMode, *]

/-- A primitive runs its body under mode `c`. -/
theorem primitiveReady.run {i : Instr} {s : State} {k : Cfg → State} {c : Cfg} (hr : primitiveReady c s)
    (h : exec i s = .next (primitiveOp s k)) : exec i s = .next (k c) := by
  obtain ⟨hb, hm⟩ := hr
  rw [h]
  rcases hb with hb | hb <;> simp [primitiveOp, withMode, *]

/-- A raised fault, seen by the issuer (R203). -/
theorem raises_of {i : Instr} {s : State} {c : Cfg} {f : FaultCode} (hr : ready c s)
    (h : exec i s = .next (raiseNormal f s)) : raises i s f :=
  ⟨_, h, by simp [raiseNormal, setFault, hr.2.1], rfl, by simp [raiseNormal, setFault]⟩

/-- A handler without its precondition is refused (R204). -/
theorem handlerOp_badOp {s : State} {pre : Bool} {P : Prop} (hP : pre = true ↔ P) (k : Cfg → State)
    (h : ¬ (s.busy = true ∧ s.armed = true ∧ P)) : handlerOp s pre k = refusedWith .badOp s := by
  unfold handlerOp
  rw [if_neg]
  · rfl
  · rw [← hP] at h
    simpa [and_assoc] using h

/-- A handler with its precondition runs its body. -/
theorem handlerReady.run {s : State} {pre : Bool} {c : Cfg} (hr : handlerReady c s) (hp : pre = true)
    (k : Cfg → State) : handlerOp s pre k = k c :=
  handlerOp_run hr.1 hr.2.1 hr.2.2.1 hp k

/-- The machine's test of a due alarm is the claim's (R166). -/
theorem alarmDue_iff {a : Axis} {s : State} : alarmDue a s = true ↔ due a s := by
  simp [alarmDue, due, and_assoc]

theorem alarmDue_eq_false {a : Axis} {s : State} : alarmDue a s = false ↔ ¬ due a s := by
  rw [← alarmDue_iff]
  simp

/-- A dispatch of a due alarm (R166). -/
theorem exec_dispatch_due {a : Axis} {s : State} (h : due a s) : exec (.schDispatch a) s = .next (dispatch a s) := by
  simp [exec, execSchDispatch, alarmDue_iff.2 h]

/-! ### What holds of every answer -/

theorem normalOp_ind {P : State → Prop} {s k : State} (hr : ∀ r, P (refuse r s))
    (hk : s.busy = false → s.fault = .none → P k) : P (normalOp s k) := by
  rcases normalOp_cases s k with ⟨r, h⟩ | ⟨hb, hf, h⟩
  · exact h ▸ hr r
  · exact h.symm ▸ hk hb hf

theorem withMode_ind {P : State → Prop} {s : State} {k : Cfg → State} (hr : ∀ r, P (refuse r s))
    (hk : ∀ c, s.md = some c → P (k c)) : P (withMode s k) := by
  rcases withMode_cases s k with ⟨r, h⟩ | ⟨c, hm, h⟩
  · exact h ▸ hr r
  · exact h.symm ▸ hk c hm

theorem interruptOp_ind {P : State → Prop} {s k : State} (hr : ∀ r, P (refuse r s))
    (hk : s.busy = true → P k) : P (interruptOp s k) := by
  unfold interruptOp
  split
  · exact hk ‹_›
  · exact hr _

theorem primitiveOp_ind {P : State → Prop} {s : State} {k : Cfg → State} (hr : ∀ r, P (refuse r s))
    (hk : ∀ c, s.busy = true ∨ s.armed = false → s.md = some c → P (k c)) : P (primitiveOp s k) := by
  unfold primitiveOp
  split
  · exact hr _
  · rename_i h
    refine withMode_ind hr fun c hm => hk c ?_ hm
    cases hb : s.busy <;> cases ha : s.armed <;> simp_all

theorem handlerOp_ind {P : State → Prop} {s : State} {pre : Bool} {k : Cfg → State} (hr : ∀ r, P (refuse r s))
    (hk : ∀ c, s.busy = true → s.armed = true → pre = true → s.md = some c → P (k c)) :
    P (handlerOp s pre k) := by
  unfold handlerOp
  split
  · rename_i h
    simp only [Bool.and_eq_true] at h
    exact withMode_ind hr fun c hm => hk c h.1.1 h.1.2 h.2 hm
  · exact hr _

theorem withChannel_ind {P : State → Prop} {s : State} {b : BitVec 2} {k : Channel → State}
    (hr : ∀ r, P (refuse r s)) (hk : ∀ ch, channelOf b = some ch → P (k ch)) : P (withChannel b s k) := by
  unfold withChannel
  split
  · exact hr _
  · exact hk _ ‹_›

/-- Every operation of the table answers a next state: nothing stops this machine (log 1). -/
theorem exec_next (i : Instr) (s : State) : ∃ t, exec i s = .next t := by cases i <;> exact ⟨_, rfl⟩

/-- Everything an operation can answer, said once: `P` holds of its next state if it holds of each of these. -/
structure Answers (P : State → Prop) (i : Instr) (s : State) : Prop where
  refused : ∀ r, P (refuse r s)
  answered : ∀ r, P { s with response := r }
  raised : ∀ c f, ready c s → P (raiseNormal f s)
  badConfig : ∀ cfg f, i = .schConfig cfg → s.busy = false → s.fault = .none → s.armed = false →
    P (raiseNormal f s)
  raisedInterrupt : ∀ x y, i = .fbGetu x y → s.busy = true → P (raiseInterrupt (.fbRange x y) s)
  stored : ∀ c x y ch v, i = .fbSetch x y (channelCode ch) v → ready c s → inRange c x y = true →
    P (storeChannel (writerBuffer c s) (slot c x y) ch v s)
  storedPixel : ∀ c x y p, i = .fbSet x y p → ready c s → inRange c x y = true →
    P (storePixel (writerBuffer c s) (slot c x y) p s)
  pushed : ∀ g, s.busy = false → P (pushGroup g s)
  swapRequested : ∀ c, i = .fbSwap → ready c s → c.doubleBuffer = true → s.armed = true →
    P { s with swapReq := true }
  swapped : ∀ c, i = .fbSwap → ready c s → c.doubleBuffer = true → s.armed = false →
    P { s with front := !s.front, swapReq := false }
  cleared : ∀ c, i = .poClrcolor → primitiveReady c s → P (clearColor c s)
  colored : ∀ c v, i = .poSetcolor v → primitiveReady c s → P (setColor c v s)
  latchedOn : ∀ c ch, i = .poLatchon (channelCode ch) → primitiveReady c s → P (latchOn c ch s)
  latchedOff : ∀ c ch, i = .poLatchoff (channelCode ch) → primitiveReady c s → P (latchOff c ch s)
  channel : ∀ c ch v, i = .poEmitchannel (channelCode ch) v → primitiveReady c s → P (emitChannel c ch v s)
  pixel : ∀ c p, i = .poEmitpixel p → primitiveReady c s → P (emitPixel c p s)
  handler : ∀ h, i = handlerInstr h → s.busy = true → P (runHandler h s)
  configured : ∀ cfg, i = .schConfig cfg → s.busy = false → s.fault = .none → s.armed = false →
    cfg.valid → P (installMode cfg s)
  armed : ∀ c, i = .schArm → ready c s → s.armed = false → P (armEngine c s)
  disarmed : i = .schDisarm → s.busy = false → s.armed = true →
    P { s with
        alarmH := { s.alarmH with en := false }, alarmV := { s.alarmV with en := false }, armed := false }
  ticked : i = .schTick → P (tick s)
  alarmSet : ∀ a d h, i = .schSetalarm a d h → s.busy = true → P (setAlarm a d h s)
  dispatched : ∀ a, i = .schDispatch a → alarmDue a s = true → P (dispatch a s)
  spun : ∀ th, i = .schSpin th → s.busy = true → s.cnt < th → P { s with spin := some (.bare th) }
  loadFailed : s.busy = false → P { s with nfree := s.nfree + 1, response := .failure }
  loading : ∀ g, s.busy = false → P { s with nfree := s.nfree + 1, work := g ++ s.work }

theorem channelOf_eq {b : BitVec 2} {ch : Channel} (h : channelOf b = some ch) : b = channelCode ch := by
  revert b ch
  decide

theorem handler_ind {P : State → Prop} {i : Instr} {s : State} (h : HandlerId) (A : Answers P i s)
    (hi : i = handlerInstr h) (pre : Bool) (k : Cfg → State) (hk : runHandler h s = handlerOp s pre k) :
    P (runHandler h s) := by
  cases hb : s.busy
  · rw [hk, handlerOp_refused hb]
    exact A.refused _
  · exact A.handler h hi hb

theorem exec_ind {P : State → Prop} {i : Instr} {s t : State} (A : Answers P i s) (h : exec i s = .next t) : P t := by
  cases i with
  | fbGet x y =>
    cases h
    refine normalOp_ind A.refused fun hb hf => withMode_ind A.refused fun c hm => ?_
    split
    · exact A.answered _
    · exact A.raised c _ ⟨hb, hf, hm⟩
  | fbSet x y p =>
    cases h
    refine normalOp_ind A.refused fun hb hf => withMode_ind A.refused fun c hm => ?_
    split
    · split
      · exact A.storedPixel c x y p rfl ⟨hb, hf, hm⟩ ‹_›
      · exact A.pushed _ hb
    · exact A.raised c _ ⟨hb, hf, hm⟩
  | fbGetu x y =>
    cases h
    refine interruptOp_ind A.refused fun hb => withMode_ind A.refused fun c hm => ?_
    split
    · exact A.answered _
    · exact A.raisedInterrupt x y rfl hb
  | fbSwap =>
    cases h
    refine normalOp_ind A.refused fun hb hf => withMode_ind A.refused fun c hm => ?_
    split
    · exact A.refused _
    · have hd : c.doubleBuffer = true := by simpa using ‹¬ (!c.doubleBuffer) = true›
      split
      · exact A.swapRequested c rfl ⟨hb, hf, hm⟩ hd ‹_›
      · exact A.swapped c rfl ⟨hb, hf, hm⟩ hd (by simpa using ‹¬ s.armed = true›)
  | fbSetch x y b v =>
    cases h
    refine withChannel_ind A.refused fun ch hc => normalOp_ind A.refused fun hb hf =>
      withMode_ind A.refused fun c hm => ?_
    split
    · exact A.stored c x y ch v (channelOf_eq hc ▸ rfl) ⟨hb, hf, hm⟩ ‹_›
    · exact A.raised c _ ⟨hb, hf, hm⟩
  | poClrcolor => cases h; exact primitiveOp_ind A.refused fun c hb hm => A.cleared c rfl ⟨hb, hm⟩
  | poSetcolor v => cases h; exact primitiveOp_ind A.refused fun c hb hm => A.colored c v rfl ⟨hb, hm⟩
  | poLatchon b =>
    cases h
    exact withChannel_ind A.refused fun ch hc => primitiveOp_ind A.refused fun c hb hm =>
      A.latchedOn c ch (channelOf_eq hc ▸ rfl) ⟨hb, hm⟩
  | poLatchoff b =>
    cases h
    exact withChannel_ind A.refused fun ch hc => primitiveOp_ind A.refused fun c hb hm =>
      A.latchedOff c ch (channelOf_eq hc ▸ rfl) ⟨hb, hm⟩
  | poEmitchannel b v =>
    cases h
    exact withChannel_ind A.refused fun ch hc => primitiveOp_ind A.refused fun c hb hm =>
      A.channel c ch v (channelOf_eq hc ▸ rfl) ⟨hb, hm⟩
  | poEmitpixel p => cases h; exact primitiveOp_ind A.refused fun c hb hm => A.pixel c p rfl ⟨hb, hm⟩
  | hActive => cases h; exact handler_ind .hActive A rfl _ _ rfl
  | hFp => cases h; exact handler_ind .hFp A rfl _ _ rfl
  | hSync => cases h; exact handler_ind .hSync A rfl _ _ rfl
  | hBp => cases h; exact handler_ind .hBp A rfl _ _ rfl
  | vEnter => cases h; exact handler_ind .vEnter A rfl _ _ rfl
  | vFp => cases h; exact handler_ind .vFp A rfl _ _ rfl
  | vSync => cases h; exact handler_ind .vSync A rfl _ _ rfl
  | vBp => cases h; exact handler_ind .vBp A rfl _ _ rfl
  | schConfig cfg =>
    cases h
    refine normalOp_ind A.refused fun hb hf => ?_
    split
    · exact A.refused _
    · have ha : s.armed = false := by simpa using ‹¬ s.armed = true›
      split
      · exact A.badConfig cfg _ rfl hb hf ha
      · exact A.configured cfg rfl hb hf ha ‹_›
  | schArm =>
    cases h
    refine normalOp_ind A.refused fun hb hf => withMode_ind A.refused fun c hm => ?_
    split
    · exact A.refused _
    · exact A.armed c rfl ⟨hb, hf, hm⟩ (by simpa using ‹¬ s.armed = true›)
  | schDisarm =>
    cases h
    refine normalOp_ind A.refused fun hb hf => ?_
    split
    · exact A.disarmed rfl hb ‹_›
    · exact A.refused _
  | schTick => cases h; exact A.ticked rfl
  | schSetalarm a d hd => cases h; exact interruptOp_ind A.refused fun hb => A.alarmSet a d hd rfl hb
  | schDispatch a =>
    cases h
    split
    · exact A.dispatched a rfl ‹_›
    · exact A.refused _
  | schSpin th =>
    cases h
    refine interruptOp_ind A.refused fun hb => ?_
    split
    · exact A.spun th rfl hb ‹_›
    · exact A.refused _
  | hostWriterow y row =>
    cases h
    refine normalOp_ind A.refused fun hb hf => withMode_ind A.refused fun c hm => ?_
    split
    · exact A.raised c _ ⟨hb, hf, hm⟩
    · exact A.pushed _ hb
  | hostLoadimage src =>
    cases h
    refine normalOp_ind A.refused fun hb hf => withMode_ind A.refused fun c hm => ?_
    dsimp only
    split
    · exact A.loadFailed hb
    · exact A.loadFailed hb
    · rename_i rows complete _
      have := A.loading (rows.map (fun yr => [Job.op (.hostWriterow yr.1 yr.2)]) ++ [[.finish complete]]) hb
      simpa using this
  | hostQuerycaps =>
    cases h
    refine normalOp_ind A.refused fun hb hf => ?_
    split
    · split
      · exact A.answered _
      · exact A.answered _
    · exact A.answered _

end Sys2Proof.Machine
end

