-- ==== Sys2Proof/Laws/Config.lean ====
section
/-! SUPPORT. What a legal configuration guarantees, and the arithmetic of the cursor and of the grid. -/

namespace Sys2Proof

/-- The checks of R202 that a legal configuration passes. -/
theorem Cfg.valid_spec {c : Cfg} (h : c.valid) :
    (1 ≤ c.w ∧ 1 ≤ c.h) ∧ (1 ≤ c.hActive ∧ 1 ≤ c.hFp ∧ 1 ≤ c.hSync ∧ 1 ≤ c.hBp)
    ∧ (1 ≤ c.vActive ∧ 1 ≤ c.vFp ∧ 1 ≤ c.vSync ∧ 1 ≤ c.vBp) ∧ (1 ≤ c.pixelPeriod ∧ 1 ≤ c.stride)
    ∧ c.hActive = c.nFast * c.pixelPeriod ∧ c.vActive = c.nSlow ∧ c.allPins.Nodup := by
  have hc : ∀ (l : List Bool) (k : Nat), firstFailing k l = none → ∀ b ∈ l, b = true := by
    intro l
    induction l with
    | nil => simp
    | cons b bs ih =>
      intro k hk
      cases b
      · simp [firstFailing] at hk
      · simpa using ih (k + 1) (by simpa [firstFailing] using hk)
  have hb := hc _ _ h
  simp only [Cfg.checks, List.mem_cons, List.not_mem_nil, or_false, forall_eq_or_imp, forall_eq,
    decide_eq_true_eq] at hb
  obtain ⟨h1, h2, h3, h4, h5, h6, -, -, h9, -⟩ := hb
  exact ⟨h1, h2, h3, h4, h5, h6, h9⟩

theorem le_ceilDiv_mul {a b : Nat} (hb : 1 ≤ b) : a ≤ ceilDiv a b * b := by
  unfold ceilDiv
  have h := Nat.div_add_mod (a + b - 1) b
  have h2 := Nat.mod_lt (a + b - 1) (show 0 < b by omega)
  rw [Nat.mul_comm] at h
  omega

/-- `ceil(a/b)` is the least n with `n*b >= a` (`00_scope.md` section 5). -/
theorem lt_ceilDiv_iff {a b k : Nat} (hb : 1 ≤ b) : k < ceilDiv a b ↔ k * b < a := by
  unfold ceilDiv
  rw [Nat.lt_iff_add_one_le, Nat.le_div_iff_mul_le (by omega), Nat.add_mul]
  omega

/-- The count of a line is exhausted exactly when the advanced cursor reaches the limit (R121). -/
theorem ceilDiv_eq_succ {a b k : Nat} (hb : 1 ≤ b) (hk : k * b < a) (h : a ≤ k * b + b) : ceilDiv a b = k + 1 := by
  have h1 := (lt_ceilDiv_iff (a := a) hb).2 hk
  have h2 : ¬ k + 1 < ceilDiv a b := by
    rw [lt_ceilDiv_iff hb, Nat.add_mul, Nat.one_mul]
    omega
  omega

end Sys2Proof

namespace Sys2Proof.Machine

/-- The pins of a legal configuration are distinct: the sync pins are no latch pin, no color pin and not each
other (R9). -/
theorem Cfg.pins_distinct {c : Cfg} (h : c.valid) :
    c.hsyncPin ≠ c.vsyncPin ∧ (∀ ch, c.latchPin.get ch ≠ c.hsyncPin ∧ c.latchPin.get ch ≠ c.vsyncPin)
    ∧ (∀ ch dh, ch ≠ dh → c.latchPin.get ch ≠ c.latchPin.get dh)
    ∧ ∀ i p, c.pinOfBit.get i = some p →
        p ≠ c.hsyncPin ∧ p ≠ c.vsyncPin ∧ ∀ ch, p ≠ c.latchPin.get ch := by
  have hn := (Cfg.valid_spec h).2.2.2.2.2.2
  unfold Cfg.allPins at hn
  obtain ⟨-, h2, h3⟩ := List.nodup_append.1 hn
  simp only [List.nodup_cons, List.mem_cons, List.not_mem_nil, or_false, not_or] at h2
  obtain ⟨⟨hrg, hrb, hrh, hrv⟩, ⟨hgb, hgh, hgv⟩, ⟨hbh, hbv⟩, hhv, -⟩ := h2
  refine ⟨hhv, fun ch => by cases ch <;> exact ⟨by assumption, by assumption⟩, fun ch dh hd => ?_, fun i p hp => ?_⟩
  · cases ch <;> cases dh <;> first | exact absurd rfl hd | assumption | exact Ne.symm ‹_›
  · have hi : p ∈ channelBits.filterMap c.pinOfBit.get := by
      refine List.mem_filterMap.2 ⟨i, ?_, hp⟩
      have : i < 8 := by
        by_contra hge
        rw [PinTable.get.eq_def] at hp
        split at hp <;> first | omega | cases hp
      simp [channelBits]
      omega
    have := fun q hq => h3 p hi q hq
    simp only [List.mem_cons, List.not_mem_nil, or_false] at this
    exact ⟨this _ (by tauto), this _ (by tauto), fun ch => this _ (by cases ch <;> simp [PerChannel.get])⟩

/-- Every legal mode has a pixel (R202 check 1). -/
theorem limits_pos {c : Cfg} (h : c.valid) : 0 < c.fastLimit ∧ 0 < c.slowLimit := by
  obtain ⟨⟨hw, hh⟩, -⟩ := Cfg.valid_spec h
  unfold Cfg.fastLimit Cfg.slowLimit
  cases c.scanOrder
  · exact ⟨hw, hh⟩
  · exact ⟨hh, hw⟩

/-- A latch pin of a legal mode is no color pin (R9). -/
theorem latch_not_mem_maskPins {c : Cfg} (h : c.valid) (ch : Channel) (v : Byte) :
    c.latchPin.get ch ∉ maskPins c.pinOfBit v := fun hm => by
  obtain ⟨i, -, -, hp⟩ := (mem_maskPins _ _ _).1 hm
  exact ((Cfg.pins_distinct h).2.2.2 i _ hp).2.2 ch rfl

/-- A cursor in range addresses a pixel in range (R77). -/
theorem coord_inRange {c : Cfg} {f s : Nat} (hf : f < c.fastLimit) (hs : s < c.slowLimit) :
    inRange c (coord c f s).1 (coord c f s).2 = true := by
  unfold Cfg.fastLimit at hf
  unfold Cfg.slowLimit at hs
  unfold coord inRange
  cases h : c.scanOrder <;> simp_all

/-- A coordinate in range has a slot in `[0, W*H)` (R52). -/
theorem slot_lt {c : Cfg} {x y : Nat} (h : inRange c x y = true) : slot c x y < c.w * c.h := by
  simp only [inRange, decide_eq_true_eq] at h
  unfold slot
  calc y * c.w + x < y * c.w + c.w := by omega
    _ = (y + 1) * c.w := by ring
    _ ≤ c.h * c.w := Nat.mul_le_mul_right _ h.2
    _ = c.w * c.h := Nat.mul_comm _ _

end Sys2Proof.Machine
end

