-- ==== Sys2Proof/Laws/Emit.lean ====
section
/-! SUPPORT. The Pixel Output Primitive in closed form: what `emitChannel` and `emitPixel` write, and that a legal
configuration makes each latch hold its channel's value reduced to the wired bits. -/

namespace Sys2Proof

/-- Every check of a legal configuration holds (R202). -/
theorem Cfg.checks_of_valid {c : Cfg} (h : c.valid) : ∀ b ∈ c.checks, b = true := by
  have hc : ∀ (l : List Bool) (k : Nat), firstFailing k l = none → ∀ b ∈ l, b = true := by
    intro l
    induction l with
    | nil => simp
    | cons b bs ih =>
      intro k hk
      cases b
      · simp [firstFailing] at hk
      · simpa using ih (k + 1) (by simpa [firstFailing] using hk)
  exact hc _ _ h

/-- A wired bit has a pin (R9). -/
theorem Cfg.wired_hasPin {c : Cfg} (h : c.valid) (ch : Channel) {i : Nat} (hi : i < 8)
    (hw : (c.wired.get ch).getLsbD i = true) : ∃ p, c.pinOfBit.get i = some p := by
  have h10 := Cfg.checks_of_valid h (wiredOk c.pinOfBit c.wired.r && wiredOk c.pinOfBit c.wired.g
    && wiredOk c.pinOfBit c.wired.b) (by simp [Cfg.checks])
  simp only [Bool.and_eq_true] at h10
  have hk : wiredOk c.pinOfBit (c.wired.get ch) = true := by
    cases ch
    · exact h10.1.1
    · exact h10.1.2
    · exact h10.2
  have h0 : (c.wired.get ch &&& ~~~c.pinOfBit.wiredBits) = 0 := by simpa [wiredOk] using hk
  have hb := congrArg (fun v => v.getLsbD i) h0
  simp only [BitVec.getLsbD_and, BitVec.getLsbD_not, hw, hi, decide_true, Bool.true_and] at hb
  rw [PinTable.wiredBits] at hb
  simp only [BitVec.getLsbD_ofFnLE, hi, dite_true] at hb
  simpa [Option.isSome_iff_exists] using hb

/-- The bit-to-pin table is injective where defined (R9, R76). -/
theorem Cfg.pinOfBit_inj {c : Cfg} (h : c.valid) {i j p : Nat} (hi : c.pinOfBit.get i = some p)
    (hj : c.pinOfBit.get j = some p) : i = j := by
  have hlt : ∀ k, (c.pinOfBit.get k).isSome = true → k ∈ channelBits := by
    intro k hk
    rw [PinTable.get.eq_def] at hk
    split at hk <;> first | simp at hk | simp [channelBits]
  have hn := (Cfg.valid_spec h).2.2.2.2.2.2
  unfold Cfg.allPins at hn
  have h1 := (List.nodup_append.1 hn).1
  have h2 := List.pairwise_filterMap.1 h1
  have : Std.Symm fun a b => ∀ x, c.pinOfBit.get a = some x → ∀ y, c.pinOfBit.get b = some y → x ≠ y :=
    ⟨fun a b hab x hx y hy hxy => hab y hy x hx hxy.symm⟩
  by_contra hne
  exact h2.forall (hlt i (by simp [hi])) (hlt j (by simp [hj])) hne p hi p hj rfl

end Sys2Proof

namespace Sys2Proof.Machine

/-- The color and latch lines inside the strobe of `emitChannel`, from the pins before it (R104). -/
def strobeGpio (c : Cfg) (ch : Channel) (v : Byte) (g : List Nat) : List Nat :=
  pinInsert (c.latchPin.get ch)
    ((maskPins c.pinOfBit v).foldr pinInsert (g.filter fun p => !(colorPins c.pinOfBit).contains p))

/-- The pins after `emitChannel`, from the pins before it (R104). -/
def channelGpio (c : Cfg) (ch : Channel) (v : Byte) (g : List Nat) : List Nat :=
  (strobeGpio c ch v g).filter fun p => !([c.latchPin.get ch].contains p)

/-- The four events of `emitChannel` at time `t` (R104). -/
def channelEvents (c : Cfg) (ch : Channel) (v : Byte) (t : Nat) : List Event :=
  [⟨t, .clear, colorPins c.pinOfBit⟩, ⟨t, .set, maskPins c.pinOfBit v⟩, ⟨t, .set, [c.latchPin.get ch]⟩,
    ⟨t, .clear, [c.latchPin.get ch]⟩]

/-- Everything `emitChannel` writes. -/
theorem emitChannel_eq (c : Cfg) (ch : Channel) (v : Byte) (s : State) :
    emitChannel c ch v s
      = { s with
          gpio := channelGpio c ch v s.gpio, trace := s.trace ++ channelEvents c ch v s.cnt,
          dac := s.dac.set ch (some (c.wired.get ch &&& colorByte c.pinOfBit (strobeGpio c ch v s.gpio))) } := by
  simp only [emitChannel, latchOff, latchOn, setColor, clearColor, pinSetOp, pinClearOp, capture, channelGpio,
    strobeGpio, channelEvents, List.append_assoc, List.cons_append, List.nil_append, List.foldr_cons, List.foldr_nil]

/-- A pin is a color pin (R76). -/
theorem mem_colorPins (t : PinTable) (p : Nat) : p ∈ colorPins t ↔ ∃ i, i < 8 ∧ t.get i = some p := by
  unfold colorPins
  rw [mem_maskPins]
  refine ⟨fun ⟨i, hi, _, hp⟩ => ⟨i, hi, hp⟩, fun ⟨i, hi, hp⟩ => ⟨i, hi, ?_, hp⟩⟩
  interval_cases i <;> rfl

theorem mem_strobeGpio (c : Cfg) (ch : Channel) (v : Byte) (g : List Nat) (p : Nat) :
    p ∈ strobeGpio c ch v g
      ↔ p = c.latchPin.get ch ∨ p ∈ maskPins c.pinOfBit v ∨ p ∈ g ∧ p ∉ colorPins c.pinOfBit := by
  simp [strobeGpio]

theorem mem_channelGpio (c : Cfg) (ch : Channel) (v : Byte) (g : List Nat) (p : Nat) :
    p ∈ channelGpio c ch v g
      ↔ p ≠ c.latchPin.get ch ∧ (p ∈ maskPins c.pinOfBit v ∨ p ∈ g ∧ p ∉ colorPins c.pinOfBit) := by
  simp only [channelGpio, List.mem_filter, mem_strobeGpio, List.contains_cons, List.contains_nil, Bool.or_false,
    Bool.not_eq_true', beq_eq_false_iff_ne, ne_eq]
  tauto

theorem channelGpio_sorted {g : List Nat} (h : g.Pairwise (· < ·)) (c : Cfg) (ch : Channel) (v : Byte) :
    (channelGpio c ch v g).Pairwise (· < ·) :=
  (pinInsert_sorted (foldr_pinInsert_sorted (h.filter _) _) _).filter _

/-- The latch of a legal configuration captures the value reduced to its wired bits (R104, R106). -/
theorem capture_eq {c : Cfg} (h : c.valid) (ch : Channel) (v : Byte) (g : List Nat) :
    c.wired.get ch &&& colorByte c.pinOfBit (strobeGpio c ch v g) = v &&& c.wired.get ch := by
  refine BitVec.eq_of_getLsbD_eq fun i hi => ?_
  simp only [BitVec.getLsbD_and, colorByte, BitVec.getLsbD_ofFnLE, hi, dite_true]
  cases hw : (c.wired.get ch).getLsbD i
  · simp
  · obtain ⟨p, hp⟩ := Cfg.wired_hasPin h ch hi hw
    have hd := ((Cfg.pins_distinct h).2.2.2 i p hp).2.2 ch
    simp only [colorLine, hp, Bool.true_and, Bool.and_true]
    rw [Bool.eq_iff_iff, List.contains_iff_mem, mem_strobeGpio, mem_maskPins, mem_colorPins]
    constructor
    · rintro (hl | ⟨j, -, hv, hj⟩ | ⟨-, hn⟩)
      · exact absurd hl hd
      · rwa [Cfg.pinOfBit_inj h hp hj]
      · exact absurd ⟨i, hi, hp⟩ hn
    · exact fun hv => .inr (.inl ⟨i, hi, hv, hp⟩)

/-- The pins after `emitPixel`, from the pins before it (R105). -/
def pixelGpio (c : Cfg) (p : Pixel) (g : List Nat) : List Nat :=
  c.channelOrder.toList.foldl (fun g ch => channelGpio c ch (p.get ch) g) g

/-- The twelve events of `emitPixel` at time `t` (R105). -/
def pixelEvents (c : Cfg) (p : Pixel) (t : Nat) : List Event :=
  c.channelOrder.toList.flatMap fun ch => channelEvents c ch (p.get ch) t

@[simp] theorem pixelEvents_length (c : Cfg) (p : Pixel) (t : Nat) : (pixelEvents c p t).length = 12 := by
  unfold pixelEvents
  cases c.channelOrder <;> rfl

/-- The three latches after `emitPixel` (R105). -/
def pixelDac (c : Cfg) (p : Pixel) : PerChannel (Option Byte) :=
  ⟨some (p.r &&& c.wired.r), some (p.g &&& c.wired.g), some (p.b &&& c.wired.b)⟩

/-- Everything `emitPixel` writes under a legal configuration (R105). -/
theorem emitPixel_eq {c : Cfg} (h : c.valid) (p : Pixel) (s : State) :
    emitPixel c p s
      = { s with
          gpio := pixelGpio c p s.gpio, trace := s.trace ++ pixelEvents c p s.cnt, dac := pixelDac c p } := by
  have hc : ∀ ch v t, emitChannel c ch v t
      = { t with
          gpio := channelGpio c ch v t.gpio, trace := t.trace ++ channelEvents c ch v t.cnt,
          dac := t.dac.set ch (some (v &&& c.wired.get ch)) } := by
    intro ch v t
    rw [emitChannel_eq, capture_eq h]
  unfold emitPixel pixelGpio pixelEvents pixelDac
  cases c.channelOrder <;>
    simp only [ChannelOrder.toList, List.foldl_cons, List.foldl_nil, hc, PerChannel.set, PerChannel.get,
      List.flatMap_cons, List.flatMap_nil, List.append_nil, List.append_assoc]

theorem pixelGpio_sorted {g : List Nat} (h : g.Pairwise (· < ·)) (c : Cfg) (p : Pixel) :
    (pixelGpio c p g).Pairwise (· < ·) := by
  unfold pixelGpio
  induction c.channelOrder.toList generalizing g with
  | nil => exact h
  | cons ch l ih => exact ih (channelGpio_sorted h c ch _)

/-- A pin that is no color pin and no latch pin keeps its level through `emitPixel` (R104, R109). -/
theorem mem_pixelGpio_other {c : Cfg} (p : Pixel) (g : List Nat) {q : Nat} (hc : q ∉ colorPins c.pinOfBit)
    (hl : ∀ ch, q ≠ c.latchPin.get ch) : q ∈ pixelGpio c p g ↔ q ∈ g := by
  have hm : ∀ v, q ∉ maskPins c.pinOfBit v := fun v hv => by
    obtain ⟨i, hi, -, hp⟩ := (mem_maskPins _ _ _).1 hv
    exact hc ((mem_colorPins _ _).2 ⟨i, hi, hp⟩)
  unfold pixelGpio
  induction c.channelOrder.toList generalizing g with
  | nil => rfl
  | cons ch l ih => exact (ih _).trans (by simp [mem_channelGpio, hm, hc, hl ch])

/-- No latch line is left asserted by `emitPixel` (R104, R105). -/
theorem latch_not_mem_pixelGpio {c : Cfg} (h : c.valid) (p : Pixel) (g : List Nat) (ch : Channel) :
    c.latchPin.get ch ∉ pixelGpio c p g := by
  have hcol : c.latchPin.get ch ∉ colorPins c.pinOfBit := fun hm => by
    obtain ⟨i, -, hp⟩ := (mem_colorPins _ _).1 hm
    exact ((Cfg.pins_distinct h).2.2.2 i _ hp).2.2 ch rfl
  have hmask : ∀ v, c.latchPin.get ch ∉ maskPins c.pinOfBit v := fun v hv => by
    obtain ⟨i, hi, -, hp⟩ := (mem_maskPins _ _ _).1 hv
    exact hcol ((mem_colorPins _ _).2 ⟨i, hi, hp⟩)
  have key : ∀ (l : List Channel) (g : List Nat), (ch ∈ l ∨ c.latchPin.get ch ∉ g) →
      c.latchPin.get ch ∉ l.foldl (fun g ch => channelGpio c ch (p.get ch) g) g := by
    intro l
    induction l with
    | nil => intro g hg; simpa using hg
    | cons dh l ih =>
      intro g hg
      refine ih _ ?_
      rcases hg with hg | hg
      · rcases List.mem_cons.1 hg with rfl | hg
        · exact .inr (by simp [mem_channelGpio])
        · exact .inl hg
      · exact .inr (by simp [mem_channelGpio, hmask, hg])
  refine key _ g (.inl ?_)
  cases c.channelOrder <;> cases ch <;> simp [ChannelOrder.toList]

/-- Through `emitChannel`s a pin that is no color pin keeps its level, unless it is one of their latch lines. -/
theorem mem_foldl_channelGpio {c : Cfg} (p : Pixel) {q : Nat} (hc : q ∉ colorPins c.pinOfBit) (l : List Channel)
    (g : List Nat) :
    q ∈ l.foldl (fun g ch => channelGpio c ch (p.get ch) g) g ↔ q ∈ g ∧ ∀ ch ∈ l, q ≠ c.latchPin.get ch := by
  have hm : ∀ v, q ∉ maskPins c.pinOfBit v := fun v hv => by
    obtain ⟨i, hi, -, hp⟩ := (mem_maskPins _ _ _).1 hv
    exact hc ((mem_colorPins _ _).2 ⟨i, hi, hp⟩)
  induction l generalizing g with
  | nil => simp
  | cons ch l ih =>
    refine (ih _).trans ?_
    rw [mem_channelGpio]
    simp only [hm, hc, List.mem_cons, forall_eq_or_imp]
    tauto

/-- The pins after `emitPixel`: the color lines carry the channel emitted last (R105). -/
theorem mem_pixelGpio {c : Cfg} (h : c.valid) (p : Pixel) (g : List Nat) {last : Channel}
    (hl : c.channelOrder.toList.getLast? = some last) (q : Nat) :
    q ∈ pixelGpio c p g
      ↔ q ∈ maskPins c.pinOfBit (p.get last)
        ∨ q ∈ g ∧ q ∉ colorPins c.pinOfBit ∧ ∀ ch, q ≠ c.latchPin.get ch := by
  by_cases hc : q ∈ colorPins c.pinOfBit
  · obtain ⟨i, -, hp⟩ := (mem_colorPins _ _).1 hc
    have hd := ((Cfg.pins_distinct h).2.2.2 i q hp).2.2
    obtain ⟨l, hl'⟩ := List.getLast?_eq_some_iff.1 hl
    unfold pixelGpio
    rw [hl', List.foldl_append, List.foldl_cons, List.foldl_nil, mem_channelGpio]
    simp [hc, hd last]
  · have hm : q ∉ maskPins c.pinOfBit (p.get last) := fun hv => by
      obtain ⟨i, hi, -, hp⟩ := (mem_maskPins _ _ _).1 hv
      exact hc ((mem_colorPins _ _).2 ⟨i, hi, hp⟩)
    have hall : ∀ ch, ch ∈ c.channelOrder.toList := by
      intro ch
      cases c.channelOrder <;> cases ch <;> simp [ChannelOrder.toList]
    unfold pixelGpio
    refine (mem_foldl_channelGpio p hc _ _).trans ?_
    simp [hm, hc, hall]

end Sys2Proof.Machine
end

