-- ==== Sys2Proof/Laws/Engine.lean ====
section
/-! SUPPORT. What serving an alarm does to an engine in order, one lemma per handler, both strategies at once; and
that an engine in order has no alarm due. -/

namespace Sys2Proof.Machine

/-- The busy-wait, if any, in which a blanking handler of strategy `st` leaves alarm `a` (R168, R169). -/
def tailSpin (c : Cfg) (a : Axis) : Option SpinWait :=
  if c.strategy = .freeRunning then some (.thenRun a) else none

/-- Serving ALARM_H when it names `h`: the handler on the entered state, then the return. -/
theorem dispatch_H_eq {s : State} {h : HandlerId} (hh : s.alarmH.handler = h) :
    dispatch .H s
      = returnFromInterrupt (runHandler h
          { s with alarmH := { s.alarmH with en := false }, busy := true, spin := none }) := by
  subst hh; rfl

/-- Serving ALARM_V when it names `h`. -/
theorem dispatch_V_eq {s : State} {h : HandlerId} (hh : s.alarmV.handler = h) :
    dispatch .V s
      = returnFromInterrupt (runHandler h
          { s with alarmV := { s.alarmV with en := false }, busy := true, spin := none }) := by
  subst hh; rfl

/-- The end of an active slot, entered and left (R122). -/
theorem endActiveSlot_return {c : Cfg} (hv : c.valid) {s : State} (hs : s.spin = none)
    (hth : s.cnt + c.hFp = hFpEnd c s) :
    returnFromInterrupt (endActiveSlot c s)
      = { s with
          hPhase := .frontPorch, alarmH := ⟨true, hFpEnd c s, .hFp⟩, spin := tailSpin c .H,
          busy := (tailSpin c .H).isSome } := by
  obtain ⟨-, ⟨-, h2, -, -⟩, -⟩ := Cfg.valid_spec hv
  unfold endActiveSlot
  rw [chain_eq (setalarmOk_of_pos h2).2.1]
  · simp only [hs]
    rfl
  · exact hth

/-- `H.FP` served (R123). -/
theorem dispatch_hFp {c : Cfg} (hv : c.valid) {s : State} (ha : s.armed = true) (hm : s.md = some c)
    (hp : s.hPhase = .frontPorch) (hh : s.alarmH.handler = .hFp) (hth : s.cnt = hFpEnd c s) :
    dispatch .H s
      = { s with
          hPhase := .sync, alarmH := ⟨true, hSyncEnd c s, .hSync⟩, spin := tailSpin c .H,
          busy := (tailSpin c .H).isSome, gpio := pinInsert c.hsyncPin s.gpio,
          trace := s.trace ++ [⟨s.cnt, .set, [c.hsyncPin]⟩] } := by
  obtain ⟨-, ⟨-, -, h3, -⟩, -⟩ := Cfg.valid_spec hv
  rw [dispatch_H_eq hh]
  simp only [runHandler, hFpOp]
  rw [handlerOp_run (c := c), chain_eq (setalarmOk_of_pos h3).2.2.1]
  · rfl
  · simp only [hth, hFpEnd, hSyncEnd]
  all_goals first | rfl | assumption | simp [hp]

/-- `H.SYNC` served (R124). -/
theorem dispatch_hSync {c : Cfg} (hv : c.valid) {s : State} (ha : s.armed = true) (hm : s.md = some c)
    (hp : s.hPhase = .sync) (hh : s.alarmH.handler = .hSync) (hth : s.cnt = hSyncEnd c s) :
    dispatch .H s
      = { s with
          hPhase := .backPorch, alarmH := ⟨true, hLineEnd c s, .hBp⟩, spin := tailSpin c .H,
          busy := (tailSpin c .H).isSome, gpio := s.gpio.filter (fun p => !([c.hsyncPin].contains p)),
          trace := s.trace ++ [⟨s.cnt, .clear, [c.hsyncPin]⟩] } := by
  obtain ⟨-, ⟨-, -, -, h4⟩, -⟩ := Cfg.valid_spec hv
  rw [dispatch_H_eq hh]
  simp only [runHandler, hSyncOp]
  rw [handlerOp_run (c := c), chain_eq (setalarmOk_of_pos h4).2.2.2.1]
  · rfl
  · simp only [pinClearOp, hth, hLineEnd, hSyncEnd, Cfg.hLine]; omega
  all_goals first | rfl | assumption | simp [hp]

/-- The pixel under the Scan Cursor, as the engine reads it (R92, R121). -/
def cursorPixel (c : Cfg) (s : State) : Pixel :=
  readPixel s (engineBuffer c s) (slot c (coord c s.fast s.slow).1 (coord c s.fast s.slow).2)

/-- What fetching and emitting the pixel under the Scan Cursor writes (R121 item 2). -/
def emitted (c : Cfg) (s : State) : State :=
  { s with
    pix := cursorPixel c s, gpio := pixelGpio c (cursorPixel c s) s.gpio,
    trace := s.trace ++ pixelEvents c (cursorPixel c s) s.cnt, dac := pixelDac c (cursorPixel c s) }

theorem fetchAndEmit_eq {c : Cfg} (hv : c.valid) (s : State) : fetchAndEmit c s = emitted c s := by
  unfold fetchAndEmit
  dsimp only
  rw [emitPixel_eq hv]
  rfl

/-- `H.ACTIVE` served at the end of a blank line's active slot (R122). -/
theorem dispatch_hActive_blank {c : Cfg} (hv : c.valid) {s : State} (ha : s.armed = true) (hm : s.md = some c)
    (hp : s.hPhase = .activePixel) (hvp : s.vPhase ≠ .activePixel) (hh : s.alarmH.handler = .hActive)
    (hth : s.cnt + c.hFp = hFpEnd c s) :
    dispatch .H s
      = { s with
          hPhase := .frontPorch, alarmH := ⟨true, hFpEnd c s, .hFp⟩, spin := tailSpin c .H,
          busy := (tailSpin c .H).isSome } := by
  rw [dispatch_H_eq hh]
  simp only [runHandler, hActiveOp]
  rw [handlerOp_run (c := c), if_pos hvp, endActiveSlot_return hv]
  · rfl
  · rfl
  · exact hth
  all_goals first | rfl | assumption | simp [hp]

/-- `H.ACTIVE` served on a pixel tick that does not end the line (R122). -/
theorem dispatch_hActive_more {c : Cfg} (hv : c.valid) {s : State} (ha : s.armed = true) (hm : s.md = some c)
    (hp : s.hPhase = .activePixel) (hvp : s.vPhase = .activePixel) (hh : s.alarmH.handler = .hActive)
    (hf : s.fast + c.stride < c.fastLimit) (hs : s.slow < c.slowLimit) :
    dispatch .H s
      = { emitted c s with
          fast := s.fast + c.stride, alarmH := ⟨true, s.cnt + c.pixelPeriod, .hActive⟩, spin := none,
          busy := false } := by
  obtain ⟨-, -, -, ⟨h1, -⟩, -⟩ := Cfg.valid_spec hv
  rw [dispatch_H_eq hh]
  simp only [runHandler, hActiveOp]
  rw [handlerOp_run (c := c), if_neg (by simp [hvp]), if_pos ⟨by omega, hs⟩, fetchAndEmit_eq hv, advanceCursor,
    if_neg (by dsimp only [emitted]; omega), setAlarm_ok (setalarmOk_of_pos h1).1]
  · rfl
  all_goals first | rfl | assumption | simp [hp]

/-- `H.ACTIVE` served on the pixel tick that ends the line (R122). -/
theorem dispatch_hActive_last {c : Cfg} (hv : c.valid) {s : State} (ha : s.armed = true) (hm : s.md = some c)
    (hp : s.hPhase = .activePixel) (hvp : s.vPhase = .activePixel) (hh : s.alarmH.handler = .hActive)
    (hf : s.fast < c.fastLimit) (hf' : c.fastLimit ≤ s.fast + c.stride) (hs : s.slow < c.slowLimit)
    (hth : s.cnt + c.hFp = hFpEnd c s) :
    dispatch .H s
      = { emitted c s with
          fast := 0, slow := if c.slowLimit ≤ s.slow + c.stride then 0 else s.slow + c.stride,
          hPhase := .frontPorch, alarmH := ⟨true, hFpEnd c s, .hFp⟩, spin := tailSpin c .H,
          busy := (tailSpin c .H).isSome } := by
  rw [dispatch_H_eq hh]
  simp only [runHandler, hActiveOp]
  rw [handlerOp_run (c := c), if_neg (by simp [hvp]), if_pos ⟨hf, hs⟩, fetchAndEmit_eq hv, advanceCursor,
    if_pos (by dsimp only [emitted]; omega), endActiveSlot_return hv]
  · rfl
  · rfl
  · exact hth
  all_goals first | rfl | assumption | simp [hp]

/-- `H.BP` served under either drive where the next line emits pixels (R125, R126). -/
theorem dispatch_hBp_active {c : Cfg} (hv : c.valid) {s : State} (ha : s.armed = true) (hm : s.md = some c)
    (hp : s.hPhase = .backPorch) (hh : s.alarmH.handler = .hBp) (hvp : s.vPhase = .activePixel) (hs : s.slow ≠ 0) :
    dispatch .H s
      = { s with
          hPhase := .activePixel, lineStart := s.cnt, alarmH := ⟨true, s.cnt + c.pixelPeriod, .hActive⟩, spin := none,
          busy := false } := by
  obtain ⟨-, -, -, ⟨h1, -⟩, -⟩ := Cfg.valid_spec hv
  rw [dispatch_H_eq hh]
  simp only [runHandler, hBpOp]
  rw [handlerOp_run (c := c)]
  · cases hd : c.verticalDrive
    · simp only [hvp, if_pos, if_neg hs]
      rw [startActiveLine_eq h1]
      rfl
    · simp only [if_neg hs]
      rw [startActiveLine_eq h1]
      rfl
  all_goals first | rfl | assumption | simp [hp]

/-- `H.BP` served on the last line under DEDICATED_TIMER: the horizontal axis is parked (R125, R141, R146). -/
theorem dispatch_hBp_park {c : Cfg} (hv : c.valid) {s : State} (ha : s.armed = true) (hm : s.md = some c)
    (hd : c.verticalDrive = .dedicatedTimer) (hp : s.hPhase = .backPorch) (hh : s.alarmH.handler = .hBp)
    (hvp : s.vPhase = .activePixel) (hs : s.slow = 0) (hth : s.cnt + c.vFp * c.hLine = vFpEnd c s) :
    dispatch .H s
      = { s with
          vPhase := .frontPorch, alarmH := { s.alarmH with en := false }, alarmV := ⟨true, vFpEnd c s, .vFp⟩,
          spin := tailSpin c .V, busy := (tailSpin c .V).isSome } := by
  obtain ⟨-, ⟨h1, -⟩, ⟨-, h2, -⟩, -⟩ := Cfg.valid_spec hv
  have hl : 1 ≤ c.vFp * c.hLine := Nat.mul_pos h2 (by unfold Cfg.hLine; omega)
  rw [dispatch_H_eq hh]
  simp only [runHandler, hBpOp]
  rw [handlerOp_run (c := c)]
  · simp only [hd, hs, if_pos, vEnterOp]
    rw [handlerOp_run (c := c), timeVertical]
    · simp only [hd]
      rw [chain_eq (setalarmOk_of_pos hl).2.2.2.2.1]
      · rfl
      · exact hth
    all_goals first | rfl | assumption | simp [hvp]
  all_goals first | rfl | assumption | simp [hp]

/-- `H.BP` served on the last line under LINE_CHAINED (R125, R141, R145). -/
theorem dispatch_hBp_enter {c : Cfg} (hv : c.valid) {s : State} (ha : s.armed = true) (hm : s.md = some c)
    (hd : c.verticalDrive = .lineChained) (hp : s.hPhase = .backPorch) (hh : s.alarmH.handler = .hBp)
    (hvp : s.vPhase = .activePixel) (hs : s.slow = 0) :
    dispatch .H s
      = { s with
          vPhase := .frontPorch, vcnt := c.vFp, hPhase := .activePixel, lineStart := s.cnt,
          alarmH := ⟨true, s.cnt + c.hActive, .hActive⟩, spin := none, busy := false } := by
  obtain ⟨-, ⟨h1, -⟩, -⟩ := Cfg.valid_spec hv
  rw [dispatch_H_eq hh]
  simp only [runHandler, hBpOp]
  rw [handlerOp_run (c := c)]
  · simp only [hd, hvp, hs, if_pos, vEnterOp]
    rw [startBlankLine_eq h1, handlerOp_run (c := c), timeVertical]
    · simp only [hd]
      rfl
    all_goals first | rfl | assumption
  all_goals first | rfl | assumption | simp [hp]

/-- `H.BP` served at the end of a blank line that is not its phase's last (R125, R145). -/
theorem dispatch_hBp_blank {c : Cfg} (hv : c.valid) {s : State} (ha : s.armed = true) (hm : s.md = some c)
    (hd : c.verticalDrive = .lineChained) (hp : s.hPhase = .backPorch) (hh : s.alarmH.handler = .hBp)
    (hvp : s.vPhase ≠ .activePixel) (hn : 2 ≤ s.vcnt) :
    dispatch .H s
      = { s with
          vcnt := s.vcnt - 1, hPhase := .activePixel, lineStart := s.cnt,
          alarmH := ⟨true, s.cnt + c.hActive, .hActive⟩, spin := none, busy := false } := by
  obtain ⟨-, ⟨h1, -⟩, -⟩ := Cfg.valid_spec hv
  rw [dispatch_H_eq hh]
  simp only [runHandler, hBpOp]
  rw [handlerOp_run (c := c)]
  · simp only [hd, if_neg hvp, blankLineDone]
    rw [if_pos (by omega), startBlankLine_eq h1]
    rfl
  all_goals first | rfl | assumption | simp [hp]

/-- `H.BP` served at the end of the vertical front porch under LINE_CHAINED (R125, R142). -/
theorem dispatch_hBp_vFp {c : Cfg} (hv : c.valid) {s : State} (ha : s.armed = true) (hm : s.md = some c)
    (hd : c.verticalDrive = .lineChained) (hp : s.hPhase = .backPorch) (hh : s.alarmH.handler = .hBp)
    (hvp : s.vPhase = .frontPorch) (hn : s.vcnt = 1) :
    dispatch .H s
      = { s with
          vPhase := .sync, vcnt := c.vSync, gpio := pinInsert c.vsyncPin s.gpio,
          trace := s.trace ++ [⟨s.cnt, .set, [c.vsyncPin]⟩], hPhase := .activePixel, lineStart := s.cnt,
          alarmH := ⟨true, s.cnt + c.hActive, .hActive⟩, spin := none, busy := false } := by
  obtain ⟨-, ⟨h1, -⟩, -⟩ := Cfg.valid_spec hv
  rw [dispatch_H_eq hh]
  simp only [runHandler, hBpOp]
  rw [handlerOp_run (c := c)]
  · simp only [hd, hvp, reduceCtorEq, if_false, blankLineDone, hn, Nat.sub_self, Nat.lt_irrefl, vFpOp]
    rw [startBlankLine_eq h1, handlerOp_run (c := c), timeVertical]
    · simp only [hd]
      rfl
    all_goals first | rfl | assumption
  all_goals first | rfl | assumption | simp [hp]

/-- `H.BP` served at the end of vertical sync under LINE_CHAINED (R125, R143). -/
theorem dispatch_hBp_vSync {c : Cfg} (hv : c.valid) {s : State} (ha : s.armed = true) (hm : s.md = some c)
    (hd : c.verticalDrive = .lineChained) (hp : s.hPhase = .backPorch) (hh : s.alarmH.handler = .hBp)
    (hvp : s.vPhase = .sync) (hn : s.vcnt = 1) :
    dispatch .H s
      = { s with
          vPhase := .backPorch, vcnt := c.vBp, gpio := s.gpio.filter (fun p => !([c.vsyncPin].contains p)),
          trace := s.trace ++ [⟨s.cnt, .clear, [c.vsyncPin]⟩], hPhase := .activePixel, lineStart := s.cnt,
          alarmH := ⟨true, s.cnt + c.hActive, .hActive⟩, spin := none, busy := false } := by
  obtain ⟨-, ⟨h1, -⟩, -⟩ := Cfg.valid_spec hv
  rw [dispatch_H_eq hh]
  simp only [runHandler, hBpOp]
  rw [handlerOp_run (c := c)]
  · simp only [hd, hvp, reduceCtorEq, if_false, blankLineDone, hn, Nat.sub_self, Nat.lt_irrefl, vSyncOp]
    rw [startBlankLine_eq h1, handlerOp_run (c := c), timeVertical]
    · simp only [hd]
      rfl
    all_goals first | rfl | assumption
  all_goals first | rfl | assumption | simp [hp]

/-- The double buffer at a frame start (R64, R144). -/
def frontAfter (c : Cfg) (s : State) : Bool := if c.doubleBuffer && s.swapReq then !s.front else s.front

/-- SWAP_REQ at a frame start (R64, R144). -/
def requestAfter (c : Cfg) (s : State) : Bool := if c.doubleBuffer && s.swapReq then false else s.swapReq

/-- The frame start `V.BP` makes (R144). -/
theorem vBp_eq {c : Cfg} (hv : c.valid) {s : State} (hb : s.busy = true) (ha : s.armed = true) (hm : s.md = some c)
    (hvp : s.vPhase = .backPorch) :
    vBpOp s
      = { s with
          fast := 0, slow := 0, vPhase := .activePixel, vcnt := 0, frameStart := s.cnt, front := frontAfter c s,
          swapReq := requestAfter c s, hPhase := .activePixel, lineStart := s.cnt,
          alarmH := ⟨true, s.cnt + c.pixelPeriod, .hActive⟩ } := by
  obtain ⟨-, -, -, ⟨h1, -⟩, -⟩ := Cfg.valid_spec hv
  unfold vBpOp
  rw [handlerOp_run hb ha hm (by simp [hvp]), startActiveLine_eq h1]
  unfold swapAtFrame frontAfter requestAfter
  cases h : c.doubleBuffer && s.swapReq <;> simp

/-- `H.BP` served at the end of the frame under LINE_CHAINED (R125, R144). -/
theorem dispatch_hBp_vBp {c : Cfg} (hv : c.valid) {s : State} (ha : s.armed = true) (hm : s.md = some c)
    (hd : c.verticalDrive = .lineChained) (hp : s.hPhase = .backPorch) (hh : s.alarmH.handler = .hBp)
    (hvp : s.vPhase = .backPorch) (hn : s.vcnt = 1) :
    dispatch .H s
      = { s with
          fast := 0, slow := 0, vPhase := .activePixel, vcnt := 0, frameStart := s.cnt, front := frontAfter c s,
          swapReq := requestAfter c s, hPhase := .activePixel, lineStart := s.cnt,
          alarmH := ⟨true, s.cnt + c.pixelPeriod, .hActive⟩, spin := none, busy := false } := by
  rw [dispatch_H_eq hh]
  simp only [runHandler, hBpOp]
  rw [handlerOp_run (c := c)]
  · simp only [hd, hvp, reduceCtorEq, if_false, blankLineDone, hn, Nat.sub_self, Nat.lt_irrefl]
    rw [vBp_eq hv]
    · rfl
    all_goals first | rfl | assumption
  all_goals first | rfl | assumption | simp [hp]

/-- `V.FP` served by ALARM_V (R142, R146). -/
theorem dispatch_vFp {c : Cfg} (hv : c.valid) {s : State} (ha : s.armed = true) (hm : s.md = some c)
    (hd : c.verticalDrive = .dedicatedTimer) (hvp : s.vPhase = .frontPorch) (hh : s.alarmV.handler = .vFp)
    (hth : s.cnt = vFpEnd c s) :
    dispatch .V s
      = { s with
          vPhase := .sync, alarmV := ⟨true, vSyncEnd c s, .vSync⟩, spin := tailSpin c .V,
          busy := (tailSpin c .V).isSome, gpio := pinInsert c.vsyncPin s.gpio,
          trace := s.trace ++ [⟨s.cnt, .set, [c.vsyncPin]⟩] } := by
  obtain ⟨-, ⟨h1, -⟩, ⟨-, -, h3, -⟩, -⟩ := Cfg.valid_spec hv
  have hl : 1 ≤ c.vSync * c.hLine := Nat.mul_pos h3 (by unfold Cfg.hLine; omega)
  rw [dispatch_V_eq hh]
  simp only [runHandler, vFpOp]
  rw [handlerOp_run (c := c), timeVertical]
  · simp only [hd]
    rw [chain_eq (setalarmOk_of_pos hl).2.2.2.2.2.1]
    · rfl
    · simp only [hth, vFpEnd, vSyncEnd]; ring
  all_goals first | rfl | assumption | simp [hvp]

/-- `V.SYNC` served by ALARM_V (R143, R146). -/
theorem dispatch_vSync {c : Cfg} (hv : c.valid) {s : State} (ha : s.armed = true) (hm : s.md = some c)
    (hd : c.verticalDrive = .dedicatedTimer) (hvp : s.vPhase = .sync) (hh : s.alarmV.handler = .vSync)
    (hth : s.cnt = vSyncEnd c s) :
    dispatch .V s
      = { s with
          vPhase := .backPorch, alarmV := ⟨true, vFrameEnd c s, .vBp⟩, spin := tailSpin c .V,
          busy := (tailSpin c .V).isSome, gpio := s.gpio.filter (fun p => !([c.vsyncPin].contains p)),
          trace := s.trace ++ [⟨s.cnt, .clear, [c.vsyncPin]⟩] } := by
  obtain ⟨-, ⟨h1, -⟩, ⟨-, -, -, h4⟩, -, -, h6, -⟩ := Cfg.valid_spec hv
  have hl : 1 ≤ c.vBp * c.hLine := Nat.mul_pos h4 (by unfold Cfg.hLine; omega)
  rw [dispatch_V_eq hh]
  simp only [runHandler, vSyncOp]
  rw [handlerOp_run (c := c), timeVertical]
  · simp only [hd]
    rw [chain_eq (setalarmOk_of_pos hl).2.2.2.2.2.2]
    · rfl
    · simp only [pinClearOp, hth, vFrameEnd, vSyncEnd, Cfg.vLines, h6]; ring
  all_goals first | rfl | assumption | simp [hvp]

/-- `V.BP` served by ALARM_V (R144, R146). -/
theorem dispatch_vBp {c : Cfg} (hv : c.valid) {s : State} (ha : s.armed = true) (hm : s.md = some c)
    (hvp : s.vPhase = .backPorch) (hh : s.alarmV.handler = .vBp) :
    dispatch .V s
      = { s with
          fast := 0, slow := 0, vPhase := .activePixel, vcnt := 0, frameStart := s.cnt, front := frontAfter c s,
          swapReq := requestAfter c s, hPhase := .activePixel, lineStart := s.cnt,
          alarmH := ⟨true, s.cnt + c.pixelPeriod, .hActive⟩, alarmV := { s.alarmV with en := false }, spin := none,
          busy := false } := by
  rw [dispatch_V_eq hh]
  simp only [runHandler]
  rw [vBp_eq hv]
  · rfl
  all_goals first | rfl | assumption

end Sys2Proof.Machine
end

