-- ==== Sys2Proof/Laws/History.lean ====
section
/-! SUPPORT. TRACE is a history of the pins (R35, R39): each operation only appends events of the time it happens at,
and these events account for every change of a level. -/

namespace Sys2Proof.Machine

/-- `t` follows `s` at the same CNT, its pins still a set, and its history accounts for them. -/
def Follows (s t : State) : Prop :=
  t.cnt = s.cnt ∧ (s.gpio.Pairwise (· < ·) → t.gpio.Pairwise (· < ·)) ∧ ∃ evs, t.trace = s.trace ++ evs ∧ (∀ e ∈ evs, e.time = s.cnt ∧ e.pins.Pairwise (· < ·)) ∧
    ∀ p, t.asserted p = replay p evs (s.asserted p)

theorem replay_append (p : Nat) (l m : List Event) (b : Bool) : replay p (l ++ m) b = replay p m (replay p l b) := by
  induction l generalizing b with
  | nil => rfl
  | cons e l ih => exact ih _

theorem Follows.trans {s t u : State} (h : Follows s t) (h' : Follows t u) : Follows s u := by
  obtain ⟨c1, g1, l, e1, o1, a1⟩ := h
  obtain ⟨c2, g2, m, e2, o2, a2⟩ := h'
  refine ⟨c2.trans c1, g2 ∘ g1, l ++ m, by rw [e2, e1, List.append_assoc], fun e he => ?_, fun p => ?_⟩
  · rcases List.mem_append.1 he with he | he
    · exact o1 e he
    · exact c1 ▸ o2 e he
  · rw [a2, a1, replay_append]

/-- An update of other fields. -/
theorem Follows.of_same {s t : State} (h1 : t.cnt = s.cnt) (h2 : t.trace = s.trace) (h3 : t.gpio = s.gpio) :
    Follows s t :=
  ⟨h1, h3 ▸ id, [], by simp [h2], by simp, fun p => by simp [State.asserted, h3, replay]⟩

theorem Follows.refl (s : State) : Follows s s := .of_same rfl rfl rfl

theorem follows_pinSetOp {ps : List Nat} (h : ps.Pairwise (· < ·)) (s : State) : Follows s (pinSetOp ps s) :=
  ⟨rfl, fun hs => pinSetOp_gpio_sorted hs ps, [⟨s.cnt, .set, ps⟩], rfl, by simpa using h,
    fun p => by by_cases hp : p ∈ ps <;> simp [replay, hp]⟩

theorem follows_pinClearOp {ps : List Nat} (h : ps.Pairwise (· < ·)) (s : State) : Follows s (pinClearOp ps s) :=
  ⟨rfl, fun hs => pinClearOp_gpio_sorted hs ps, [⟨s.cnt, .clear, ps⟩], rfl, by simpa using h,
    fun p => by by_cases hp : p ∈ ps <;> simp [replay, hp]⟩

theorem follows_clearColor (c : Cfg) (s : State) : Follows s (clearColor c s) :=
  follows_pinClearOp (pinSet_sorted _) s

theorem follows_setColor (c : Cfg) (v : Byte) (s : State) : Follows s (setColor c v s) :=
  follows_pinSetOp (pinSet_sorted _) s

theorem follows_latchOn (c : Cfg) (ch : Channel) (s : State) : Follows s (latchOn c ch s) :=
  (follows_pinSetOp (List.pairwise_singleton _ _) s).trans (.of_same rfl rfl rfl)

theorem follows_latchOff (c : Cfg) (ch : Channel) (s : State) : Follows s (latchOff c ch s) :=
  follows_pinClearOp (List.pairwise_singleton _ _) s

theorem follows_emitChannel (c : Cfg) (ch : Channel) (v : Byte) (s : State) : Follows s (emitChannel c ch v s) :=
  (((follows_clearColor c s).trans (follows_setColor c v _)).trans (follows_latchOn c ch _)).trans
    (follows_latchOff c ch _)

theorem follows_emitPixel (c : Cfg) (p : Pixel) (s : State) : Follows s (emitPixel c p s) := by
  unfold emitPixel
  generalize c.channelOrder.toList = l
  induction l generalizing s with
  | nil => exact .refl s
  | cons ch l ih => exact (follows_emitChannel c ch _ s).trans (ih _)

theorem follows_refuse (r : Reason) (s : State) : Follows s (refuse r s) := .of_same rfl rfl rfl

theorem follows_setAlarm (a : Axis) (d : Nat) (h : HandlerId) (s : State) : Follows s (setAlarm a d h s) :=
  .of_same (by simp) (by simp) (by simp)

theorem follows_startActiveLine (c : Cfg) (s : State) : Follows s (startActiveLine c s) :=
  .of_same (by simp) (by simp) (by simp)

theorem follows_startBlankLine (c : Cfg) (s : State) : Follows s (startBlankLine c s) :=
  .of_same (by simp) (by simp) (by simp)

theorem follows_vEnterOp (s : State) : Follows s (vEnterOp s) :=
  handlerOp_ind (P := Follows s) (fun r => follows_refuse r s) fun c _ _ _ _ =>
    .of_same (by simp) (by simp) (by simp)

theorem follows_vFpOp (s : State) : Follows s (vFpOp s) :=
  handlerOp_ind (P := Follows s) (fun r => follows_refuse r s) fun c _ _ _ _ =>
    Follows.trans (.of_same (by simp) (by simp) (by simp)) (follows_pinSetOp (List.pairwise_singleton _ _) _)

theorem follows_vSyncOp (s : State) : Follows s (vSyncOp s) :=
  handlerOp_ind (P := Follows s) (fun r => follows_refuse r s) fun c _ _ _ _ =>
    (follows_pinClearOp (List.pairwise_singleton _ c.vsyncPin) s).trans (.of_same (by simp) (by simp) (by simp))

theorem follows_vBpOp (s : State) : Follows s (vBpOp s) :=
  handlerOp_ind (P := Follows s) (fun r => follows_refuse r s) fun c _ _ _ _ =>
    .of_same (by simp) (by simp) (by simp)

theorem follows_hActiveOp (s : State) : Follows s (hActiveOp s) :=
  handlerOp_ind (P := Follows s) (fun r => follows_refuse r s) fun c _ _ _ _ => by
    split
    · exact .of_same (by simp) (by simp) (by simp)
    · refine Follows.trans (t := if s.fast < c.fastLimit ∧ s.slow < c.slowLimit then fetchAndEmit c s else s) ?_
        (.of_same (by simp) (by simp) (by simp))
      split
      · exact Follows.trans (.of_same rfl rfl rfl) (follows_emitPixel c _ _)
      · exact .refl s

theorem follows_hFpOp (s : State) : Follows s (hFpOp s) :=
  handlerOp_ind (P := Follows s) (fun r => follows_refuse r s) fun c _ _ _ _ =>
    Follows.trans (.of_same (by simp) (by simp) (by simp)) (follows_pinSetOp (List.pairwise_singleton _ _) _)

theorem follows_hSyncOp (s : State) : Follows s (hSyncOp s) :=
  handlerOp_ind (P := Follows s) (fun r => follows_refuse r s) fun c _ _ _ _ =>
    (follows_pinClearOp (List.pairwise_singleton _ c.hsyncPin) s).trans (.of_same (by simp) (by simp) (by simp))

theorem follows_blankLineDone (c : Cfg) (s : State) : Follows s (blankLineDone c s) := by
  refine Follows.trans (t := { s with vcnt := s.vcnt - 1 }) (.of_same rfl rfl rfl) ?_
  unfold blankLineDone
  dsimp only
  split
  · exact follows_startBlankLine _ _
  · split
    · exact (follows_vFpOp _).trans (follows_startBlankLine _ _)
    · exact (follows_vSyncOp _).trans (follows_startBlankLine _ _)
    · exact follows_vBpOp _
    · exact .refl _

theorem follows_hBpOp (s : State) : Follows s (hBpOp s) :=
  handlerOp_ind (P := Follows s) (fun r => follows_refuse r s) fun c _ _ _ _ => by
    split
    · split
      · exact follows_vEnterOp s
      · exact follows_startActiveLine c s
    · split
      · split
        · exact (follows_vEnterOp s).trans (follows_startBlankLine c _)
        · exact follows_startActiveLine c s
      · exact follows_blankLineDone c s

theorem follows_runHandler (h : HandlerId) (s : State) : Follows s (runHandler h s) := by
  cases h
  · exact follows_hActiveOp s
  · exact follows_hFpOp s
  · exact follows_hSyncOp s
  · exact follows_hBpOp s
  · exact follows_vEnterOp s
  · exact follows_vFpOp s
  · exact follows_vSyncOp s
  · exact follows_vBpOp s

theorem follows_dispatch (a : Axis) (s : State) : Follows s (dispatch a s) := by
  have h1 : Follows s (enterInterrupt a s) := by cases a <;> exact .of_same rfl rfl rfl
  exact (h1.trans (follows_runHandler _ _)).trans (.of_same rfl rfl rfl)

theorem follows_serveAlarms (fuel : Nat) (s : State) : Follows s (serveAlarms fuel s) := by
  induction fuel generalizing s with
  | zero => exact .refl s
  | succ n ih =>
    unfold serveAlarms
    split
    · exact (follows_dispatch _ _).trans (ih _)
    · split
      · exact (follows_dispatch _ _).trans (ih _)
      · exact .refl s

/-- A tick first counts, then follows (R164). -/
theorem follows_tick (s : State) : Follows { s with cnt := s.cnt + 1 } (tick s) := by
  refine Follows.trans (t := releaseBareSpin { s with cnt := s.cnt + 1 }) ?_ (follows_serveAlarms _ _)
  exact .of_same (by simp) (by simp) (by simp)

/-- Every operation but a tick follows the state it ran in. -/
theorem follows_exec {i : Instr} {s t : State} (hi : i ≠ .schTick) (h : exec i s = .next t) : Follows s t := by
  refine exec_ind (P := Follows s) ?_ h
  constructor
  all_goals intros
  case refused => exact follows_refuse _ s
  case cleared => exact follows_clearColor _ s
  case colored => exact follows_setColor _ _ s
  case latchedOn => exact follows_latchOn _ _ s
  case latchedOff => exact follows_latchOff _ _ s
  case channel => exact follows_emitChannel _ _ _ s
  case pixel => exact follows_emitPixel _ _ s
  case handler => exact follows_runHandler _ s
  case dispatched => exact follows_dispatch _ s
  case ticked h => exact absurd h hi
  case armed c _ _ _ =>
    exact ((follows_pinClearOp (pinSet_sorted _) s).trans (.of_same rfl rfl rfl)).trans
      (follows_startActiveLine c _)
  all_goals
    exact .of_same (by simp [raiseNormal, raiseInterrupt, setFault, pushGroup, installMode, storePixel])
      (by simp [raiseNormal, raiseInterrupt, setFault, pushGroup, installMode, storePixel])
      (by simp [raiseNormal, raiseInterrupt, setFault, pushGroup, installMode, storePixel])

end Sys2Proof.Machine
end

