-- ==== Sys2Proof/Laws/Step.lean ====
section
/-! SUPPORT. What a step can be: one instruction, or a settled state, on a state in which nothing but the model's own
bookkeeping (script, outstanding sub-steps, choices, free values drawn, the last answer) has moved. -/

namespace Sys2Proof.Machine

/-- `u` is `s` but for the bookkeeping of the issuer. -/
def sameMachine (s u : State) : Prop :=
  u = { s with script := u.script, work := u.work, choices := u.choices, nfree := u.nfree, response := u.response }

theorem sameMachine_consumeTick (s : State) : sameMachine s (consumeTick s) := by
  unfold consumeTick
  split
  · split <;> rfl
  · rfl

theorem sameMachine_takeChoice (s : State) : sameMachine s (takeChoice s).2 := by
  unfold takeChoice
  split <;> rfl

/-- The word of a SCH.TICK line is the byte 0x43 with no operand (R71). -/
theorem isTickWord_iff (w : OpWord) : isTickWord w = true ↔ w = ⟨0x43, []⟩ := by
  refine ⟨fun h => ?_, fun h => h ▸ rfl⟩
  obtain ⟨op, args⟩ := w
  unfold isTickWord at h
  split at h
  · rename_i hd
    unfold decode at hd
    dsimp only at hd
    split at hd <;> first | cases hd; done | skip
    rename_i hu hf
    have : op = opByte (opUnit op) (opFunc op) := by
      unfold opByte opUnit opFunc
      rw [Nat.mul_comm, Nat.div_add_mod]
      simp
    rw [this, hu, hf]
    rfl
  · cases h

theorem sameMachine.trans {s t u : State} (h : sameMachine s t) (h' : sameMachine t u) : sameMachine s u := by
  unfold sameMachine at *
  rw [h'] at *
  rw [h]

/-- Everything a step can be (R60, R81, R171). -/
theorem nextMove_cases (s : State) :
    (∃ i u, nextMove s = .run i u ∧ sameMachine s u ∧ (s.busy = true → i = .schTick)) ∨
      ∃ u, nextMove s = .settle u ∧ sameMachine s u ∧ s.busy = false := by
  unfold nextMove
  split
  · exact .inl ⟨_, _, rfl, sameMachine_consumeTick s, fun _ => rfl⟩
  rename_i hb
  have hb : s.busy = false := by simpa using hb
  have no : ∀ i, s.busy = true → i = Instr.schTick := fun _ h => by simp [hb] at h
  split
  · split
    · exact .inl ⟨_, _, rfl, rfl, no _⟩
    · unfold issue
      split
      · exact .inl ⟨_, _, rfl, rfl, no _⟩
      · exact .inr ⟨_, rfl, rfl, hb⟩
  · split
    · exact .inr ⟨_, rfl, rfl, hb⟩
    · have h1 := sameMachine_takeChoice s
      dsimp only
      split
      · unfold doJob
        split
        · exact .inl ⟨_, _, rfl, h1.trans rfl, no _⟩
        · refine .inr ⟨_, rfl, ?_, hb⟩
          unfold finishLoad
          split
          · exact h1.trans rfl
          · exact h1.trans rfl
      · exact .inl ⟨_, _, rfl, h1.trans (sameMachine_consumeTick _), no _⟩

/-- Everything a step that answers `t` can be. -/
theorem step_cases {s t : State} (h : step s = .next t) :
    (∃ i u, sameMachine s u ∧ exec i u = .next t ∧ (s.busy = true → i = .schTick)) ∨
      sameMachine s t ∧ s.busy = false := by
  unfold step at h
  rcases nextMove_cases s with ⟨i, u, e, h1, h2⟩ | ⟨u, e, h1, h2⟩ <;> rw [e] at h
  · exact .inl ⟨i, u, h1, h, h2⟩
  · cases h
    exact .inr ⟨h1, h2⟩

/-- Every step answers a next state (log 1). -/
theorem step_next (s : State) : ∃ t, step s = .next t := by
  unfold step
  split
  · exact exec_next _ _
  · exact ⟨_, rfl⟩

end Sys2Proof.Machine
end

