-- ==== Sys2Proof/Laws/Invariant.lean ====
section
/-! SUPPORT. The invariant of an armed engine: an engine in order has no alarm due, and a tick keeps it in order. -/

namespace Sys2Proof.Machine

theorem contains_pinInsert (q p : Nat) (g : List Nat) : (pinInsert q g).contains p = (p == q || g.contains p) := by
  rw [Bool.eq_iff_iff]; simp

theorem contains_filter_one (q p : Nat) (g : List Nat) :
    (g.filter fun x => !([q].contains x)).contains p = (g.contains p && p != q) := by
  rw [Bool.eq_iff_iff]; simp

/-- An engine in order has no alarm due: the deadline of the enabled one is still to come (R41 item 5, R209). -/
theorem EngineOk.notDue {c : Cfg} {s : State} (h : EngineOk c s) (a : Axis) : alarmDue a s = false := by
  by_cases hp : parked c s
  · obtain ⟨hv, hh, -, -, hlt⟩ := h.handedOver hp
    cases a
    · simp [alarmDue, hh]
    · have : vPhaseEnd c s ≠ s.cnt := by omega
      simp [alarmDue, hv, this]
  · obtain ⟨hh, hv, -, hlt⟩ := h.running hp
    cases a
    · have : hPhaseEnd c s ≠ s.cnt := by omega
      simp [alarmDue, hh, this]
    · simp [alarmDue, hv]

/-- Between steps an engine in order is in no bare busy-wait. -/
theorem EngineOk.noBareSpin {c : Cfg} {s : State} (h : EngineOk c s) (th : Nat) : s.spin ≠ some (.bare th) := by
  have := h.context
  unfold contextIs at this
  split at this
  · simp [this.2]
  · split at this <;> simp [this.2]

/-- Time passes with no alarm due (R164). -/
theorem EngineOk.pass {c : Cfg} {s : State} (h : EngineOk c s) (hh : ¬ parked c s → hPhaseEnd c s ≠ s.cnt + 1)
    (hv : parked c s → vPhaseEnd c s ≠ s.cnt + 1) : EngineOk c { s with cnt := s.cnt + 1 } where
  valid := h.valid
  cursor := h.cursor
  stride := h.stride
  fastZero := h.fastZero
  cursorZero := h.cursorZero
  running hp := by
    obtain ⟨h1, h2, h3, h4⟩ := h.running hp
    have := hh hp
    exact ⟨h1, h2, Nat.le_succ_of_le h3, show s.cnt + 1 < hPhaseEnd c s by omega⟩
  handedOver hp := by
    obtain ⟨h1, h2, h3, h4, h5⟩ := h.handedOver hp
    have := hv hp
    exact ⟨h1, h2, h3, Nat.le_succ_of_le h4, show s.cnt + 1 < vPhaseEnd c s by omega⟩
  line := h.line
  lines := h.lines
  hsync := h.hsync
  vsync := h.vsync
  latches := h.latches
  context := h.context

/-- The alarm whose deadline has come may be served: the context is free, or spins for it (R166, R167). -/
theorem EngineOk.dueH {c : Cfg} {s : State} (h : EngineOk c s) (hp : ¬ parked c s)
    (ht : hPhaseEnd c s = s.cnt + 1) : alarmDue .H { s with cnt := s.cnt + 1 } = true := by
  obtain ⟨hh, -⟩ := h.running hp
  have hc := h.context
  unfold contextIs at hc
  rw [if_neg hp] at hc
  simp only [alarmDue, alarm_H, hh, ht, beq_self_eq_true, Bool.true_and, Bool.or_eq_true, Bool.not_eq_true',
    beq_iff_eq]
  split at hc
  · exact .inl hc.1
  · split at hc
    · exact .inl hc.1
    · exact .inr hc.2

theorem EngineOk.dueV {c : Cfg} {s : State} (h : EngineOk c s) (hp : parked c s)
    (ht : vPhaseEnd c s = s.cnt + 1) : alarmDue .V { s with cnt := s.cnt + 1 } = true := by
  obtain ⟨hh, -, hb, -⟩ := h.handedOver hp
  have hc := h.context
  unfold contextIs at hc
  rw [if_pos hp, if_neg (by simp [hb])] at hc
  simp only [alarmDue, alarm_V, hh, ht, beq_self_eq_true, Bool.true_and, Bool.or_eq_true, Bool.not_eq_true',
    beq_iff_eq]
  split at hc
  · exact .inl hc.1
  · exact .inr hc.2

/-- The context after a blanking handler whose successor is on the axis that runs. -/
theorem contextIs_tail {c : Cfg} {s : State} {a : Axis} (hp : s.hPhase ≠ .activePixel)
    (ha : a = if parked c s then .V else .H) (hs : s.spin = tailSpin c a) (hb : s.busy = (tailSpin c a).isSome) :
    contextIs c s := by
  unfold contextIs
  unfold tailSpin at hs hb
  cases hst : c.strategy <;> simp [hst] at hs hb
  · exact ⟨hb, hs⟩
  · rw [if_neg hp, ← ha]; exact ⟨hb, hs⟩

/-- The context after a handler that starts a line. -/
theorem contextIs_start {c : Cfg} {s : State} (hp : s.hPhase = .activePixel) (hs : s.spin = none)
    (hb : s.busy = false) : contextIs c s := by
  unfold contextIs
  cases c.strategy
  · exact ⟨hb, hs⟩
  · rw [if_pos hp]; exact ⟨hb, hs⟩

/-- The two ends of the horizontal phase order. -/
theorem grid_facts {c : Cfg} (hv : c.valid) :
    1 ≤ c.hActive ∧ 1 ≤ c.hFp ∧ 1 ≤ c.hSync ∧ 1 ≤ c.hBp ∧ 1 ≤ c.vFp ∧ 1 ≤ c.vSync ∧ 1 ≤ c.vBp ∧ 1 ≤ c.pixelPeriod
    ∧ 1 ≤ c.stride ∧ c.vActive = c.nSlow ∧ c.hActive = c.nFast * c.pixelPeriod
    ∧ c.hLine = c.hActive + c.hFp + c.hSync + c.hBp := by
  obtain ⟨-, ⟨h1, h2, h3, h4⟩, ⟨-, h5, h6, h7⟩, ⟨h8, h9⟩, h10, h11, -⟩ := Cfg.valid_spec hv
  exact ⟨h1, h2, h3, h4, h5, h6, h7, h8, h9, h11, h10, rfl⟩

/-- The levels of the sync lines, and that no latch line is asserted. -/
def syncPins (c : Cfg) (g : List Nat) (h v : Bool) : Prop :=
  g.contains c.hsyncPin = h ∧ g.contains c.vsyncPin = v ∧ ∀ ch, g.contains (c.latchPin.get ch) = false

theorem EngineOk.syncPins {c : Cfg} {s : State} (h : EngineOk c s) :
    syncPins c s.gpio (s.hPhase == .sync) (s.vPhase == .sync) := ⟨h.hsync, h.vsync, h.latches⟩

theorem syncPins.insertH {c : Cfg} (hv : c.valid) {g : List Nat} {h v : Bool} (hg : syncPins c g h v) :
    syncPins c (pinInsert c.hsyncPin g) true v := by
  obtain ⟨d1, d2, -, -⟩ := Cfg.pins_distinct hv
  refine ⟨?_, ?_, fun ch => ?_⟩
  · rw [contains_pinInsert]; simp
  · rw [contains_pinInsert, hg.2.1, beq_eq_false_iff_ne.2 d1.symm, Bool.false_or]
  · rw [contains_pinInsert, hg.2.2, beq_eq_false_iff_ne.2 (d2 ch).1, Bool.false_or]

theorem syncPins.insertV {c : Cfg} (hv : c.valid) {g : List Nat} {h v : Bool} (hg : syncPins c g h v) :
    syncPins c (pinInsert c.vsyncPin g) h true := by
  obtain ⟨d1, d2, -, -⟩ := Cfg.pins_distinct hv
  refine ⟨?_, ?_, fun ch => ?_⟩
  · rw [contains_pinInsert, hg.1, beq_eq_false_iff_ne.2 d1, Bool.false_or]
  · rw [contains_pinInsert]; simp
  · rw [contains_pinInsert, hg.2.2, beq_eq_false_iff_ne.2 (d2 ch).2, Bool.false_or]

theorem syncPins.clearH {c : Cfg} (hv : c.valid) {g : List Nat} {h v : Bool} (hg : syncPins c g h v) :
    syncPins c (g.filter fun x => !([c.hsyncPin].contains x)) false v := by
  obtain ⟨d1, -, -, -⟩ := Cfg.pins_distinct hv
  refine ⟨?_, ?_, fun ch => ?_⟩
  · rw [contains_filter_one, bne_self_eq_false, Bool.and_false]
  · rw [contains_filter_one, hg.2.1, bne_iff_ne.2 d1.symm, Bool.and_true]
  · rw [contains_filter_one, hg.2.2, Bool.false_and]

theorem syncPins.clearV {c : Cfg} (hv : c.valid) {g : List Nat} {h v : Bool} (hg : syncPins c g h v) :
    syncPins c (g.filter fun x => !([c.vsyncPin].contains x)) h false := by
  obtain ⟨d1, -, -, -⟩ := Cfg.pins_distinct hv
  refine ⟨?_, ?_, fun ch => ?_⟩
  · rw [contains_filter_one, hg.1, bne_iff_ne.2 d1, Bool.and_true]
  · rw [contains_filter_one, bne_self_eq_false, Bool.and_false]
  · rw [contains_filter_one, hg.2.2, Bool.false_and]

theorem syncPins.pixel {c : Cfg} (hv : c.valid) {g : List Nat} {h v : Bool} (hg : syncPins c g h v) (p : Pixel) :
    syncPins c (pixelGpio c p g) h v := by
  obtain ⟨d1, d2, -, d4⟩ := Cfg.pins_distinct hv
  have key : ∀ q, (∀ i r, c.pinOfBit.get i = some r → r ≠ q) → (∀ ch, q ≠ c.latchPin.get ch) →
      (pixelGpio c p g).contains q = g.contains q := by
    intro q h1 h2
    rw [Bool.eq_iff_iff, List.contains_iff_mem, List.contains_iff_mem]
    refine mem_pixelGpio_other p g (fun hq => ?_) h2
    obtain ⟨i, -, hi⟩ := (mem_colorPins _ _).1 hq
    exact h1 i q hi rfl
  refine ⟨?_, ?_, fun ch => ?_⟩
  · rw [key _ (fun i r hr => (d4 i r hr).1) (fun ch => (d2 ch).1.symm), hg.1]
  · rw [key _ (fun i r hr => (d4 i r hr).2.1) (fun ch => (d2 ch).2.symm), hg.2.1]
  · rw [Bool.eq_false_iff, ne_eq, List.contains_iff_mem]
    exact latch_not_mem_pixelGpio hv p g ch

/-- `lineIs` says the same in every phase after the active one. -/
theorem lineIs_congr {c : Cfg} {s t : State} {L : Nat} (h : lineIs c s L) (h1 : s.hPhase ≠ .activePixel)
    (h2 : t.hPhase ≠ .activePixel) (h3 : t.vPhase = s.vPhase) (h4 : t.slow = s.slow) (h5 : t.vcnt = s.vcnt) :
    lineIs c t L := by
  unfold lineIs at *
  rw [h3, h4, h5]
  cases hv : s.vPhase <;> cases hd : c.verticalDrive <;> cases hs : s.hPhase <;> cases ht : t.hPhase <;> simp_all

/-- `H.FP` served keeps the engine in order. -/
theorem EngineOk.served_hFp {c : Cfg} {s : State} (h : EngineOk c s) (ha : s.armed = true) (hm : s.md = some c)
    (hp : ¬ parked c s) (hph : s.hPhase = .frontPorch) (ht : hPhaseEnd c s = s.cnt + 1) :
    EngineOk c (dispatch .H { s with cnt := s.cnt + 1 }) := by
  obtain ⟨hh, hva, -, -⟩ := h.running hp
  obtain ⟨-, -, g3, -⟩ := grid_facts h.valid
  have hpin := h.syncPins.insertH h.valid
  simp only [hPhaseEnd, hph] at ht
  rw [dispatch_hFp (s := { s with cnt := s.cnt + 1 }) h.valid ha hm hph
    (by simp [hh, hph, HandlerId.ofAxisPhase]) ht.symm]
  exact
    { valid := h.valid
      cursor := h.cursor
      stride := h.stride
      fastZero := fun _ => h.fastZero (by simp [hph])
      cursorZero := h.cursorZero
      running := fun _ => ⟨rfl, hva, show hFpEnd c s ≤ s.cnt + 1 by omega,
        show s.cnt + 1 < hSyncEnd c s by simp only [hSyncEnd, hFpEnd] at *; omega⟩
      handedOver := fun hp' => absurd hp' hp
      line := by
        obtain ⟨L, hL, hl⟩ := h.line
        exact ⟨L, hL, lineIs_congr hl (by simp [hph]) (by simp) rfl rfl rfl⟩
      lines := h.lines
      hsync := hpin.1
      vsync := hpin.2.1
      latches := hpin.2.2
      context := contextIs_tail (by simp) (if_neg hp).symm rfl rfl }

/-- `H.SYNC` served keeps the engine in order. -/
theorem EngineOk.served_hSync {c : Cfg} {s : State} (h : EngineOk c s) (ha : s.armed = true) (hm : s.md = some c)
    (hp : ¬ parked c s) (hph : s.hPhase = .sync) (ht : hPhaseEnd c s = s.cnt + 1) :
    EngineOk c (dispatch .H { s with cnt := s.cnt + 1 }) := by
  obtain ⟨hh, hva, -, -⟩ := h.running hp
  obtain ⟨-, -, -, g4, -, -, -, -, -, -, -, g5⟩ := grid_facts h.valid
  have hpin := h.syncPins.clearH h.valid
  simp only [hPhaseEnd, hph] at ht
  rw [dispatch_hSync (s := { s with cnt := s.cnt + 1 }) h.valid ha hm hph
    (by simp [hh, hph, HandlerId.ofAxisPhase]) ht.symm]
  exact
    { valid := h.valid
      cursor := h.cursor
      stride := h.stride
      fastZero := fun _ => h.fastZero (by simp [hph])
      cursorZero := h.cursorZero
      running := fun _ => ⟨rfl, hva, show hSyncEnd c s ≤ s.cnt + 1 by omega,
        show s.cnt + 1 < hLineEnd c s by simp only [hSyncEnd, hLineEnd] at *; omega⟩
      handedOver := fun hp' => absurd hp' hp
      line := by
        obtain ⟨L, hL, hl⟩ := h.line
        exact ⟨L, hL, lineIs_congr hl (by simp [hph]) (by simp) rfl rfl rfl⟩
      lines := h.lines
      hsync := hpin.1
      vsync := hpin.2.1
      latches := hpin.2.2
      context := contextIs_tail (by simp) (if_neg hp).symm rfl rfl }

/-- The time of a pixel tick, and the cursor it finds (R78). -/
theorem EngineOk.pixelTick {c : Cfg} {s : State} (h : EngineOk c s) :
    ∃ k, s.fast = k * c.stride ∧ s.fast / c.stride = k := by
  obtain ⟨-, -, -, -, -, -, -, -, g9, -⟩ := grid_facts h.valid
  obtain ⟨k, hk⟩ := h.stride
  refine ⟨k, by rw [hk, Nat.mul_comm], ?_⟩
  rw [hk, Nat.mul_div_cancel_left _ (by omega)]

/-- `H.ACTIVE` served keeps the engine in order. -/
theorem EngineOk.served_hActive {c : Cfg} {s : State} (h : EngineOk c s) (ha : s.armed = true) (hm : s.md = some c)
    (hp : ¬ parked c s) (hph : s.hPhase = .activePixel) (ht : hPhaseEnd c s = s.cnt + 1) :
    EngineOk c (dispatch .H { s with cnt := s.cnt + 1 }) := by
  obtain ⟨hh, hva, -, -⟩ := h.running hp
  obtain ⟨-, g2, -, -, -, -, -, g8, g9, -, g11, -⟩ := grid_facts h.valid
  have hhd : s.alarmH.handler = .hActive := by simp [hh, hph, HandlerId.ofAxisPhase]
  obtain ⟨L, hL, hl⟩ := h.line
  by_cases hvp : s.vPhase = .activePixel
  · obtain ⟨k, hk, hkd⟩ := h.pixelTick
    have hslow : s.slow = L * c.stride := by simpa [lineIs, hvp, hph] using hl
    simp only [hPhaseEnd, hph, hvp, if_true, hkd] at ht
    have hcur := h.cursor
    have hlines := h.lines
    rw [if_neg (by simp [hvp])] at hlines
    have hpin := h.syncPins.pixel h.valid (cursorPixel c { s with cnt := s.cnt + 1 })
    by_cases hmore : s.fast + c.stride < c.fastLimit
    · rw [dispatch_hActive_more (s := { s with cnt := s.cnt + 1 }) h.valid ha hm hph hvp hhd hmore hcur.2]
      have hk1 : (s.fast + c.stride) / c.stride = k + 1 := by
        rw [Nat.add_div_right _ (by omega), hkd]
      exact
        { valid := h.valid
          cursor := ⟨hmore, hcur.2⟩
          stride := Nat.dvd_add h.stride (Nat.dvd_refl _)
          fastZero := fun hn => absurd hph hn
          cursorZero := fun hn => absurd hvp hn
          running := fun _ => by
            have e1 : hPhaseEnd c { s with fast := s.fast + c.stride } = s.cnt + 1 + c.pixelPeriod := by
              simp only [hPhaseEnd, hph, hvp, if_true, hk1]
              rw [Nat.add_mul (k + 1)]; omega
            refine ⟨?_, hva, ?_, ?_⟩
            · change Alarm.mk true (s.cnt + 1 + c.pixelPeriod) .hActive = Alarm.mk true (hPhaseEnd c { s with fast := s.fast + c.stride }) (HandlerId.ofAxisPhase .H s.hPhase)
              rw [e1, hph]; rfl
            · simp only [emitted, hPhaseStart, hph, hvp, if_true, hk1]; omega
            · change s.cnt + 1 < hPhaseEnd c { s with fast := s.fast + c.stride }
              omega
          handedOver := fun hp' => absurd hp' hp
          line := ⟨L, hL, by simpa [lineIs, hvp, hph, emitted] using hslow⟩
          lines := by rw [if_neg (by simp [hvp, emitted])]; exact hlines
          hsync := hpin.1
          vsync := hpin.2.1
          latches := hpin.2.2
          context := contextIs_start hph rfl rfl }
    · have hn : c.nFast = k + 1 := ceilDiv_eq_succ g9 (by omega) (by omega)
      have hact : c.hActive = (k + 1) * c.pixelPeriod := by rw [g11, hn]
      rw [dispatch_hActive_last (s := { s with cnt := s.cnt + 1 }) h.valid ha hm hph hvp hhd hcur.1 (by dsimp only; omega) hcur.2
        (by simp only [hFpEnd]; omega)]
      exact
        { valid := h.valid
          cursor := ⟨by dsimp only; omega, by dsimp only; split <;> omega⟩
          stride := Nat.dvd_zero _
          fastZero := fun _ => rfl
          cursorZero := fun hn => absurd hvp hn
          running := fun _ => ⟨rfl, hva, show s.lineStart + c.hActive ≤ s.cnt + 1 by omega,
            show s.cnt + 1 < hFpEnd c s by simp only [hFpEnd]; omega⟩
          handedOver := fun hp' => absurd hp' hp
          line := by
            refine ⟨L, hL, ?_⟩
            simp only [lineIs, hvp, emitted]
            split
            · next hw =>
              refine .inr ⟨rfl, ?_⟩
              exact (ceilDiv_eq_succ g9 (by omega) (by omega)).symm
            · exact .inl (by rw [hslow, Nat.add_mul]; omega)
          lines := by rw [if_neg (by simp [hvp, emitted])]; exact hlines
          hsync := by
            have := hpin.1
            rw [hph] at this
            exact this
          vsync := hpin.2.1
          latches := hpin.2.2
          context := contextIs_tail (by simp) (if_neg hp).symm rfl rfl }
  · simp only [hPhaseEnd, hph, if_neg hvp] at ht
    rw [dispatch_hActive_blank (s := { s with cnt := s.cnt + 1 }) h.valid ha hm hph hvp hhd (by simp only [hFpEnd]; omega)]
    have hpin := h.syncPins
    rw [hph] at hpin
    exact
      { valid := h.valid
        cursor := h.cursor
        stride := h.stride
        fastZero := fun _ => (h.cursorZero hvp).1
        cursorZero := h.cursorZero
        running := fun _ => ⟨rfl, hva, show s.lineStart + c.hActive ≤ s.cnt + 1 by omega,
          show s.cnt + 1 < hFpEnd c s by simp only [hFpEnd]; omega⟩
        handedOver := fun hp' => absurd hp' hp
        line := by
          refine ⟨L, hL, ?_⟩
          revert hl
          unfold lineIs
          cases hvv : s.vPhase <;> cases c.verticalDrive <;> simp_all
        lines := h.lines
        hsync := hpin.1
        vsync := hpin.2.1
        latches := hpin.2.2
        context := contextIs_tail (by simp) (if_neg hp).symm rfl rfl }

/-- A frame start is an engine in order (R126, R144, R162). -/
theorem engineOk_frameStart {c : Cfg} (hv : c.valid) {s : State} (h1 : s.fast = 0) (h2 : s.slow = 0)
    (h3 : s.vcnt = 0) (h4 : s.hPhase = .activePixel) (h5 : s.vPhase = .activePixel)
    (h6 : s.alarmH = ⟨true, s.cnt + c.pixelPeriod, .hActive⟩) (h7 : s.alarmV.en = false) (h8 : s.frameStart = s.cnt)
    (h9 : s.lineStart = s.cnt) (h10 : s.spin = none) (h11 : s.busy = false) (h12 : syncPins c s.gpio false false) :
    EngineOk c s := by
  have w := Cfg.valid_spec hv
  obtain ⟨⟨w1, w2⟩, -, -, ⟨w3, w4⟩, -⟩ := w
  have e1 : hPhaseStart c s = s.cnt := by simp [hPhaseStart, h4, h5, h1, h9]
  have e2 : hPhaseEnd c s = s.cnt + c.pixelPeriod := by simp [hPhaseEnd, h4, h5, h1, h9]
  have hn : ¬ parked c s := fun hp => hp.2 h5
  exact
    { valid := hv
      cursor := by
        rw [h1, h2]
        unfold Cfg.fastLimit Cfg.slowLimit
        cases c.scanOrder <;> exact ⟨by assumption, by assumption⟩
      stride := by rw [h1]; exact Nat.dvd_zero _
      fastZero := fun _ => h1
      cursorZero := fun _ => ⟨h1, h2⟩
      running := fun _ => ⟨by rw [h6, e2, h4]; rfl, h7, by omega, by omega⟩
      handedOver := fun hp => absurd hp hn
      line := ⟨0, by rw [h9, h8]; omega, by simp [lineIs, h4, h5, h2]⟩
      lines := by rw [if_neg (by simp [h5])]; exact h3
      hsync := by rw [h4]; exact h12.1
      vsync := by rw [h5]; exact h12.2.1
      latches := h12.2.2
      context := contextIs_start h4 h10 h11 }

theorem phase_cases {p : Phase} (h : p ≠ .activePixel) : p = .frontPorch ∨ p = .sync ∨ p = .backPorch := by
  cases p
  · exact absurd rfl h
  · exact .inl rfl
  · exact .inr (.inl rfl)
  · exact .inr (.inr rfl)

/-- `H.BP` served keeps the engine in order. -/
theorem EngineOk.served_hBp {c : Cfg} {s : State} (h : EngineOk c s) (ha : s.armed = true) (hm : s.md = some c)
    (hp : ¬ parked c s) (hph : s.hPhase = .backPorch) (ht : hPhaseEnd c s = s.cnt + 1) :
    EngineOk c (dispatch .H { s with cnt := s.cnt + 1 }) := by
  obtain ⟨hh, hva, -, -⟩ := h.running hp
  obtain ⟨g1, -, -, -, g5, g6, g7, g8, g9, g10, -, -⟩ := grid_facts h.valid
  have hhd : s.alarmH.handler = .hBp := by simp [hh, hph, HandlerId.ofAxisPhase]
  have hf0 := h.fastZero (by simp [hph])
  simp only [hPhaseEnd, hph] at ht
  obtain ⟨L, hL, hl⟩ := h.line
  have hcnt : s.cnt + 1 = s.frameStart + (L + 1) * c.hLine := by
    rw [Nat.add_mul, Nat.one_mul]; simp only [hLineEnd] at ht; omega
  have hpin := h.syncPins
  rw [hph] at hpin
  have hlines := h.lines
  by_cases hvp : s.vPhase = .activePixel
  · rw [if_neg (by simp [hvp])] at hlines
    have hl' : s.slow = (L + 1) * c.stride ∨ s.slow = 0 ∧ L + 1 = c.nSlow := by
      simpa [lineIs, hvp, hph] using hl
    rw [hvp] at hpin
    by_cases hs : s.slow = 0
    · have hLn : L + 1 = c.nSlow := by
        rcases hl' with hl' | hl'
        · have := Nat.mul_pos (show 0 < L + 1 by omega) g9; omega
        · exact hl'.2
      cases hd : c.verticalDrive
      · rw [dispatch_hBp_enter (s := { s with cnt := s.cnt + 1 }) h.valid ha hm hd hph hhd hvp hs]
        exact
          { valid := h.valid
            cursor := h.cursor
            stride := h.stride
            fastZero := fun _ => hf0
            cursorZero := fun _ => ⟨hf0, hs⟩
            running := fun _ => ⟨by simp [hPhaseEnd, HandlerId.ofAxisPhase], hva, by simp [hPhaseStart],
              by simp [hPhaseEnd]; omega⟩
            handedOver := fun hp' => by simp [parked, hd] at hp'
            line := ⟨L + 1, hcnt, by simp [lineIs, hd, phaseEndLine, hLn]⟩
            lines := by rw [if_pos (by simp [hd])]; exact ⟨g5, Nat.le_refl _⟩
            hsync := hpin.1
            vsync := hpin.2.1
            latches := hpin.2.2
            context := contextIs_start rfl rfl rfl }
      · have hend : s.cnt + 1 + c.vFp * c.hLine = vFpEnd c s := by
          rw [hcnt, hLn, vFpEnd, Nat.add_mul]; omega
        have hl1 : 1 ≤ c.hLine := by unfold Cfg.hLine; omega
        have hpos := Nat.mul_pos g5 hl1
        rw [dispatch_hBp_park (s := { s with cnt := s.cnt + 1 }) h.valid ha hm hd hph hhd hvp hs hend]
        have hpk : parked c { s with vPhase := .frontPorch } := ⟨hd, by simp⟩
        exact
          { valid := h.valid
            cursor := h.cursor
            stride := h.stride
            fastZero := fun _ => hf0
            cursorZero := fun _ => ⟨hf0, hs⟩
            running := fun hn => absurd hpk hn
            handedOver := fun _ => ⟨rfl, rfl, hph, by simp only [vPhaseStart, ← hLn]; exact Nat.le_of_eq hcnt.symm,
              show s.cnt + 1 < vFpEnd c s by omega⟩
            line := ⟨L, hL, by simp [lineIs, hd, hLn]⟩
            lines := by rw [if_neg (by simp [hd])]; exact hlines
            hsync := by rw [hph]; exact hpin.1
            vsync := hpin.2.1
            latches := hpin.2.2
            context := contextIs_tail (by rw [hph]; simp) (if_pos hpk).symm rfl rfl }
    · rw [dispatch_hBp_active (s := { s with cnt := s.cnt + 1 }) h.valid ha hm hph hhd hvp hs]
      exact
        { valid := h.valid
          cursor := h.cursor
          stride := h.stride
          fastZero := fun _ => hf0
          cursorZero := fun hn => absurd hvp hn
          running := fun _ => ⟨by simp [hPhaseEnd, HandlerId.ofAxisPhase, hvp, hf0], hva,
            by simp [hPhaseStart, hvp, hf0], by simp [hPhaseEnd, hvp, hf0]; omega⟩
          handedOver := fun hp' => absurd hp' hp
          line := ⟨L + 1, hcnt, by
            simp only [lineIs, hvp]
            rcases hl' with hl' | hl'
            · exact hl'
            · exact absurd hl'.1 hs⟩
          lines := by rw [if_neg (by simp [hvp])]; exact hlines
          hsync := hpin.1
          vsync := by rw [hvp]; exact hpin.2.1
          latches := hpin.2.2
          context := contextIs_start rfl rfl rfl }
  · have hd : c.verticalDrive = .lineChained := by
      cases hd : c.verticalDrive
      · rfl
      · exact absurd ⟨hd, hvp⟩ hp
    rw [if_pos ⟨hd, hvp⟩] at hlines
    obtain ⟨hf0, hs0⟩ := h.cursorZero hvp
    have hl' : L + s.vcnt = phaseEndLine c s.vPhase := by
      revert hl
      simp only [lineIs, hph, hd]
      cases hv : s.vPhase <;> simp_all
    by_cases hn : s.vcnt = 1
    · rcases phase_cases hvp with hv | hv | hv
      · rw [hv] at hpin
        have hp2 := hpin.insertV h.valid
        rw [dispatch_hBp_vFp (s := { s with cnt := s.cnt + 1 }) h.valid ha hm hd hph hhd hv hn]
        exact
          { valid := h.valid
            cursor := h.cursor
            stride := h.stride
            fastZero := fun _ => hf0
            cursorZero := fun _ => ⟨hf0, hs0⟩
            running := fun _ => ⟨by simp [hPhaseEnd, HandlerId.ofAxisPhase], hva, by simp [hPhaseStart],
              by simp [hPhaseEnd]; omega⟩
            handedOver := fun hp' => by simp [parked, hd] at hp'
            line := ⟨L + 1, hcnt, by
              simp only [hv, phaseEndLine] at hl'
              simp only [lineIs, hd, phaseEndLine]; omega⟩
            lines := by rw [if_pos (by simp [hd])]; exact ⟨g6, Nat.le_refl _⟩
            hsync := hp2.1
            vsync := hp2.2.1
            latches := hp2.2.2
            context := contextIs_start rfl rfl rfl }
      · rw [hv] at hpin
        have hp2 := hpin.clearV h.valid
        rw [dispatch_hBp_vSync (s := { s with cnt := s.cnt + 1 }) h.valid ha hm hd hph hhd hv hn]
        exact
          { valid := h.valid
            cursor := h.cursor
            stride := h.stride
            fastZero := fun _ => hf0
            cursorZero := fun _ => ⟨hf0, hs0⟩
            running := fun _ => ⟨by simp [hPhaseEnd, HandlerId.ofAxisPhase], hva, by simp [hPhaseStart],
              by simp [hPhaseEnd]; omega⟩
            handedOver := fun hp' => by simp [parked, hd] at hp'
            line := ⟨L + 1, hcnt, by
              simp only [hv, phaseEndLine] at hl'
              simp only [lineIs, hd, phaseEndLine]; omega⟩
            lines := by rw [if_pos (by simp [hd])]; exact ⟨g7, Nat.le_refl _⟩
            hsync := hp2.1
            vsync := hp2.2.1
            latches := hp2.2.2
            context := contextIs_start rfl rfl rfl }
      · rw [hv] at hpin
        rw [dispatch_hBp_vBp (s := { s with cnt := s.cnt + 1 }) h.valid ha hm hd hph hhd hv hn]
        exact engineOk_frameStart h.valid rfl rfl rfl rfl rfl rfl hva rfl rfl rfl rfl hpin
    · rw [dispatch_hBp_blank (s := { s with cnt := s.cnt + 1 }) h.valid ha hm hd hph hhd hvp (by dsimp only; omega)]
      exact
        { valid := h.valid
          cursor := h.cursor
          stride := h.stride
          fastZero := fun _ => hf0
          cursorZero := fun _ => ⟨hf0, hs0⟩
          running := fun _ => ⟨by simp [hPhaseEnd, HandlerId.ofAxisPhase, hvp], hva, by simp [hPhaseStart, hvp],
            by simp [hPhaseEnd, hvp]; omega⟩
          handedOver := fun hp' => absurd hp' hp
          line := by
            refine ⟨L + 1, hcnt, ?_⟩
            simp only [lineIs, hd]
            cases hv : s.vPhase
            · exact absurd hv hvp
            all_goals
              simp only [hv] at hl'
              dsimp only
              omega
          lines := by
            rw [if_pos ⟨hd, hvp⟩]
            exact ⟨by dsimp only; omega, by dsimp only; omega⟩
          hsync := hpin.1
          vsync := hpin.2.1
          latches := hpin.2.2
          context := contextIs_start rfl rfl rfl }

/-- A vertical handler served by ALARM_V keeps the engine in order. -/
theorem EngineOk.served_V {c : Cfg} {s : State} (h : EngineOk c s) (ha : s.armed = true) (hm : s.md = some c)
    (hp : parked c s) (ht : vPhaseEnd c s = s.cnt + 1) :
    EngineOk c (dispatch .V { s with cnt := s.cnt + 1 }) := by
  obtain ⟨hh, hha, hph, -, -⟩ := h.handedOver hp
  obtain ⟨hd, hvp⟩ := hp
  obtain ⟨g1, -, -, -, g5, g6, g7, g8, g9, g10, -, -⟩ := grid_facts h.valid
  have hl1 : 1 ≤ c.hLine := by unfold Cfg.hLine; omega
  obtain ⟨hf0, hs0⟩ := h.cursorZero hvp
  obtain ⟨L, hL, hl⟩ := h.line
  have hLn : L + 1 = c.nSlow := by
    revert hl
    simp only [lineIs, hph, hd]
    cases hv : s.vPhase <;> simp_all
  have hlines := h.lines
  rw [if_neg (by simp [hd])] at hlines
  have hpin := h.syncPins
  rw [hph] at hpin
  rcases phase_cases hvp with hv | hv | hv
  · simp only [vPhaseEnd, hv] at ht
    rw [hv] at hpin
    have hp2 := hpin.insertV h.valid
    have hpos := Nat.mul_pos g6 hl1
    rw [dispatch_vFp (s := { s with cnt := s.cnt + 1 }) h.valid ha hm hd hv
      (by simp [hh, hv, HandlerId.ofAxisPhase]) ht.symm]
    have hpk : parked c { s with vPhase := .sync } := ⟨hd, by simp⟩
    exact
      { valid := h.valid
        cursor := h.cursor
        stride := h.stride
        fastZero := fun _ => hf0
        cursorZero := fun _ => ⟨hf0, hs0⟩
        running := fun hn => absurd hpk hn
        handedOver := fun _ => ⟨rfl, hha, hph, show vFpEnd c s ≤ s.cnt + 1 by omega, by
          change s.cnt + 1 < vSyncEnd c s
          rw [← ht]
          simp only [vFpEnd, vSyncEnd, Nat.add_mul]; omega⟩
        line := ⟨L, hL, by simp [lineIs, hd, hLn]⟩
        lines := by rw [if_neg (by simp [hd])]; exact hlines
        hsync := by rw [hph]; exact hp2.1
        vsync := hp2.2.1
        latches := hp2.2.2
        context := contextIs_tail (by rw [hph]; simp) (if_pos hpk).symm rfl rfl }
  · simp only [vPhaseEnd, hv] at ht
    rw [hv] at hpin
    have hp2 := hpin.clearV h.valid
    have hpos := Nat.mul_pos g7 hl1
    rw [dispatch_vSync (s := { s with cnt := s.cnt + 1 }) h.valid ha hm hd hv
      (by simp [hh, hv, HandlerId.ofAxisPhase]) ht.symm]
    have hpk : parked c { s with vPhase := .backPorch } := ⟨hd, by simp⟩
    exact
      { valid := h.valid
        cursor := h.cursor
        stride := h.stride
        fastZero := fun _ => hf0
        cursorZero := fun _ => ⟨hf0, hs0⟩
        running := fun hn => absurd hpk hn
        handedOver := fun _ => ⟨rfl, hha, hph, show vSyncEnd c s ≤ s.cnt + 1 by omega, by
          change s.cnt + 1 < vFrameEnd c s
          rw [← ht]
          simp only [vSyncEnd, vFrameEnd, Cfg.vLines, g10, Nat.add_mul]; omega⟩
        line := ⟨L, hL, by simp [lineIs, hd, hLn]⟩
        lines := by rw [if_neg (by simp [hd])]; exact hlines
        hsync := by rw [hph]; exact hp2.1
        vsync := hp2.2.1
        latches := hp2.2.2
        context := contextIs_tail (by rw [hph]; simp) (if_pos hpk).symm rfl rfl }
  · rw [hv] at hpin
    rw [dispatch_vBp (s := { s with cnt := s.cnt + 1 }) h.valid ha hm hv (by simp [hh, hv, HandlerId.ofAxisPhase])]
    exact engineOk_frameStart h.valid rfl rfl rfl rfl rfl rfl rfl rfl rfl rfl rfl hpin

/-- Everything a tick of an engine in order can be: time passes, or the one alarm whose deadline comes is served;
no second alarm follows (R164, R174). -/
theorem EngineOk.tick_cases {c : Cfg} {s : State} (h : EngineOk c s) (ha : s.armed = true) (hm : s.md = some c) :
    EngineOk c (tick s) ∧
      (¬ parked c s ∧ hPhaseEnd c s = s.cnt + 1 ∧ tick s = dispatch .H { s with cnt := s.cnt + 1 }
      ∨ parked c s ∧ vPhaseEnd c s = s.cnt + 1 ∧ tick s = dispatch .V { s with cnt := s.cnt + 1 }
      ∨ (¬ parked c s → hPhaseEnd c s ≠ s.cnt + 1) ∧ (parked c s → vPhaseEnd c s ≠ s.cnt + 1)
        ∧ tick s = { s with cnt := s.cnt + 1 }) := by
  have hr : releaseBareSpin { s with cnt := s.cnt + 1 } = { s with cnt := s.cnt + 1 } := by
    unfold releaseBareSpin
    rw [if_neg (h.noBareSpin _)]
  by_cases hp : parked c s
  · by_cases ht : vPhaseEnd c s = s.cnt + 1
    · have hok := h.served_V ha hm hp ht
      have hd := h.dueV hp ht
      have hnH : alarmDue .H { s with cnt := s.cnt + 1 } = false := by
        simp [alarmDue, (h.handedOver hp).2.1]
      have e : tick s = dispatch .V { s with cnt := s.cnt + 1 } := by
        unfold tick
        rw [hr, serveAlarms, if_neg (by simp [hnH]), if_pos hd, serveAlarms, if_neg (by simp [hok.notDue]),
          if_neg (by simp [hok.notDue])]
      exact ⟨e ▸ hok, .inr (.inl ⟨hp, ht, e⟩)⟩
    · have hok := h.pass (fun hn => absurd hp hn) (fun _ => ht)
      have e : tick s = { s with cnt := s.cnt + 1 } := by
        unfold tick
        rw [hr, serveAlarms, if_neg (by simp [hok.notDue]), if_neg (by simp [hok.notDue])]
      exact ⟨e ▸ hok, .inr (.inr ⟨fun hn => absurd hp hn, fun _ => ht, e⟩)⟩
  · by_cases ht : hPhaseEnd c s = s.cnt + 1
    · have hok : EngineOk c (dispatch .H { s with cnt := s.cnt + 1 }) := by
        by_cases hph : s.hPhase = .activePixel
        · exact h.served_hActive ha hm hp hph ht
        rcases phase_cases hph with hph | hph | hph
        · exact h.served_hFp ha hm hp hph ht
        · exact h.served_hSync ha hm hp hph ht
        · exact h.served_hBp ha hm hp hph ht
      have e : tick s = dispatch .H { s with cnt := s.cnt + 1 } := by
        unfold tick
        rw [hr, serveAlarms, if_pos (h.dueH hp ht), serveAlarms, if_neg (by simp [hok.notDue]),
          if_neg (by simp [hok.notDue])]
      exact ⟨e ▸ hok, .inl ⟨hp, ht, e⟩⟩
    · have hok := h.pass (fun _ => ht) (fun hn => absurd hn hp)
      have e : tick s = { s with cnt := s.cnt + 1 } := by
        unfold tick
        rw [hr, serveAlarms, if_neg (by simp [hok.notDue]), if_neg (by simp [hok.notDue])]
      exact ⟨e ▸ hok, .inr (.inr ⟨fun _ => ht, fun hn => absurd hn hp, e⟩)⟩

end Sys2Proof.Machine
end

