-- ==== Sys2Proof/Laws/Ticks.lean ====
section
/-! SUPPORT. Every tick of an engine in order, in closed form: the thirteen things that can happen, each with the place of
the frame's grid (R78) at which it happens and all that it writes. -/

namespace Sys2Proof.Machine

/-- The state a blanking handler leaves under either strategy: phase `p` begun, ALARM_H at `th` for `h`. -/
def chainedH (c : Cfg) (p : Phase) (th : Nat) (h : HandlerId) (s : State) : State :=
  { s with
    hPhase := p, alarmH := ⟨true, th, h⟩, spin := tailSpin c .H, busy := (tailSpin c .H).isSome }

/-- The same for a vertical handler under DEDICATED_TIMER. -/
def chainedV (c : Cfg) (p : Phase) (th : Nat) (h : HandlerId) (s : State) : State :=
  { s with
    vPhase := p, alarmV := ⟨true, th, h⟩, spin := tailSpin c .V, busy := (tailSpin c .V).isSome }

/-- A line begun, its first alarm `d` ticks ahead. -/
def lineBegun (d : Nat) (s : State) : State :=
  { s with
    hPhase := .activePixel, lineStart := s.cnt, alarmH := ⟨true, s.cnt + d, .hActive⟩, spin := none, busy := false }

/-- A frame begun (R144). -/
def frameBegun (c : Cfg) (s : State) : State :=
  lineBegun c.pixelPeriod
    { s with
      fast := 0, slow := 0, vPhase := .activePixel, vcnt := 0, frameStart := s.cnt, front := frontAfter c s,
      swapReq := requestAfter c s, alarmV := { s.alarmV with en := false } }

/-- What a tick makes of `s`; the index is the state of `s` with CNT counted on. -/
inductive TickForm (c : Cfg) (s : State) : State → Prop
  | pass (hh : ¬ parked c s → s.cnt + 1 ≠ hPhaseEnd c s) (hv : parked c s → s.cnt + 1 ≠ vPhaseEnd c s) :
    TickForm c s { s with cnt := s.cnt + 1 }
  | pixel (k L : Nat) (hh : s.hPhase = .activePixel) (hv : s.vPhase = .activePixel) (hk : s.fast = k * c.stride)
    (hL : s.slow = L * c.stride) (ht : s.cnt + 1 = s.frameStart + L * c.hLine + (k + 1) * c.pixelPeriod)
    (hn : k + 1 < c.nFast) (hs : L < c.nSlow) :
    TickForm c s
      { emitted c { s with cnt := s.cnt + 1 } with
        fast := s.fast + c.stride, alarmH := ⟨true, s.cnt + 1 + c.pixelPeriod, .hActive⟩, spin := none, busy := false }
  | lastPixel (k L : Nat) (hh : s.hPhase = .activePixel) (hv : s.vPhase = .activePixel) (hk : s.fast = k * c.stride)
    (hL : s.slow = L * c.stride) (ht : s.cnt + 1 = s.frameStart + L * c.hLine + (k + 1) * c.pixelPeriod)
    (hn : k + 1 = c.nFast) (hs : L < c.nSlow) :
    TickForm c s
      (chainedH c .frontPorch (s.cnt + 1 + c.hFp) .hFp
        { emitted c { s with cnt := s.cnt + 1 } with
          fast := 0, slow := if c.slowLimit ≤ s.slow + c.stride then 0 else s.slow + c.stride })
  | blankEnd (hh : s.hPhase = .activePixel) (hv : s.vPhase ≠ .activePixel) (ht : s.cnt + 1 = s.lineStart + c.hActive) :
    TickForm c s (chainedH c .frontPorch (s.cnt + 1 + c.hFp) .hFp { s with cnt := s.cnt + 1 })
  | porch (hh : s.hPhase = .frontPorch) (ht : s.cnt + 1 = hFpEnd c s) :
    TickForm c s (chainedH c .sync (hSyncEnd c s) .hSync (pinSetOp [c.hsyncPin] { s with cnt := s.cnt + 1 }))
  | sync (hh : s.hPhase = .sync) (ht : s.cnt + 1 = hSyncEnd c s) :
    TickForm c s (chainedH c .backPorch (hLineEnd c s) .hBp (pinClearOp [c.hsyncPin] { s with cnt := s.cnt + 1 }))
  | line (hh : s.hPhase = .backPorch) (hv : s.vPhase = .activePixel) (hs : s.slow ≠ 0)
    (ht : s.cnt + 1 = hLineEnd c s) : TickForm c s (lineBegun c.pixelPeriod { s with cnt := s.cnt + 1 })
  | park (hh : s.hPhase = .backPorch) (hv : s.vPhase = .activePixel) (hs : s.slow = 0)
    (hd : c.verticalDrive = .dedicatedTimer) (ht : s.cnt + 1 = s.frameStart + c.nSlow * c.hLine) :
    TickForm c s
      (chainedV c .frontPorch (vFpEnd c s) .vFp
        { s with cnt := s.cnt + 1, alarmH := { s.alarmH with en := false } })
  | blank (n : Nat) (p : Phase) (t : State) (hh : s.hPhase = .backPorch) (hd : c.verticalDrive = .lineChained)
    (ht : s.cnt + 1 = hLineEnd c s) (hp : p ≠ .activePixel)
    (hc : p = .frontPorch ∧ s.vPhase = .activePixel ∧ s.slow = 0 ∧ t = { s with cnt := s.cnt + 1 } ∨
      p = .sync ∧ s.vPhase = .frontPorch ∧ t = pinSetOp [c.vsyncPin] { s with cnt := s.cnt + 1 } ∨
      p = .backPorch ∧ s.vPhase = .sync ∧ t = pinClearOp [c.vsyncPin] { s with cnt := s.cnt + 1 } ∨
      p = s.vPhase ∧ t = { s with cnt := s.cnt + 1 }) :
    TickForm c s (lineBegun c.hActive { t with vPhase := p, vcnt := n })
  | frame (hh : s.hPhase = .backPorch) (hv : s.vPhase = .backPorch) (ht : s.cnt + 1 = s.frameStart + c.fTicks)
    (hx : s.alarmV.en = false ∨ parked c s) :
    TickForm c s (frameBegun c { s with cnt := s.cnt + 1 })
  | vPorch (hp : parked c s) (hv : s.vPhase = .frontPorch) (ht : s.cnt + 1 = vFpEnd c s) :
    TickForm c s (chainedV c .sync (vSyncEnd c s) .vSync (pinSetOp [c.vsyncPin] { s with cnt := s.cnt + 1 }))
  | vSync (hp : parked c s) (hv : s.vPhase = .sync) (ht : s.cnt + 1 = vSyncEnd c s) :
    TickForm c s (chainedV c .backPorch (vFrameEnd c s) .vBp (pinClearOp [c.vsyncPin] { s with cnt := s.cnt + 1 }))

/-- Every tick of an engine in order has one of these forms (R164, R174). -/
theorem EngineOk.tickForm {c : Cfg} {s : State} (h : EngineOk c s) (ha : s.armed = true) (hm : s.md = some c) :
    TickForm c s (tick s) := by
  obtain ⟨g1, g2, g3, g4, g5, g6, g7, g8, g9, g10, g11, g12⟩ := grid_facts h.valid
  obtain ⟨L, hL, hl⟩ := h.line
  rcases (h.tick_cases ha hm).2 with ⟨hp, ht, e⟩ | ⟨hp, ht, e⟩ | ⟨hh, hv, e⟩
  · rw [e]
    obtain ⟨hh, hva, -, -⟩ := h.running hp
    rcases (show s.hPhase = .activePixel ∨ s.hPhase = .frontPorch ∨ s.hPhase = .sync ∨ s.hPhase = .backPorch by
      cases s.hPhase <;> simp) with hph | hph | hph | hph
    · have hhd : s.alarmH.handler = .hActive := by simp [hh, hph, HandlerId.ofAxisPhase]
      by_cases hvp : s.vPhase = .activePixel
      · obtain ⟨k, hk, hkd⟩ := h.pixelTick
        have hslow : s.slow = L * c.stride := by simpa [lineIs, hvp, hph] using hl
        simp only [hPhaseEnd, hph, hvp, if_true, hkd] at ht
        have hcur := h.cursor
        have hLs : L < c.nSlow := (lt_ceilDiv_iff g9).2 (by omega)
        by_cases hmore : s.fast + c.stride < c.fastLimit
        · rw [dispatch_hActive_more (s := { s with cnt := s.cnt + 1 }) h.valid ha hm hph hvp hhd hmore hcur.2]
          refine .pixel k L hph hvp hk hslow (by omega) ((lt_ceilDiv_iff g9).2 ?_) hLs
          rw [Nat.add_mul]
          omega
        · have hn : c.nFast = k + 1 := ceilDiv_eq_succ g9 (by omega) (by omega)
          have hact : c.hActive = (k + 1) * c.pixelPeriod := by rw [g11, hn]
          have hend : hFpEnd c s = s.cnt + 1 + c.hFp := by simp only [hFpEnd]; omega
          rw [dispatch_hActive_last (s := { s with cnt := s.cnt + 1 }) h.valid ha hm hph hvp hhd hcur.1
            (by dsimp only; omega) hcur.2 hend.symm, show hFpEnd c { s with cnt := s.cnt + 1 } = _ from hend]
          exact .lastPixel k L hph hvp hk hslow (by omega) hn.symm hLs
      · simp only [hPhaseEnd, hph, hvp, if_false] at ht
        have hend : hFpEnd c s = s.cnt + 1 + c.hFp := by simp only [hFpEnd]; omega
        rw [dispatch_hActive_blank (s := { s with cnt := s.cnt + 1 }) h.valid ha hm hph hvp hhd hend.symm,
          show hFpEnd c { s with cnt := s.cnt + 1 } = _ from hend]
        exact .blankEnd hph hvp ht.symm
    · have hhd : s.alarmH.handler = .hFp := by simp [hh, hph, HandlerId.ofAxisPhase]
      simp only [hPhaseEnd, hph] at ht
      rw [dispatch_hFp (s := { s with cnt := s.cnt + 1 }) h.valid ha hm hph hhd ht.symm]
      exact .porch hph ht.symm
    · have hhd : s.alarmH.handler = .hSync := by simp [hh, hph, HandlerId.ofAxisPhase]
      simp only [hPhaseEnd, hph] at ht
      rw [dispatch_hSync (s := { s with cnt := s.cnt + 1 }) h.valid ha hm hph hhd ht.symm]
      exact .sync hph ht.symm
    · have hhd : s.alarmH.handler = .hBp := by simp [hh, hph, HandlerId.ofAxisPhase]
      simp only [hPhaseEnd, hph] at ht
      have hcnt : s.cnt + 1 = s.frameStart + (L + 1) * c.hLine := by
        rw [Nat.add_mul, Nat.one_mul]
        simp only [hLineEnd] at ht
        omega
      by_cases hvp : s.vPhase = .activePixel
      · have hl' : s.slow = (L + 1) * c.stride ∨ s.slow = 0 ∧ L + 1 = c.nSlow := by
          simpa [lineIs, hvp, hph] using hl
        by_cases hs : s.slow = 0
        · have hLn : L + 1 = c.nSlow := by
            rcases hl' with hl' | hl'
            · have := Nat.mul_pos (show 0 < L + 1 by omega) g9
              omega
            · exact hl'.2
          cases hd : c.verticalDrive
          · rw [dispatch_hBp_enter (s := { s with cnt := s.cnt + 1 }) h.valid ha hm hd hph hhd hvp hs]
            exact .blank c.vFp .frontPorch _ hph hd ht.symm (by simp) (.inl ⟨rfl, hvp, hs, rfl⟩)
          · have hend : s.cnt + 1 + c.vFp * c.hLine = vFpEnd c s := by
              rw [hcnt, hLn, vFpEnd, Nat.add_mul]
              omega
            rw [dispatch_hBp_park (s := { s with cnt := s.cnt + 1 }) h.valid ha hm hd hph hhd hvp hs hend]
            exact .park hph hvp hs hd (by rw [hcnt, hLn])
        · rw [dispatch_hBp_active (s := { s with cnt := s.cnt + 1 }) h.valid ha hm hph hhd hvp hs]
          exact .line hph hvp hs ht.symm
      · have hd : c.verticalDrive = .lineChained := by
          cases hd : c.verticalDrive
          · rfl
          · exact absurd ⟨hd, hvp⟩ hp
        have hlines := h.lines
        rw [if_pos ⟨hd, hvp⟩] at hlines
        by_cases hn : s.vcnt = 1
        · rcases phase_cases hvp with hv | hv | hv
          · rw [dispatch_hBp_vFp (s := { s with cnt := s.cnt + 1 }) h.valid ha hm hd hph hhd hv hn]
            exact .blank c.vSync .sync _ hph hd ht.symm (by simp) (.inr (.inl ⟨rfl, hv, rfl⟩))
          · rw [dispatch_hBp_vSync (s := { s with cnt := s.cnt + 1 }) h.valid ha hm hd hph hhd hv hn]
            exact .blank c.vBp .backPorch _ hph hd ht.symm (by simp) (.inr (.inr (.inl ⟨rfl, hv, rfl⟩)))
          · have hl' : L + s.vcnt = phaseEndLine c .backPorch := by simpa [lineIs, hph, hd, hv] using hl
            rw [dispatch_hBp_vBp (s := { s with cnt := s.cnt + 1 }) h.valid ha hm hd hph hhd hv hn]
            have ea : s.alarmV = { s.alarmV with en := false } := by rw [← hva]
            have := TickForm.frame (c := c) hph hv (by
              rw [hcnt, Cfg.fTicks, Cfg.vLines, g10]
              simp only [phaseEndLine] at hl'
              rw [show L + 1 = c.nSlow + c.vFp + c.vSync + c.vBp by omega]) (.inl hva)
            unfold frameBegun lineBegun at this
            dsimp only at this
            rw [← ea] at this
            exact this
        · rw [dispatch_hBp_blank (s := { s with cnt := s.cnt + 1 }) h.valid ha hm hd hph hhd hvp (by dsimp only; omega)]
          exact .blank (s.vcnt - 1) s.vPhase _ hph hd ht.symm hvp (.inr (.inr (.inr ⟨rfl, rfl⟩)))
  · rw [e]
    obtain ⟨hh, hha, hph, -, -⟩ := h.handedOver hp
    rcases phase_cases hp.2 with hv | hv | hv
    · simp only [vPhaseEnd, hv] at ht
      rw [dispatch_vFp (s := { s with cnt := s.cnt + 1 }) h.valid ha hm hp.1 hv
        (by simp [hh, hv, HandlerId.ofAxisPhase]) ht.symm]
      exact .vPorch hp hv ht.symm
    · simp only [vPhaseEnd, hv] at ht
      rw [dispatch_vSync (s := { s with cnt := s.cnt + 1 }) h.valid ha hm hp.1 hv
        (by simp [hh, hv, HandlerId.ofAxisPhase]) ht.symm]
      exact .vSync hp hv ht.symm
    · simp only [vPhaseEnd, hv, vFrameEnd] at ht
      rw [dispatch_vBp (s := { s with cnt := s.cnt + 1 }) h.valid ha hm hv (by simp [hh, hv, HandlerId.ofAxisPhase])]
      exact .frame hph hv (by rw [← ht, Cfg.fTicks]) (.inr hp)
  · rw [e]
    exact .pass (fun hn => (hh hn).symm) (fun hn => (hv hn).symm)

end Sys2Proof.Machine
end

