-- ==== Sys2Proof/Laws/Machine.lean ====
section
/-! SUPPORT. The invariant of the machine, operation by operation: what each answer keeps of `MachineOk`. -/

namespace Sys2Proof.Machine

/-- A history stays a history. -/
theorem Follows.traceOk {s t : State} (h : Follows s t) (hs : traceOk s) : traceOk t := by
  obtain ⟨hc, -, evs, he, ht, -⟩ := h
  refine ⟨?_, fun e hm => ?_⟩
  · rw [he]
    refine List.pairwise_append.2 ⟨hs.1, ?_, fun a ha b hb => ?_⟩
    · exact List.pairwise_of_forall_mem_list fun a ha b hb => Nat.le_of_eq ((ht a ha).1.trans (ht b hb).1.symm)
    · exact (ht b hb).1 ▸ (hs.2 a ha).1
  · rw [he] at hm
    rcases List.mem_append.1 hm with hm | hm
    · exact hc ▸ hs.2 e hm
    · exact ⟨Nat.le_of_eq ((ht e hm).1.trans hc.symm), (ht e hm).2⟩

/-- `EngineOk` speaks of no field of the Framebuffer, of the issuer's bookkeeping, nor of FAULT. -/
theorem EngineOk.of_same {c : Cfg} {s t : State} (h : EngineOk c s)
    (e : t = { s with
      pix := t.pix, fault := t.fault, dac := t.dac, fb0 := t.fb0, fb1 := t.fb1, front := t.front, swapReq := t.swapReq,
      trace := t.trace, script := t.script, work := t.work, choices := t.choices, outcomes := t.outcomes,
      nfree := t.nfree, alloc := t.alloc, response := t.response }) : EngineOk c t := by
  rw [e]
  exact ⟨h.valid, h.cursor, h.stride, h.fastZero, h.cursorZero, h.running, h.handedOver, h.line, h.lines, h.hsync,
    h.vsync, h.latches, h.context⟩

/-- `MachineOk` speaks of no field of the issuer's bookkeeping, nor of FAULT. -/
theorem MachineOk.of_same {s t : State} (h : MachineOk s)
    (e : t = { s with
      fault := t.fault, script := t.script, work := t.work, choices := t.choices, outcomes := t.outcomes,
      nfree := t.nfree, alloc := t.alloc, response := t.response }) : MachineOk t := by
  refine ⟨fun ha => ?_, ?_, ?_, ?_, ?_, ?_, ?_, ?_⟩
  · rw [e] at ha
    obtain ⟨c, hm, hk⟩ := h.engine ha
    exact ⟨c, by rw [e]; exact hm, hk.of_same (by rw [e])⟩
  all_goals rw [e]
  · exact h.idle
  · exact h.mode
  · exact h.memory
  · exact h.slots
  · exact h.single
  · exact h.pins
  · exact h.trace

/-- The double buffer through a tick: untouched, but for the swap at a frame start (R64, R144). -/
theorem TickForm.front {c : Cfg} {s t : State} (h : TickForm c s t) :
    t.front = s.front ∧ t.swapReq = s.swapReq ∧ t.frameStart = s.frameStart ∧ s.cnt + 1 = t.cnt ∨
      s.cnt + 1 = s.frameStart + c.fTicks ∧ t = frameBegun c { s with cnt := s.cnt + 1 } := by
  cases h with
  | frame _ _ ht _ => exact .inr ⟨ht, rfl⟩
  | blank n p u _ _ _ _ hc =>
    left
    rcases hc with ⟨-, -, -, rfl⟩ | ⟨-, -, rfl⟩ | ⟨-, -, rfl⟩ | ⟨-, rfl⟩ <;> exact ⟨rfl, rfl, rfl, rfl⟩
  | _ => exact .inl ⟨rfl, rfl, rfl, rfl⟩

/-- A tick of an idle machine only counts (R231). -/
theorem tick_idle {s : State} (h1 : s.alarmH.en = false) (h2 : s.alarmV.en = false) (h3 : s.spin = none) :
    tick s = { s with cnt := s.cnt + 1 } := by
  simp [tick, releaseBareSpin, h3, serveAlarms, alarmDue, h1, h2]

/-- A tick keeps the machine in order. -/
theorem MachineOk.tick {s : State} (h : MachineOk s) : MachineOk (tick s) := by
  have hf := follows_tick s
  have htr : traceOk { s with cnt := s.cnt + 1 } :=
    ⟨h.trace.1, fun e he => ⟨Nat.le_succ_of_le (h.trace.2 e he).1, (h.trace.2 e he).2⟩⟩
  have hmem : ∀ b ch, ((Machine.tick s).buffer b).get ch = ((s.buffer b).get ch) := fun b ch => by
    cases b <;> simp [State.buffer]
  refine ⟨fun ha => ?_, fun ha => ?_, fun c hc => h.mode c (by simpa using hc), fun b ch => ?_, fun b ch e he => ?_,
    fun c hc hd => ?_, hf.2.1 h.pins, hf.traceOk htr⟩
  · obtain ⟨c, hm, hk⟩ := h.engine (by simpa using ha)
    exact ⟨c, by simpa using hm, (hk.tick_cases (by simpa using ha) hm).1⟩
  · have ha : s.armed = false := by simpa using ha
    obtain ⟨h1, h2, h3, h4⟩ := h.idle ha
    rw [tick_idle h1 h2 h4]
    exact ⟨h1, h2, h3, h4⟩
  · rw [hmem]
    exact h.memory b ch
  · rw [hmem] at he
    obtain ⟨c, hm, hl⟩ := h.slots b ch e he
    exact ⟨c, by simpa using hm, hl⟩
  · have hm : s.md = some c := by simpa using hc
    obtain ⟨h1, h2⟩ := h.single c hm hd
    cases ha : s.armed
    · obtain ⟨h3, h4, h5, h6⟩ := h.idle ha
      rw [tick_idle h3 h4 h6]
      exact ⟨h1, h2⟩
    · obtain ⟨c', hm', hk⟩ := h.engine ha
      obtain rfl : c = c' := by rw [hm] at hm'; injection hm'
      rcases (hk.tickForm ha hm).front with ⟨e1, e2, -⟩ | ⟨-, e⟩
      · exact ⟨e1.trans h1, e2.trans h2⟩
      · rw [e]
        simp [frameBegun, lineBegun, frontAfter, requestAfter, hd, h1, h2]

/-- An operation of a disarmed machine that only drives pins and captures (R100 to R105). -/
theorem MachineOk.pinsDriven {s t : State} (h : MachineOk s) (hb : s.armed = false) (hf : Follows s t)
    (e : t = { s with gpio := t.gpio, trace := t.trace, dac := t.dac }) : MachineOk t := by
  refine ⟨fun ha => ?_, fun _ => ?_, ?_, ?_, ?_, ?_, hf.2.1 h.pins, hf.traceOk h.trace⟩
  · rw [e] at ha
    exact absurd (ha.symm.trans hb) (by simp)
  all_goals rw [e]
  · exact h.idle hb
  · exact h.mode
  · exact h.memory
  · exact h.slots
  · exact h.single

/-- A store keeps the machine in order. -/
theorem MachineOk.stored {c : Cfg} {s : State} (h : MachineOk s) (hm : s.md = some c) {a : Nat} (ha : a < c.w * c.h)
    (b : Bool) (ch : Channel) (v : Byte) : MachineOk (storeChannel b a ch v s) := by
  have e : storeChannel b a ch v s
      = { s with fb0 := (storeChannel b a ch v s).fb0, fb1 := (storeChannel b a ch v s).fb1 } := by cases b <;> rfl
  refine ⟨fun hr => ?_, ?_, ?_, storeChannel_memoryOk h.memory b a ch v, fun d dh x hx => ?_, ?_, ?_, ?_⟩
  · obtain ⟨c', hm', hk⟩ := h.engine (by rw [e] at hr; exact hr)
    exact ⟨c', by rw [e]; exact hm', hk.of_same (by rw [e])⟩
  · rw [e]; exact h.idle
  · rw [e]; exact h.mode
  · have hmem : (storeChannel b a ch v s).md = some c := by rw [e]; exact hm
    by_cases hd : d = b
    · subst hd
      unfold storeChannel at hx
      rw [buffer_setBuffer_same] at hx
      by_cases hh : dh = ch
      · subst hh
        rw [PerChannel.get_set_same] at hx
        rcases Memory.mem_write hx with hx | hx
        · exact ⟨c, hmem, by rw [hx]; exact ha⟩
        · obtain ⟨c', hm', hl⟩ := h.slots _ _ x hx
          exact ⟨c', by rw [e]; exact hm', hl⟩
      · rw [PerChannel.get_set_other _ _ hh] at hx
        obtain ⟨c', hm', hl⟩ := h.slots _ _ x hx
        exact ⟨c', by rw [e]; exact hm', hl⟩
    · unfold storeChannel at hx
      rw [buffer_setBuffer_other _ _ hd] at hx
      obtain ⟨c', hm', hl⟩ := h.slots _ _ x hx
      exact ⟨c', by rw [e]; exact hm', hl⟩
  · rw [e]; exact h.single
  · rw [e]; exact h.pins
  · rw [e]; exact h.trace

/-- The double buffer's own registers. -/
theorem MachineOk.buffers {c : Cfg} {s : State} (h : MachineOk s) (hm : s.md = some c) (hd : c.doubleBuffer = true)
    (f r : Bool) : MachineOk { s with front := f, swapReq := r } := by
  refine ⟨fun hr => ?_, h.idle, h.mode, h.memory, h.slots, fun c' hc hd' => ?_, h.pins, h.trace⟩
  · obtain ⟨c', hm', hk⟩ := h.engine hr
    exact ⟨c', hm', hk.of_same rfl⟩
  · obtain rfl : c = c' := by have := hm.symm.trans hc; injection this
    rw [hd] at hd'
    cases hd'

/-- The arm sequence starts an engine in order (R162). -/
theorem MachineOk.armed {c : Cfg} {s : State} (h : MachineOk s) (hm : s.md = some c) (hf : Follows s (armEngine c s)) :
    MachineOk (armEngine c s) := by
  have hv := h.mode c hm
  obtain ⟨-, -, -, -, -, -, -, g8, -⟩ := grid_facts hv
  have e : armEngine c s
      = { s with
          gpio := s.gpio.filter (fun p => !(enginePins c).contains p),
          trace := s.trace ++ [⟨s.cnt, .clear, enginePins c⟩], fast := 0, slow := 0, vcnt := 0,
          vPhase := .activePixel, alarmV := { s.alarmV with en := false }, frameStart := s.cnt, busy := false,
          spin := none, armed := true, hPhase := .activePixel, lineStart := s.cnt,
          alarmH := ⟨true, s.cnt + c.pixelPeriod, .hActive⟩ } := by
    unfold armEngine
    rw [startActiveLine_eq g8]
    rfl
  have hin : ∀ p ∈ c.allPins, p ∈ enginePins c := fun p hp => by simpa [enginePins] using hp
  have hoff : ∀ p ∈ c.allPins, (s.gpio.filter (fun p => !(enginePins c).contains p)).contains p = false :=
    fun p hp => by
      have := hin p hp
      simp [this]
  refine ⟨fun _ => ⟨c, by rw [e]; exact hm, ?_⟩, fun ha => ?_, ?_, ?_, ?_, ?_, hf.2.1 h.pins, hf.traceOk h.trace⟩
  · rw [e]
    refine engineOk_frameStart hv rfl rfl rfl rfl rfl rfl rfl rfl rfl rfl rfl ⟨?_, ?_, fun ch => ?_⟩
    · exact hoff _ (by simp [Cfg.allPins])
    · exact hoff _ (by simp [Cfg.allPins])
    · exact hoff _ (by cases ch <;> simp [Cfg.allPins, PerChannel.get])
  · rw [e] at ha
    cases ha
  all_goals rw [e]
  · exact h.mode
  · exact h.memory
  · exact h.slots
  · exact h.single

/-- Every operation that may be issued between steps keeps the machine in order. -/
theorem MachineOk.exec {i : Instr} {s t : State} (h : MachineOk s) (hi : s.busy = true → i = .schTick)
    (ht : exec i s = .next t) : MachineOk t := by
  by_cases hi' : i = .schTick
  · subst hi'
    cases ht
    exact h.tick
  have hb : s.busy = false := by
    cases hb : s.busy
    · rfl
    · exact absurd (hi hb) hi'
  have hf := follows_exec hi' ht
  have hno : ∀ {p : Prop}, s.busy = true → p := fun h => by rw [hb] at h; cases h
  have hdis : ∀ c, primitiveReady c s → s.armed = false := fun c hc => hc.1.elim (fun h => hno h) id
  refine exec_ind (P := fun t => Follows s t → MachineOk t) ?_ ht hf
  constructor
  all_goals intros
  case raisedInterrupt h _ => exact hno h
  case handler h _ => exact hno h
  case alarmSet h _ => exact hno h
  case spun h _ _ => exact hno h
  case ticked h _ => exact absurd h hi'
  case stored hc hx _ => exact h.stored hc.2.2 (slot_lt hx) _ _ _
  case storedPixel hc hx _ =>
    have hm := hc.2.2
    have e : ∀ b a ch v (u : State), (storeChannel b a ch v u).md = u.md := fun b a ch v u => by cases b <;> rfl
    exact ((h.stored hm (slot_lt hx) _ _ _).stored ((e _ _ _ _ _).trans hm) (slot_lt hx) _ _ _).stored
      ((e _ _ _ _ _).trans ((e _ _ _ _ _).trans hm)) (slot_lt hx) _ _ _
  case swapRequested hc hd _ _ => exact h.buffers hc.2.2 hd _ _
  case swapped hc hd _ _ => exact h.buffers hc.2.2 hd _ _
  case cleared hc hf => exact h.pinsDriven (hdis _ hc) hf rfl
  case colored hc hf => exact h.pinsDriven (hdis _ hc) hf rfl
  case latchedOn hc hf => exact h.pinsDriven (hdis _ hc) hf rfl
  case latchedOff hc hf => exact h.pinsDriven (hdis _ hc) hf rfl
  case channel hc hf => exact h.pinsDriven (hdis _ hc) hf (by rw [emitChannel_eq])
  case pixel hc hf => exact h.pinsDriven (hdis _ hc) hf (by rw [emitPixel_eq (h.mode _ hc.2)])
  case dispatched a _ hd _ =>
    cases ha : s.armed
    · obtain ⟨h1, h2, -⟩ := h.idle ha
      cases a <;> simp [alarmDue, h1, h2] at hd
    · obtain ⟨c, -, hk⟩ := h.engine ha
      rw [hk.notDue] at hd
      cases hd
  case armed hc _ hf => exact h.armed hc.2.2 hf
  case configured cfg _ _ _ ha hv hf =>
    refine ⟨fun hr => ?_, h.idle, fun c hc => ?_, fun b ch => ?_, fun b ch e he => ?_, fun c hc hd => ⟨rfl, rfl⟩, h.pins,
      h.trace⟩
    · exact absurd (ha.symm.trans hr) (by simp)
    · obtain rfl : cfg = c := by simpa [installMode] using hc
      exact hv
    · cases b <;> cases ch <;> exact List.Pairwise.nil
    · cases b <;> cases ch <;> cases he
  case disarmed _ ha _ =>
    obtain ⟨c, -, hk⟩ := h.engine ha
    have hs : s.spin = none := by
      have := hk.context
      unfold contextIs at this
      split at this
      · exact this.2
      · split at this
        · exact this.2
        · exact hno this.1
    exact ⟨fun hr => (by cases hr), fun _ => ⟨rfl, rfl, hb, hs⟩, h.mode, h.memory, h.slots, h.single, h.pins, h.trace⟩
  all_goals exact h.of_same rfl

end Sys2Proof.Machine
end

