-- ==== Sys2Proof/Laws/Grid.lean ====
section
/-! SUPPORT. Where on the frame's grid (R78) an engine in order is: its line, the offset in the line, and the windows of the
phases; and how FRAME_START moves along ticks. -/

namespace Sys2Proof.Machine

/-- The offsets in a line at which the horizontal phase is `p` (R78). -/
def hWindow (c : Cfg) (off : Nat) : Phase → Prop
  | .activePixel => off < c.hActive
  | .frontPorch => c.hActive ≤ off ∧ off < c.hActive + c.hFp
  | .sync => c.hActive + c.hFp ≤ off ∧ off < c.hActive + c.hFp + c.hSync
  | .backPorch => c.hActive + c.hFp + c.hSync ≤ off ∧ off < c.hLine

/-- The lines of a frame at which the vertical phase is `p` (R78). -/
def vWindow (c : Cfg) (L : Nat) : Phase → Prop
  | .activePixel => L < c.nSlow
  | .frontPorch => c.nSlow ≤ L ∧ L < c.nSlow + c.vFp
  | .sync => c.nSlow + c.vFp ≤ L ∧ L < c.nSlow + c.vFp + c.vSync
  | .backPorch => c.nSlow + c.vFp + c.vSync ≤ L ∧ L < c.vLines

/-- Where an engine whose horizontal axis runs is. -/
theorem EngineOk.place {c : Cfg} {s : State} (h : EngineOk c s) (hp : ¬ parked c s) :
    ∃ L off, s.cnt = s.frameStart + L * c.hLine + off ∧ s.lineStart = s.frameStart + L * c.hLine ∧ off < c.hLine ∧
      hWindow c off s.hPhase ∧ vWindow c L s.vPhase ∧
      (s.hPhase = .activePixel → s.vPhase = .activePixel →
        s.slow = L * c.stride ∧ ∃ k, s.fast = k * c.stride ∧ k < c.nFast ∧ k * c.pixelPeriod ≤ off ∧
          off < (k + 1) * c.pixelPeriod) := by
  obtain ⟨g1, g2, g3, g4, g5, g6, g7, g8, g9, g10, g11, g12⟩ := grid_facts h.valid
  obtain ⟨L, hL, hl⟩ := h.line
  obtain ⟨-, -, h1, h2⟩ := h.running hp
  have hlines := h.lines
  have hvw : vWindow c L s.vPhase := by
    by_cases hv : s.vPhase = .activePixel
    · rw [hv]
      have hcur := h.cursor.2
      have hlt : ∀ k, k * c.stride < c.slowLimit → k < c.nSlow := fun k hk => (lt_ceilDiv_iff g9).2 hk
      by_cases hh : s.hPhase = .activePixel
      · have : s.slow = L * c.stride := by simpa [lineIs, hv, hh] using hl
        exact hlt L (by omega)
      · have : s.slow = (L + 1) * c.stride ∨ s.slow = 0 ∧ L + 1 = c.nSlow := by
          revert hl
          simp only [lineIs, hv]
          cases hc : s.hPhase <;> simp_all
        rcases this with e | ⟨-, e⟩
        · have := hlt (L + 1) (by omega)
          simp only [vWindow]
          omega
        · simp only [vWindow]
          omega
    · have hd : c.verticalDrive = .lineChained := by
        cases hd : c.verticalDrive
        · rfl
        · exact absurd ⟨hd, hv⟩ hp
      rw [if_pos ⟨hd, hv⟩] at hlines
      have hl' : L + s.vcnt = phaseEndLine c s.vPhase := by
        revert hl
        simp only [lineIs, hd]
        cases hc : s.vPhase <;> simp_all
      rcases phase_cases hv with e | e | e <;> rw [e] at hl' hlines ⊢ <;>
        simp only [vWindow, phaseEndLine, phaseLines, Cfg.vLines] at * <;> omega
  rcases (show s.hPhase = .activePixel ∨ s.hPhase = .frontPorch ∨ s.hPhase = .sync ∨ s.hPhase = .backPorch by
    cases s.hPhase <;> simp) with hh | hh | hh | hh
  · by_cases hv : s.vPhase = .activePixel
    · obtain ⟨k, hk, hkd⟩ := h.pixelTick
      simp only [hPhaseStart, hPhaseEnd, hh, hv, if_true, hkd] at h1 h2
      have hkn : k < c.nFast := (lt_ceilDiv_iff g9).2 (hk ▸ h.cursor.1)
      have hle : (k + 1) * c.pixelPeriod ≤ c.nFast * c.pixelPeriod := Nat.mul_le_mul_right _ hkn
      have hslow : s.slow = L * c.stride := by simpa [lineIs, hv, hh] using hl
      exact ⟨L, s.cnt - s.lineStart, by omega, hL, by omega, by rw [hh]; simp only [hWindow]; omega, hvw,
        fun _ _ => ⟨hslow, k, hk, hkn, by omega, by omega⟩⟩
    · simp only [hPhaseStart, hPhaseEnd, hh, hv, if_false] at h1 h2
      exact ⟨L, s.cnt - s.lineStart, by omega, hL, by omega, by rw [hh]; simp only [hWindow]; omega, hvw,
        fun _ hv' => absurd hv' hv⟩
  all_goals
    simp only [hPhaseStart, hPhaseEnd, hh, hFpEnd, hSyncEnd, hLineEnd] at h1 h2
    refine ⟨L, s.cnt - s.lineStart, by omega, hL, by omega, by rw [hh]; simp only [hWindow]; omega, hvw, ?_⟩
    intro hh'
    rw [hh] at hh'
    cases hh'

/-- Where an engine is in its frame, under both drives. -/
theorem EngineOk.inFrame {c : Cfg} {s : State} (h : EngineOk c s) :
    s.frameStart ≤ s.cnt ∧ s.cnt < s.frameStart + c.fTicks ∧
      (parked c s → c.nSlow * c.hLine ≤ s.cnt - s.frameStart) ∧
      ∃ L, vWindow c L s.vPhase ∧ L * c.hLine ≤ s.cnt - s.frameStart ∧ s.cnt - s.frameStart < (L + 1) * c.hLine := by
  obtain ⟨g1, g2, g3, g4, g5, g6, g7, g8, g9, g10, g11, g12⟩ := grid_facts h.valid
  have hpos : 0 < c.hLine := by omega
  by_cases hp : parked c s
  · obtain ⟨-, -, -, h1, h2⟩ := h.handedOver hp
    have key : ∀ a b, a * c.hLine ≤ s.cnt - s.frameStart → s.cnt - s.frameStart < b * c.hLine →
        a ≤ (s.cnt - s.frameStart) / c.hLine ∧ (s.cnt - s.frameStart) / c.hLine < b := fun a b ha hb =>
      ⟨(Nat.le_div_iff_mul_le hpos).2 ha, (Nat.div_lt_iff_lt_mul hpos).2 hb⟩
    have hin := Nat.div_mul_le_self (s.cnt - s.frameStart) c.hLine
    have hup : s.cnt - s.frameStart < ((s.cnt - s.frameStart) / c.hLine + 1) * c.hLine := by
      have e := Nat.div_add_mod (s.cnt - s.frameStart) c.hLine
      have m := Nat.mod_lt (s.cnt - s.frameStart) hpos
      rw [Nat.add_mul, Nat.one_mul, Nat.mul_comm]
      omega
    have mono : ∀ a b, a ≤ b → a * c.hLine ≤ b * c.hLine := fun a b hab => Nat.mul_le_mul_right _ hab
    have m1 := mono c.nSlow (c.nSlow + c.vFp) (by omega)
    have m2 := mono (c.nSlow + c.vFp) (c.nSlow + c.vFp + c.vSync) (by omega)
    have m3 := mono (c.nSlow + c.vFp + c.vSync) c.vLines (by unfold Cfg.vLines; omega)
    rcases phase_cases hp.2 with e | e | e
    all_goals
      simp only [vPhaseStart, vPhaseEnd, e, vFpEnd, vSyncEnd, vFrameEnd] at h1 h2
    · have := key c.nSlow (c.nSlow + c.vFp) (by omega) (by omega)
      exact ⟨by omega, by unfold Cfg.fTicks; omega, fun _ => by omega, _, by rw [e]; exact this, hin, hup⟩
    · have := key (c.nSlow + c.vFp) (c.nSlow + c.vFp + c.vSync) (by omega) (by omega)
      exact ⟨by omega, by unfold Cfg.fTicks; omega, fun _ => by omega, _, by rw [e]; exact this, hin, hup⟩
    · have := key (c.nSlow + c.vFp + c.vSync) c.vLines (by omega) (by omega)
      exact ⟨by omega, by unfold Cfg.fTicks; omega, fun _ => by omega, _, by rw [e]; exact this, hin, hup⟩
  · obtain ⟨L, off, e1, e2, e3, -, e5, -⟩ := h.place hp
    have hLv : L < c.vLines := by
      revert e5
      cases s.vPhase <;> simp only [vWindow, Cfg.vLines] <;> omega
    have := Nat.mul_le_mul_right c.hLine (show L + 1 ≤ c.vLines from hLv)
    rw [Nat.add_mul, Nat.one_mul] at this
    refine ⟨by omega, by unfold Cfg.fTicks; omega, fun hp' => absurd hp' hp, L, e5, by omega, ?_⟩
    rw [Nat.add_mul, Nat.one_mul]
    omega

/-- A run of ticks, one tick at a time. -/
theorem runTicks_succ (n : Nat) (s : State) : runTicks (n + 1) s = runTicks n (tick s) := rfl

theorem runTicks_next (n : Nat) (s : State) : ∃ t, runTicks n s = .next t := by
  induction n generalizing s with
  | zero => exact ⟨s, rfl⟩
  | succ n ih => exact ih (tick s)

/-- The engine and its configuration along a run of ticks, and how FRAME_START moves: it is the last frame start, one of
the F_TICKS-spaced instants since the first (R131, R148). -/
theorem runTicks_inv {c : Cfg} (n : Nat) {s t : State} (h : MachineOk s) (ha : s.armed = true) (hm : s.md = some c)
    (hr : runTicks n s = .next t) :
    MachineOk t ∧ t.armed = true ∧ t.md = some c ∧ t.cnt = s.cnt + n ∧
      ∃ q, t.frameStart = s.frameStart + q * c.fTicks := by
  induction n generalizing s with
  | zero =>
    cases hr
    exact ⟨h, ha, hm, rfl, 0, by omega⟩
  | succ n ih =>
    rw [runTicks_succ] at hr
    obtain ⟨h1, h2, h3, h4, q, h5⟩ := ih h.tick (by simpa using ha) (by simpa using hm) hr
    obtain ⟨c', hm', hk⟩ := h.engine ha
    obtain rfl : c = c' := by
      rw [hm] at hm'
      injection hm'
    refine ⟨h1, h2, h3, by rw [h4, tick_cnt]; omega, ?_⟩
    rcases (hk.tickForm ha hm).front with ⟨-, -, e, -⟩ | ⟨e1, e2⟩
    · exact ⟨q, by rw [h5, e]⟩
    · have : (tick s).frameStart = s.frameStart + c.fTicks := by
        rw [e2]
        exact e1
      exact ⟨q + 1, by rw [h5, this, Nat.add_mul, Nat.one_mul]; omega⟩

/-- A step between two armed states: the mode stays, and CNT and FRAME_START stay or a tick moves them. -/
theorem step_armed {c : Cfg} {s t : State} (h : MachineOk s) (ha : s.armed = true) (hm : s.md = some c)
    (hs : step s = .next t) :
    t.md = some c ∧ (t.cnt = s.cnt ∧ t.frameStart = s.frameStart ∨
      t.cnt = s.cnt + 1 ∧ (t.frameStart = s.frameStart ∨ t.frameStart = s.frameStart + c.fTicks)) := by
  rcases step_cases hs with ⟨i, u, h1, h2, h3⟩ | ⟨h1, -⟩
  · have hM : MachineOk u := h.of_same (by rw [h1])
    have hua : u.armed = true := by rw [h1]; exact ha
    have hum : u.md = some c := by rw [h1]; exact hm
    have hc : u.cnt = s.cnt := by rw [h1]
    have hf : u.frameStart = s.frameStart := by rw [h1]
    obtain ⟨c', hm', hk⟩ := hM.engine hua
    obtain rfl : c = c' := by
      rw [hum] at hm'
      injection hm'
    by_cases hi : i = .schTick
    · subst hi
      injection h2 with h2
      rw [← h2]
      refine ⟨by simpa using hum, .inr ⟨by simp [hc], ?_⟩⟩
      rcases (hk.tickForm hua hum).front with ⟨-, -, e, -⟩ | ⟨e1, e2⟩
      · exact .inl (e.trans hf)
      · right
        rw [e2, ← hf]
        exact e1
    · have hub : u.busy = false := by
        have hb : s.busy = false := by
          cases hb : s.busy
          · rfl
          · exact absurd (h3 hb) hi
        rw [h1]
        exact hb
      have hno : ∀ {p : Prop}, u.busy = true → p := fun h => by rw [hub] at h; cases h
      have hno2 : ∀ {p : Prop}, u.armed = false → p := fun h => by rw [hua] at h; cases h
      have key : t.md = u.md ∧ t.cnt = u.cnt ∧ t.frameStart = u.frameStart := by
        refine exec_ind (P := fun t => t.md = u.md ∧ t.cnt = u.cnt ∧ t.frameStart = u.frameStart) ?_ h2
        constructor
        all_goals intros
        case ticked h => exact absurd h hi
        case handler h => exact hno h
        case configured h _ => exact hno2 h
        case armed h => exact hno2 h
        case dispatched hd =>
          rw [hk.notDue] at hd
          cases hd
        all_goals simp [refuse, raiseNormal, raiseInterrupt, setFault, pushGroup, storePixel]
      exact ⟨key.1.trans hum, .inl ⟨key.2.1.trans hc, key.2.2.trans hf⟩⟩
  · rw [h1]
    exact ⟨hm, .inl ⟨rfl, rfl⟩⟩

end Sys2Proof.Machine
end

