-- ==== Sys2Proof/Laws/PerInstr.lean ====
section
/-! SUPPORT. Statements about every instruction as syntax, one lemma per constructor. Family `OpByte`: the byte its
encoding begins with is the row of R71's map that carries its mnemonic, unit and func read back by R70. -/

namespace Sys2Proof.Laws.OpByte

open Sys2Proof

/-- The unit and the func of R71's row for the operation. -/
def row : Instr → Nat × Nat
  | .fbGet .. => (0, 0)
  | .fbSet .. => (0, 1)
  | .fbGetu .. => (0, 2)
  | .fbSwap => (0, 3)
  | .fbSetch .. => (0, 4)
  | .poClrcolor => (1, 0)
  | .poSetcolor _ => (1, 1)
  | .poLatchon _ => (1, 2)
  | .poLatchoff _ => (1, 3)
  | .poEmitchannel .. => (1, 4)
  | .poEmitpixel _ => (1, 5)
  | .hActive => (2, 0)
  | .hFp => (2, 1)
  | .hSync => (2, 2)
  | .hBp => (2, 3)
  | .vEnter => (3, 0)
  | .vFp => (3, 1)
  | .vSync => (3, 2)
  | .vBp => (3, 3)
  | .schConfig _ => (4, 0)
  | .schArm => (4, 1)
  | .schDisarm => (4, 2)
  | .schTick => (4, 3)
  | .schSetalarm .. => (4, 4)
  | .schDispatch _ => (4, 5)
  | .schSpin _ => (4, 6)
  | .hostWriterow .. => (5, 0)
  | .hostLoadimage _ => (5, 1)
  | .hostQuerycaps => (5, 2)

/-- The encoded operation byte has R71's unit and func, and is not reserved (R70, R79). -/
def Statement (i : Instr) : Prop :=
  (opUnit (encode i).op, opFunc (encode i).op) = row i ∧ reservedByte (encode i).op = false

/-- What `Statement` asks of the byte alone. -/
theorem of_byte {i : Instr} {u f : Nat} (hr : row i = (u, f)) (he : (encode i).op = opByte u f)
    (h : (opUnit (opByte u f), opFunc (opByte u f)) = (u, f) ∧ reservedByte (opByte u f) = false) : Statement i := by
  unfold Statement
  rw [he, hr]
  exact h

theorem fbGet (x y : Nat) : Statement (.fbGet x y) := of_byte rfl rfl (by decide)
theorem fbSet (x y : Nat) (p : Pixel) : Statement (.fbSet x y p) := of_byte rfl rfl (by decide)
theorem fbGetu (x y : Nat) : Statement (.fbGetu x y) := of_byte rfl rfl (by decide)
theorem fbSwap : Statement .fbSwap := of_byte rfl rfl (by decide)
theorem fbSetch (x y : Nat) (c : BitVec 2) (v : Byte) : Statement (.fbSetch x y c v) := of_byte rfl rfl (by decide)
theorem poClrcolor : Statement .poClrcolor := of_byte rfl rfl (by decide)
theorem poSetcolor (v : Byte) : Statement (.poSetcolor v) := of_byte rfl rfl (by decide)
theorem poLatchon (c : BitVec 2) : Statement (.poLatchon c) := of_byte rfl rfl (by decide)
theorem poLatchoff (c : BitVec 2) : Statement (.poLatchoff c) := of_byte rfl rfl (by decide)
theorem poEmitchannel (c : BitVec 2) (v : Byte) : Statement (.poEmitchannel c v) := of_byte rfl rfl (by decide)
theorem poEmitpixel (p : Pixel) : Statement (.poEmitpixel p) := of_byte rfl rfl (by decide)
theorem hActive : Statement .hActive := of_byte rfl rfl (by decide)
theorem hFp : Statement .hFp := of_byte rfl rfl (by decide)
theorem hSync : Statement .hSync := of_byte rfl rfl (by decide)
theorem hBp : Statement .hBp := of_byte rfl rfl (by decide)
theorem vEnter : Statement .vEnter := of_byte rfl rfl (by decide)
theorem vFp : Statement .vFp := of_byte rfl rfl (by decide)
theorem vSync : Statement .vSync := of_byte rfl rfl (by decide)
theorem vBp : Statement .vBp := of_byte rfl rfl (by decide)
theorem schConfig (c : Cfg) : Statement (.schConfig c) := of_byte rfl rfl (by decide)
theorem schArm : Statement .schArm := of_byte rfl rfl (by decide)
theorem schDisarm : Statement .schDisarm := of_byte rfl rfl (by decide)
theorem schTick : Statement .schTick := of_byte rfl rfl (by decide)
theorem schSetalarm (a : Axis) (d : Nat) (h : HandlerId) : Statement (.schSetalarm a d h) := of_byte rfl rfl (by decide)
theorem schDispatch (a : Axis) : Statement (.schDispatch a) := of_byte rfl rfl (by decide)
theorem schSpin (th : Nat) : Statement (.schSpin th) := of_byte rfl rfl (by decide)
theorem hostWriterow (y : Nat) (row : List Pixel) : Statement (.hostWriterow y row) := of_byte rfl rfl (by decide)
theorem hostLoadimage (src : Nat) : Statement (.hostLoadimage src) := of_byte rfl rfl (by decide)
theorem hostQuerycaps : Statement .hostQuerycaps := of_byte rfl rfl (by decide)

end Sys2Proof.Laws.OpByte
end

