-- ==== Sys2Proof/Laws/Working.lean ====
section
/-! SUPPORT. R22 and R41 items 6 to 8 beyond the armed engine: what an armed engine gives of them, and what every operation
leaves of the working registers and of the latch lines. -/

namespace Sys2Proof.Machine

/-- An armed engine has its working registers in order. -/
theorem EngineOk.workingOk {c : Cfg} {s : State} (h : EngineOk c s) (hm : s.md = some c) : WorkingOk s := by
  have only : ∀ d, s.md = some d → c = d := fun d hd => Option.some.inj (hm.symm.trans hd)
  refine ⟨fun hn => ?_, fun d hd => only d hd ▸ h.cursor, fun d hd => ?_, h.cursorZero⟩
  · rw [hm] at hn
    cases hn
  · obtain rfl := only d hd
    have hl := h.lines
    split at hl
    · exact ⟨fun _ => ‹_›, fun _ => hl.1⟩
    · exact ⟨fun hp => absurd hl (Nat.pos_iff_ne_zero.1 hp), fun hp => absurd hp ‹_›⟩

/-- An armed engine leaves no latch line asserted between steps. -/
theorem EngineOk.latchesOff {c : Cfg} {s : State} (h : EngineOk c s) (hm : s.md = some c) : latchesOff s :=
  fun _ hd => Option.some.inj (hm.symm.trans hd) ▸ h.latches

/-- The two together, of a machine in order. -/
theorem MachineOk.workingOk_of_armed {s : State} (h : MachineOk s) (ha : s.armed = true) :
    WorkingOk s ∧ Machine.latchesOff s := by
  obtain ⟨c, hm, hk⟩ := h.engine ha
  exact ⟨hk.workingOk hm, hk.latchesOff hm⟩

/-- `WorkingOk` speaks of the working registers, the vertical phase and the mode. -/
theorem WorkingOk.of_same {s t : State} (h : WorkingOk s) (e : t.fast = s.fast ∧ t.slow = s.slow ∧ t.vcnt = s.vcnt ∧
    t.vPhase = s.vPhase) (hm : t.md = s.md) : WorkingOk t := by
  obtain ⟨e1, e2, e3, e4⟩ := e
  refine ⟨?_, ?_, ?_, ?_⟩
  · rw [hm, e1, e2, e3, e4]; exact h.unconfigured
  · rw [hm, e1, e2]; exact h.cursor
  · rw [hm, e3, e4]; exact h.lines
  · rw [e1, e2, e4]; exact h.cursorZero

/-- Installing the first mode keeps them in order: the cursor is (0, 0) and every legal mode has a pixel (R202). -/
theorem WorkingOk.firstMode {c : Cfg} {s t : State} (h : WorkingOk s) (hn : s.md = none) (hv : c.valid)
    (hm : t.md = some c) (e : t.fast = s.fast ∧ t.slow = s.slow ∧ t.vcnt = s.vcnt ∧ t.vPhase = s.vPhase) :
    WorkingOk t := by
  obtain ⟨e1, e2, e3, e4⟩ := e
  obtain ⟨h1, h2, h3, h4⟩ := h.unconfigured hn
  refine ⟨fun hx => ?_, fun d hd => ?_, fun d _ => ?_, fun hx => ?_⟩
  · rw [hm] at hx
    cases hx
  · obtain rfl : c = d := Option.some.inj (hm.symm.trans hd)
    rw [e1, e2, h1, h2]
    exact limits_pos hv
  · rw [e3, e4, h3, h4]
    simp
  · exact absurd (e4.trans h4) hx

/-- Nothing is dispatched between two steps of a machine in order (R209). -/
theorem MachineOk.notDue {s : State} (h : MachineOk s) (a : Axis) : alarmDue a s = false := by
  cases ha : s.armed
  · obtain ⟨h1, h2, -⟩ := h.idle ha
    cases a <;> simp [alarmDue, State.alarm, h1, h2]
  · obtain ⟨c, -, hk⟩ := h.engine ha
    exact hk.notDue a

/-- A tick leaves the machine armed, or only counts (R163, R231). -/
theorem MachineOk.tick_armed {s : State} (h : MachineOk s) :
    (Machine.tick s).armed = true ∨ Machine.tick s = { s with cnt := s.cnt + 1 } := by
  by_cases ha : s.armed = true
  · exact .inl (by simpa using ha)
  · obtain ⟨h1, h2, -, h4⟩ := h.idle (by simpa using ha)
    exact .inr (tick_idle h1 h2 h4)

/-- What an operation issued between steps does to the working registers: it leaves them, or leaves the engine armed. -/
theorem exec_working {i : Instr} {s t : State} (h : MachineOk s) (hi : s.busy = true → i = .schTick)
    (ht : exec i s = .next t) :
    t.armed = true ∨ t.fast = s.fast ∧ t.slow = s.slow ∧ t.vcnt = s.vcnt ∧ t.vPhase = s.vPhase := by
  by_cases hi' : i = .schTick
  · subst hi'
    cases ht
    exact h.tick_armed.imp_right fun e => by rw [e]; exact ⟨rfl, rfl, rfl, rfl⟩
  have hno : ∀ {p : Prop}, s.busy = true → p := fun hb => absurd (hi hb) hi'
  refine exec_ind (P := fun t => t.armed = true ∨ t.fast = s.fast ∧ t.slow = s.slow ∧ t.vcnt = s.vcnt ∧
    t.vPhase = s.vPhase) ?_ ht
  constructor
  all_goals intros
  case handler hb => exact hno hb
  case alarmSet hb => exact hno hb
  case ticked hx => exact absurd hx hi'
  case dispatched a _ hd => rw [h.notDue] at hd; cases hd
  case armed => exact .inl (by unfold armEngine; simp)
  all_goals first | (right; simp) | exact .inr ⟨rfl, rfl, rfl, rfl⟩

/-- Only a PO.LATCHON issued on its own can leave a latch line asserted that was not: every other operation issued between
steps leaves the mode's latch lines deasserted, or leaves the engine armed, or installs another mode. -/
theorem exec_latches {i : Instr} {s t : State} (h : MachineOk s) (hi : s.busy = true → i = .schTick)
    (hl : ∀ b, i ≠ .poLatchon b) (ht : exec i s = .next t) :
    t.armed = true ∨ (t.md = s.md → latchesOff s → latchesOff t) := by
  by_cases hi' : i = .schTick
  · subst hi'
    cases ht
    exact h.tick_armed.imp_right fun e => by rw [e]; exact fun _ hs => hs
  have hno : ∀ {p : Prop}, s.busy = true → p := fun hb => absurd (hi hb) hi'
  refine exec_ind (P := fun t => t.armed = true ∨ (t.md = s.md → latchesOff s → latchesOff t)) ?_ ht
  have same : ∀ {t : State}, t.gpio = s.gpio →
      t.armed = true ∨ (t.md = s.md → latchesOff s → latchesOff t) := fun {t} e =>
    .inr fun hm hs c hc ch => (congrArg (·.contains (c.latchPin.get ch)) e).trans (hs c (hm ▸ hc) ch)
  have driven : ∀ {c : Cfg} {t : State}, primitiveReady c s →
      (c.valid → ∀ ch, t.asserted (c.latchPin.get ch) = true → s.asserted (c.latchPin.get ch) = true) →
      t.armed = true ∨ (t.md = s.md → latchesOff s → latchesOff t) := fun {c t} hr hp =>
    .inr fun hm hs d hd ch => by
      obtain rfl : c = d := Option.some.inj (hr.2.symm.trans (hm.symm.trans hd))
      have h1 := hs c hr.2 ch
      cases h2 : t.asserted (c.latchPin.get ch)
      · rfl
      · rw [hp (h.mode c hr.2) ch h2] at h1
        cases h1
  constructor
  all_goals intros
  case handler hb => exact hno hb
  case alarmSet hb => exact hno hb
  case ticked hx => exact absurd hx hi'
  case dispatched a _ hd => rw [h.notDue] at hd; cases hd
  case armed => exact .inl (by unfold armEngine; simp)
  case latchedOn hx _ => exact absurd hx (hl _)
  case cleared hr => exact driven hr fun _ ch hp => by simp [clearColor] at hp; exact hp.1
  case colored v _ hr =>
    exact driven hr fun hv ch hp => by
      simp only [setColor, asserted_pinSetOp, Bool.or_eq_true, List.contains_iff_mem] at hp
      exact hp.resolve_left (latch_not_mem_maskPins hv ch v)
  case latchedOff hr => exact driven hr fun _ ch hp => by simp [latchOff] at hp; exact hp.1
  case channel ch v _ hr =>
    refine driven hr fun hv dh hp => ?_
    rw [emitChannel_eq] at hp
    simp only [State.asserted, List.contains_iff_mem, mem_channelGpio] at hp ⊢
    exact (hp.2.resolve_left (latch_not_mem_maskPins hv dh v)).1
  case pixel hr =>
    refine driven hr fun hv dh hp => ?_
    rw [emitPixel_eq hv] at hp
    simp only [State.asserted, List.contains_iff_mem] at hp
    exact absurd hp (latch_not_mem_pixelGpio hv _ _ dh)
  all_goals first | exact same (by simp) | exact same rfl

end Sys2Proof.Machine
end

