-- ==== Sys2Proof/Tests/Slice0.lean ====
section
/-! SUPPORT. The model's own tests: operands that WellFormed refuses; every constructor's word, written out bit by bit from
R71's map; at most two vectors of `95_test_vectors.md` per operation, each one step; and for each obligation a witness that
meets its hypotheses, clause by clause at the boundaries. -/

namespace Sys2Proof.Tests

open Sys2Proof Sys2Proof.Machine

/-! ### States -/

/-- Mode T1 with its pin table (`95_test_vectors.md`, section 0). -/
def t1 : Cfg :=
  { w := 2, h := 2, hActive := 2, hFp := 1, hSync := 1, hBp := 1, vActive := 2, vFp := 1, vSync := 1, vBp := 1,
    hTotal := none, fTotal := none, pixelPeriod := 1, stride := 1, scanOrder := .rowMajor,
    verticalDrive := .lineChained, strategy := .phaseChained,
    pinOfBit := ⟨none, none, none, none, none, some 2, some 12, some 4⟩, latchPin := ⟨13, 14, 15⟩, hsyncPin := 20,
    vsyncPin := 21, wired := ⟨0xE0, 0xE0, 0xE0⟩, channelOrder := .rgb, pixelWriteAtomic := false,
    doubleBuffer := false, hasCapquery := false, timerWidth := none }

/-- T1 under DEDICATED_TIMER (vector V1). -/
def t1d : Cfg := { t1 with verticalDrive := .dedicatedTimer }

/-- T1 under FREE_RUNNING (vector S14). -/
def t1f : Cfg := { t1 with strategy := .freeRunning }

/-- T1 under both. -/
def t1df : Cfg := { t1d with strategy := .freeRunning }

/-- T1 with whole-pixel stores. -/
def t1a : Cfg := { t1 with pixelWriteAtomic := true }

/-- T1 with a double buffer and whole-pixel stores. -/
def t1b : Cfg := { t1a with doubleBuffer := true }

/-- A pixel. -/
def px (r g b : Nat) : Pixel := ⟨BitVec.ofNat 8 r, BitVec.ofNat 8 g, BitVec.ofNat 8 b⟩

/-- The Framebuffer of vector H1: red, green, blue, white. -/
def h1 : Framebuffer :=
  ⟨[(0, 255), (1, 0), (2, 0), (3, 255)], [(0, 0), (1, 255), (2, 0), (3, 255)], [(0, 0), (1, 0), (2, 255), (3, 255)]⟩

/-- Configured with `c`, disarmed, the Framebuffer of H1. -/
def conf (c : Cfg) : State := { State.reset with md := some c, fb0 := h1, fb1 := h1, alloc := 1 }

/-- Armed: H1's row 0. -/
def row0 (c : Cfg) : State := { conf c with armed := true, alarmH := ⟨true, 1, .hActive⟩ }

/-- H1's row 2. -/
def row2 (c : Cfg) : State :=
  { row0 c with cnt := 2, slow := 1, hPhase := .frontPorch, alarmH := ⟨true, 3, .hFp⟩ }

/-- H1's row 2 under FREE_RUNNING: the invocation spins (vector S14). -/
def row2f : State := { row2 t1f with busy := true, spin := some (.thenRun .H) }

/-- H1's row 2, disarmed there (as program P5 is in row 3): the cursor stays at (0, 1). -/
def row2x : State := { row2 t1 with armed := false, alarmH := ⟨false, 3, .hFp⟩ }

/-- Reset, the first mode about to be installed. -/
def fresh : State := { State.reset with script := [encode (.schConfig t1)] }

/-- H1's row 6. -/
def row6 (c : Cfg) : State :=
  { row0 c with cnt := 6, fast := 1, slow := 1, lineStart := 5, alarmH := ⟨true, 7, .hActive⟩ }

/-- H1's row 24, a swap requested. -/
def row24 : State :=
  { row0 t1b with
    cnt := 24, vcnt := 1, hPhase := .backPorch, vPhase := .backPorch, lineStart := 20, alarmH := ⟨true, 25, .hBp⟩,
    swapReq := true }

/-- V1's row 11: the horizontal axis parked. -/
def row11d : State :=
  { row0 t1d with
    cnt := 11, hPhase := .backPorch, vPhase := .frontPorch, lineStart := 5, alarmH := ⟨false, 10, .hBp⟩,
    alarmV := ⟨true, 15, .vFp⟩ }

/-- The interrupt context of `s`, at time `n`. -/
def inside (n : Nat) (s : State) : State := { s with busy := true, cnt := n }

/-- With FAULT set. -/
def faulted (s : State) : State := { s with fault := .fbRange 2 0 }

/-- `s` in the phases `h` and `v`. -/
def phases (h v : Phase) (s : State) : State := { s with hPhase := h, vPhase := v }

/-- What `f` reads after operation `i` of state `s`. -/
def after {α : Type} (i : Instr) (s : State) (f : State → α) : Option α :=
  match exec i s with
  | .next t => some (f t)
  | _ => none

/-! ### Well-formed operands (R79) -/

theorem test_illformed_fbSetch : (Instr.fbSetch 0 0 3 9).wellFormed = false := by decide
theorem test_illformed_poLatchon : (Instr.poLatchon 3).wellFormed = false := by decide
theorem test_illformed_poLatchoff : (Instr.poLatchoff 3).wellFormed = false := by decide
theorem test_illformed_poEmitchannel : (Instr.poEmitchannel 3 0x55).wellFormed = false := by decide
theorem test_illformed_duration : (Instr.schSetalarm .H 0 .hFp).wellFormed = false := by decide
theorem test_illformed_vEnter : (Instr.schSetalarm .V 5 .vEnter).wellFormed = false := by decide
theorem test_illformed_axis : (Instr.schSetalarm .H 5 .vFp).wellFormed = false := by decide
theorem test_wellformed :
    (Instr.fbSetch 0 0 2 9).wellFormed ∧ (Instr.poLatchon 0).wellFormed ∧ (Instr.schSetalarm .V 1 .vBp).wellFormed := by
  decide

/-! ### Decoding: unit in bits 7 to 4, func in bits 3 to 0, the operands of R71 -/

theorem test_decode_fbGet : decode ⟨0b0000_0000#8, [.nat 1, .nat 0]⟩ = .ok (.fbGet 1 0) := by decide
theorem test_decode_fbSet : decode ⟨0b0000_0001#8, [.nat 1, .nat 0, .pixel (px 0 255 0)]⟩ = .ok (.fbSet 1 0 (px 0 255 0)) := by
  decide
theorem test_decode_fbGetu : decode ⟨0b0000_0010#8, [.nat 1, .nat 0]⟩ = .ok (.fbGetu 1 0) := by decide
theorem test_decode_fbSwap : decode ⟨0b0000_0011#8, []⟩ = .ok .fbSwap := by decide
theorem test_decode_fbSetch :
    decode ⟨0b0000_0100#8, [.nat 0, .nat 0, .chan 0b01#2, .byte 9]⟩ = .ok (.fbSetch 0 0 1 9) := by decide
theorem test_decode_poClrcolor : decode ⟨0b0001_0000#8, []⟩ = .ok .poClrcolor := by decide
theorem test_decode_poSetcolor : decode ⟨0b0001_0001#8, [.byte 0x80]⟩ = .ok (.poSetcolor 0x80) := by decide
theorem test_decode_poLatchon : decode ⟨0b0001_0010#8, [.chan 0b01#2]⟩ = .ok (.poLatchon 1) := by decide
theorem test_decode_poLatchoff : decode ⟨0b0001_0011#8, [.chan 0b10#2]⟩ = .ok (.poLatchoff 2) := by decide
theorem test_decode_poEmitchannel :
    decode ⟨0b0001_0100#8, [.chan 0b00#2, .byte 0xE5]⟩ = .ok (.poEmitchannel 0 0xE5) := by decide
theorem test_decode_poEmitpixel : decode ⟨0b0001_0101#8, [.pixel (px 1 2 3)]⟩ = .ok (.poEmitpixel (px 1 2 3)) := by decide
theorem test_decode_hActive : decode ⟨0b0010_0000#8, []⟩ = .ok .hActive := by decide
theorem test_decode_hFp : decode ⟨0b0010_0001#8, []⟩ = .ok .hFp := by decide
theorem test_decode_hSync : decode ⟨0b0010_0010#8, []⟩ = .ok .hSync := by decide
theorem test_decode_hBp : decode ⟨0b0010_0011#8, []⟩ = .ok .hBp := by decide
theorem test_decode_vEnter : decode ⟨0b0011_0000#8, []⟩ = .ok .vEnter := by decide
theorem test_decode_vFp : decode ⟨0b0011_0001#8, []⟩ = .ok .vFp := by decide
theorem test_decode_vSync : decode ⟨0b0011_0010#8, []⟩ = .ok .vSync := by decide
theorem test_decode_vBp : decode ⟨0b0011_0011#8, []⟩ = .ok .vBp := by decide
theorem test_decode_schConfig : decode ⟨0b0100_0000#8, [.cfg t1]⟩ = .ok (.schConfig t1) := by decide
theorem test_decode_schArm : decode ⟨0b0100_0001#8, []⟩ = .ok .schArm := by decide
theorem test_decode_schDisarm : decode ⟨0b0100_0010#8, []⟩ = .ok .schDisarm := by decide
theorem test_decode_schTick : decode ⟨0b0100_0011#8, []⟩ = .ok .schTick := by decide
theorem test_decode_schSetalarm :
    decode ⟨0b0100_0100#8, [.alarm 0b0#1, .nat 7, .handler 0b010#3]⟩ = .ok (.schSetalarm .H 7 .hSync) := by decide
theorem test_decode_schDispatch : decode ⟨0b0100_0101#8, [.alarm 0b1#1]⟩ = .ok (.schDispatch .V) := by decide
theorem test_decode_schSpin : decode ⟨0b0100_0110#8, [.nat 7]⟩ = .ok (.schSpin 7) := by decide
theorem test_decode_hostWriterow :
    decode ⟨0b0101_0000#8, [.nat 1, .row [px 1 1 1]]⟩ = .ok (.hostWriterow 1 [px 1 1 1]) := by decide
theorem test_decode_hostLoadimage : decode ⟨0b0101_0001#8, [.source 5]⟩ = .ok (.hostLoadimage 5) := by decide
theorem test_decode_hostQuerycaps : decode ⟨0b0101_0010#8, []⟩ = .ok .hostQuerycaps := by decide
/-- Vector S16. -/
theorem test_decode_reserved :
    decodeTableWord 8 0x47 = none ∧ decodeTableWord 8 0x05 = none ∧ decodeTableWord 8 0x34 = none ∧
      decodeTableWord 8 0xFF = none ∧ decodeTableWord 8 0x46 = some (.schSpin 0) := by decide

/-! ### One step of each operation -/

/-- R90: a read of the slot `y*W + x`. -/
theorem test_fbGet : after (.fbGet 0 1) (conf t1) (·.response) = some (.pixel (px 0 0 255)) := by decide
/-- F3. -/
theorem test_fbGet_range :
    after (.fbGet 2 0) (conf t1) (fun t => (t.fault, t.response)) = some (.fbRange 2 0, .raised) := by decide
/-- F2, as one whole-pixel store. -/
theorem test_fbSet :
    after (.fbSet 1 1 (px 1 2 3)) (conf t1a) (·.fb0)
      = some ⟨[(0, 255), (1, 0), (2, 0), (3, 1)], [(0, 0), (1, 255), (2, 0), (3, 2)], [(0, 0), (1, 0), (2, 255), (3, 3)]⟩ := by
  decide
/-- F10. -/
theorem test_fbSet_channels :
    after (.fbSet 0 0 (px 255 0 7)) (conf t1) (fun t => (t.work, t.fb0))
      = some ([[.op (.fbSetch 0 0 0 255), .op (.fbSetch 0 0 1 0), .op (.fbSetch 0 0 2 7)]], h1) := by decide
/-- F5: only the G channel of slot 0. -/
theorem test_fbSetch :
    after (.fbSetch 0 0 1 9) (conf t1) (·.fb0) = some ⟨h1.r, [(0, 9), (1, 255), (2, 0), (3, 255)], h1.b⟩ := by decide
/-- F6, F9. -/
theorem test_fbSetch_code3 : after (.fbSetch 0 0 3 9) State.reset (·.response) = some (.refused .badOp) := by decide
/-- F12. -/
theorem test_fbGetu : after (.fbGetu 1 0) (inside 2 (row0 t1)) (·.response) = some (.pixel (px 0 255 0)) := by decide
/-- F13. -/
theorem test_fbGetu_range :
    after (.fbGetu 2 0) (inside 2 (row0 t1)) (fun t => (t.fault, t.armed, t.alarmH.en)) = some (.fbRange 2 0, false, false) := by
  decide
/-- F7. -/
theorem test_fbSwap_single : after .fbSwap (conf t1) (·.response) = some (.refused .badOp) := by decide
/-- R93. -/
theorem test_fbSwap : after .fbSwap (conf t1b) (·.front) = some true ∧ after .fbSwap (row0 t1b) (·.swapReq) = some true := by
  decide
/-- O8. -/
theorem test_poClrcolor : after .poClrcolor (conf t1) (·.trace) = some [⟨0, .clear, [2, 4, 12]⟩] := by decide
/-- O8: it only asserts. -/
theorem test_poSetcolor :
    after (.poSetcolor 0x40) { conf t1 with gpio := [4] } (fun t => (t.gpio, t.trace)) = some ([4, 12], [⟨0, .set, [12]⟩]) := by
  decide
/-- O9. -/
theorem test_poLatchon :
    after (.poLatchon 1) { conf t1 with gpio := [4, 12] } (fun t => (t.gpio, t.dac)) = some ([4, 12, 14], ⟨none, some 0xC0, none⟩) := by
  decide
/-- O9. -/
theorem test_poLatchoff : after (.poLatchoff 1) { conf t1 with gpio := [4, 12, 14] } (·.gpio) = some [4, 12] := by decide
/-- O1. -/
theorem test_poEmitchannel :
    after (.poEmitchannel 0 0xE5) (conf t1) (fun t => (t.trace, t.gpio, t.dac))
      = some ([⟨0, .clear, [2, 4, 12]⟩, ⟨0, .set, [2, 4, 12]⟩, ⟨0, .set, [13]⟩, ⟨0, .clear, [13]⟩], [2, 4, 12], ⟨some 0xE0, none, none⟩) := by
  decide
/-- O10. -/
theorem test_poEmitchannel_wired :
    after (.poEmitchannel 2 0xFF) (conf { t1 with wired := ⟨0xE0, 0xE0, 0xC0⟩ }) (·.dac) = some ⟨none, none, some 0xC0⟩ := by decide
/-- O7. -/
theorem test_poEmitpixel :
    after (.poEmitpixel (px 255 0 160)) (conf t1) (fun t => (t.trace.length, t.gpio, t.dac))
      = some (12, [2, 4], ⟨some 0xE0, some 0x00, some 0xA0⟩) := by decide
/-- H2. -/
theorem test_hActive :
    after .hActive (inside 1 (row0 t1)) (fun t => (t.fast, t.pix, t.dac, t.alarmH))
      = some (1, px 255 0 0, ⟨some 0xE0, some 0x00, some 0x00⟩, ⟨true, 2, .hActive⟩) := by decide
/-- H4: both counters wrap. -/
theorem test_hActive_last :
    after .hActive (inside 7 (row6 t1)) (fun t => (t.fast, t.slow, t.hPhase, t.alarmH))
      = some (0, 0, .frontPorch, ⟨true, 8, .hFp⟩) := by decide
/-- H6. -/
theorem test_hFp :
    after .hFp (inside 3 (row2 t1)) (fun t => (t.hPhase, t.gpio, t.trace, t.alarmH))
      = some (.sync, [20], [⟨3, .set, [20]⟩], ⟨true, 4, .hSync⟩) := by decide
/-- H10. -/
theorem test_hFp_outOfTurn : after .hFp (inside 0 (row0 t1)) (·.response) = some (.refused .badOp) := by decide
/-- H7. -/
theorem test_hSync :
    after .hSync (inside 4 { phases .sync .activePixel (row2 t1) with gpio := [20] }) (fun t => (t.hPhase, t.gpio, t.alarmH))
      = some (.backPorch, [], ⟨true, 5, .hBp⟩) := by decide
/-- H8. -/
theorem test_hBp :
    after .hBp (inside 5 (phases .backPorch .activePixel (row2 t1))) (fun t => (t.hPhase, t.lineStart, t.alarmH))
      = some (.activePixel, 5, ⟨true, 6, .hActive⟩) := by decide
/-- H9. -/
theorem test_hBp_lastLine :
    after .hBp (inside 10 (phases .backPorch .activePixel (row0 t1))) (fun t => (t.vPhase, t.vcnt, t.lineStart, t.alarmH))
      = some (.frontPorch, 1, 10, ⟨true, 12, .hActive⟩) := by decide
/-- V2a. -/
theorem test_vEnter : after .vEnter (inside 10 (row0 t1)) (fun t => (t.vPhase, t.vcnt)) = some (.frontPorch, 1) := by decide
/-- V2b. -/
theorem test_vEnter_timer : after .vEnter (inside 10 (row0 t1d)) (·.alarmV) = some ⟨true, 15, .vFp⟩ := by decide
/-- V2c. -/
theorem test_vFp :
    after .vFp (inside 15 row11d) (fun t => (t.vPhase, t.trace, t.alarmV)) = some (.sync, [⟨15, .set, [21]⟩], ⟨true, 20, .vSync⟩) := by
  decide
/-- V2f. -/
theorem test_vFp_outOfTurn : after .vFp (inside 5 (row0 t1)) (·.response) = some (.refused .badOp) := by decide
/-- V2d. -/
theorem test_vSync :
    after .vSync (inside 20 (phases .activePixel .sync (row0 t1))) (fun t => (t.vPhase, t.trace, t.vcnt))
      = some (.backPorch, [⟨20, .clear, [21]⟩], 1) := by decide
/-- V2e. -/
theorem test_vBp :
    after .vBp (inside 25 (phases .backPorch .backPorch (row0 t1))) (fun t => (t.vPhase, t.frameStart, t.lineStart, t.alarmH))
      = some (.activePixel, 25, 25, ⟨true, 26, .hActive⟩) := by decide
/-- X8. -/
theorem test_schConfig_invalid :
    after (.schConfig { t1 with hsyncPin := 4 }) State.reset (fun t => (t.fault, t.md)) = some (.configInvalid 9, none) := by decide
/-- X7. -/
theorem test_schConfig :
    after (.schConfig { t1 with hTotal := some 6, fTotal := some 26 }) State.reset (fun t => (t.fault, t.md.isSome)) = some (.none, true) := by
  decide
/-- S5. -/
theorem test_schArm :
    after .schArm (conf t1) (fun t => (t.trace, t.armed, t.alarmH))
      = some ([⟨0, .clear, [2, 4, 12, 13, 14, 15, 20, 21]⟩], true, ⟨true, 1, .hActive⟩) := by decide
/-- S1, S3. -/
theorem test_schArm_refused :
    after .schArm State.reset (·.response) = some (.refused .notConfigured) ∧
      after .schArm (row0 t1) (·.response) = some (.refused .isArmed) := by decide
/-- S2. -/
theorem test_schDisarm_refused : after .schDisarm (conf t1) (·.response) = some (.refused .notArmed) := by decide
/-- R163. -/
theorem test_schDisarm : after .schDisarm (row0 t1) (fun t => (t.armed, t.alarmH)) = some (false, ⟨false, 1, .hActive⟩) := by decide
/-- S10. -/
theorem test_schTick :
    after .schTick (row2 t1) (fun t => (t.cnt, t.hPhase, t.gpio, t.alarmH, t.busy)) = some (3, .sync, [20], ⟨true, 4, .hSync⟩, false) := by
  decide
/-- S12. -/
theorem test_schTick_idle : after .schTick (conf t1) id = some { conf t1 with cnt := 1 } := by decide
/-- S6. -/
theorem test_schSetalarm : after (.schSetalarm .H 1 .hFp) (inside 2 (row2 t1)) (·.alarmH) = some ⟨true, 3, .hFp⟩ := by decide
/-- S9. -/
theorem test_schSetalarm_axis : after (.schSetalarm .H 5 .vFp) (inside 2 (row2 t1)) (·.response) = some (.refused .badOp) := by decide
/-- S10: the dispatch inside the tick. -/
theorem test_schDispatch :
    after (.schDispatch .H) { row2 t1 with cnt := 3 } (fun t => (t.hPhase, t.busy, t.alarmH)) = some (.sync, false, ⟨true, 4, .hSync⟩) := by
  decide
/-- S14: under FREE_RUNNING the invocation spins on, BUSY. -/
theorem test_schDispatch_free :
    after (.schDispatch .H) { row2f with cnt := 3 } (fun t => (t.hPhase, t.busy, t.spin)) = some (.sync, true, some (.thenRun .H)) := by
  decide
/-- S13. -/
theorem test_schSpin_past : after (.schSpin 7) (inside 7 (conf t1)) (·.response) = some (.refused .badOp) := by decide
/-- R167. -/
theorem test_schSpin : after (.schSpin 8) (inside 7 (conf t1)) (·.spin) = some (some (.bare 8)) := by decide
/-- B1: two `FB.SET`s become outstanding. -/
theorem test_hostWriterow :
    after (.hostWriterow 1 [px 0 0 255, px 9 9 9]) (conf t1) (·.work)
      = some [[.op (.fbSet 0 1 (px 0 0 255)), .op (.fbSet 1 1 (px 9 9 9))]] := by decide
/-- B2. -/
theorem test_hostWriterow_length :
    after (.hostWriterow 1 [px 1 1 1]) (conf t1) (fun t => (t.fault, t.work)) = some (.fbRange 1 1, []) := by decide
/-- B6: the row, then the result. -/
theorem test_hostLoadimage :
    after (.hostLoadimage 5) { conf t1 with outcomes := [(5, .rows [(0, [px 9 9 9, px 9 9 9])] false)] } (·.work)
      = some [[.op (.hostWriterow 0 [px 9 9 9, px 9 9 9])], [.finish false]] := by decide
/-- B4. -/
theorem test_hostLoadimage_failed :
    after (.hostLoadimage 5) { conf t1 with outcomes := [(5, .openFailed)] } (fun t => (t.response, t.fault, t.work)) = some (.failure, .none, []) := by
  decide
/-- B7. -/
theorem test_hostQuerycaps : after .hostQuerycaps (conf t1) (·.response) = some .unsupported := by decide
/-- B9. -/
theorem test_hostQuerycaps_faulted : after .hostQuerycaps (faulted (conf t1)) (·.response) = some (.refused .faulted) := by decide

/-! ### States in order -/

theorem row0_ok : EngineOk t1 (row0 t1) where
  valid := by decide
  cursor := by decide
  stride := by decide
  fastZero := by decide
  cursorZero := by decide
  running := by decide
  handedOver := by decide
  line := ⟨0, rfl, rfl⟩
  lines := by decide
  hsync := by decide
  vsync := by decide
  latches := fun ch => by cases ch <;> decide
  context := ⟨rfl, rfl⟩

theorem row0b_ok : EngineOk t1b (row0 t1b) where
  valid := by decide
  cursor := by decide
  stride := by decide
  fastZero := by decide
  cursorZero := by decide
  running := by decide
  handedOver := by decide
  line := ⟨0, rfl, rfl⟩
  lines := by decide
  hsync := by decide
  vsync := by decide
  latches := fun ch => by cases ch <;> decide
  context := ⟨rfl, rfl⟩

theorem row2_ok : EngineOk t1 (row2 t1) where
  valid := by decide
  cursor := by decide
  stride := by decide
  fastZero := by decide
  cursorZero := by decide
  running := by decide
  handedOver := by decide
  line := ⟨0, rfl, .inl rfl⟩
  lines := by decide
  hsync := by decide
  vsync := by decide
  latches := fun ch => by cases ch <;> decide
  context := ⟨rfl, rfl⟩

theorem row2f_ok : EngineOk t1f row2f where
  valid := by decide
  cursor := by decide
  stride := by decide
  fastZero := by decide
  cursorZero := by decide
  running := by decide
  handedOver := by decide
  line := ⟨0, rfl, .inl rfl⟩
  lines := by decide
  hsync := by decide
  vsync := by decide
  latches := fun ch => by cases ch <;> decide
  context := ⟨rfl, rfl⟩

theorem row6_ok : EngineOk t1 (row6 t1) where
  valid := by decide
  cursor := by decide
  stride := by decide
  fastZero := by decide
  cursorZero := by decide
  running := by decide
  handedOver := by decide
  line := ⟨1, rfl, rfl⟩
  lines := by decide
  hsync := by decide
  vsync := by decide
  latches := fun ch => by cases ch <;> decide
  context := ⟨rfl, rfl⟩

/-- The last tick of a frame, its VSYNC and HSYNC over. -/
theorem row24_ok : EngineOk t1b row24 where
  valid := by decide
  cursor := by decide
  stride := by decide
  fastZero := by decide
  cursorZero := by decide
  running := by decide
  handedOver := by decide
  line := ⟨4, rfl, rfl⟩
  lines := by decide
  hsync := by decide
  vsync := by decide
  latches := fun ch => by cases ch <;> decide
  context := ⟨rfl, rfl⟩

/-- A parked axis (V1). -/
theorem row11d_ok : EngineOk t1d row11d where
  valid := by decide
  cursor := by decide
  stride := by decide
  fastZero := by decide
  cursorZero := by decide
  running := by decide
  handedOver := by decide
  line := ⟨1, rfl, rfl⟩
  lines := by decide
  hsync := by decide
  vsync := by decide
  latches := fun ch => by cases ch <;> decide
  context := ⟨rfl, rfl⟩

/-- A state with the Framebuffer of H1 and an empty history is in order if its engine is. -/
theorem machineOk_of {c : Cfg} {s : State} (hm : s.md = some c) (hv : c.valid) (hw : c.w * c.h = 4)
    (he : s.armed = true → EngineOk c s)
    (hi : s.armed = false → s.alarmH.en = false ∧ s.alarmV.en = false ∧ s.busy = false ∧ s.spin = none)
    (hd : c.doubleBuffer = false → s.front = false ∧ s.swapReq = false) (h0 : s.fb0 = h1) (h2 : s.fb1 = h1)
    (hg : s.gpio = []) (ht : s.trace = []) : MachineOk s where
  engine ha := ⟨c, hm, he ha⟩
  idle := hi
  mode d h := by
    rw [hm] at h
    injection h with h
    exact h ▸ hv
  memory b ch := by cases b <;> cases ch <;> simp only [State.buffer, h0, h2] <;> decide
  slots b ch e h := by
    refine ⟨c, hm, hw ▸ ?_⟩
    have key : ∀ ch, ∀ e ∈ h1.get ch, e.1 < 4 := fun ch => by cases ch <;> decide
    cases b
    · exact key ch e (by simpa [State.buffer, h0] using h)
    · exact key ch e (by simpa [State.buffer, h2] using h)
  single d h hd' := by
    rw [hm] at h
    injection h with h
    exact hd (h ▸ hd')
  pins := hg ▸ List.Pairwise.nil
  trace := by
    refine ⟨ht ▸ List.Pairwise.nil, fun e h => ?_⟩
    rw [ht] at h
    cases h

theorem conf_machineOk : MachineOk (conf t1) :=
  machineOk_of rfl (by decide) rfl (fun h => by cases h) (by decide) (by decide) rfl rfl rfl rfl

theorem confb_machineOk : MachineOk (conf t1b) :=
  machineOk_of rfl (by decide) rfl (fun h => by cases h) (by decide) (by decide) rfl rfl rfl rfl

theorem row0_machineOk : MachineOk (row0 t1) :=
  machineOk_of rfl (by decide) rfl (fun _ => row0_ok) (by decide) (by decide) rfl rfl rfl rfl

theorem row0b_machineOk : MachineOk (row0 t1b) :=
  machineOk_of rfl (by decide) rfl (fun _ => row0b_ok) (by decide) (by decide) rfl rfl rfl rfl

theorem row2x_machineOk : MachineOk row2x :=
  machineOk_of rfl (by decide) rfl (fun h => by cases h) (by decide) (by decide) rfl rfl rfl rfl

/-- Its cursor, (0, 1), is in range though it is disarmed (R22, R163). -/
theorem row2x_workingOk : WorkingOk row2x where
  unconfigured h := by cases h
  cursor c h := by
    obtain rfl : t1 = c := Option.some.inj h
    decide
  lines c h := by
    obtain rfl : t1 = c := Option.some.inj h
    decide
  cursorZero h := absurd rfl h

theorem fresh_workingOk : WorkingOk fresh where
  unconfigured _ := ⟨rfl, rfl, rfl, rfl⟩
  cursor _ h := by cases h
  lines _ h := by cases h
  cursorZero h := absurd rfl h

theorem fresh_machineOk : MachineOk fresh where
  engine h := by cases h
  idle _ := ⟨rfl, rfl, rfl, rfl⟩
  mode _ h := by cases h
  memory := reset_memoryOk
  slots b ch e h := by cases b <;> cases ch <;> cases h
  single _ h := by cases h
  pins := List.Pairwise.nil
  trace := ⟨List.Pairwise.nil, fun e h => by cases h⟩

theorem row2_machineOk : MachineOk (row2 t1) :=
  machineOk_of rfl (by decide) rfl (fun _ => row2_ok) (by decide) (by decide) rfl rfl rfl rfl

theorem row2f_machineOk : MachineOk row2f :=
  machineOk_of rfl (by decide) rfl (fun _ => row2f_ok) (by decide) (by decide) rfl rfl rfl rfl

theorem row6_machineOk : MachineOk (row6 t1) :=
  machineOk_of rfl (by decide) rfl (fun _ => row6_ok) (by decide) (by decide) rfl rfl rfl rfl

theorem row24_machineOk : MachineOk row24 :=
  machineOk_of rfl (by decide) rfl (fun _ => row24_ok) (by decide) (by decide) rfl rfl rfl rfl

theorem row11d_machineOk : MachineOk row11d :=
  machineOk_of rfl (by decide) rfl (fun _ => row11d_ok) (by decide) (by decide) rfl rfl rfl rfl

/-! ### Witnesses: the hypotheses of each obligation are met, clause by clause -/

/-- The hypotheses of `normalRefusals` and `modeRefusals`. -/
theorem witness_modeRefusals :
    (inside 2 (row0 t1)).busy = true ∧ ((faulted (conf t1)).busy = false ∧ (faulted (conf t1)).fault ≠ .none) ∧
      (State.reset.busy = false ∧ State.reset.fault = .none ∧ State.reset.md = none) := by decide

/-- The hypotheses of `primitiveRefusals`. -/
theorem witness_primitiveRefusals :
    ((row0 t1).busy = false ∧ (row0 t1).armed = true) ∧
      ((State.reset.busy = true ∨ State.reset.armed = false) ∧ State.reset.md = none) := by decide

/-- x = W, y = H; the last slot. -/
theorem witness_FbGetReadsWriterSlot : ready t1 (conf t1) ∧ (t1.w ≤ 2 ∨ t1.h ≤ 0) ∧ (t1.w ≤ 0 ∨ t1.h ≤ 2) ∧ 1 < t1.w ∧ 1 < t1.h := by
  decide

theorem witness_FbSetStoresPixelOrThreeStores :
    ready t1 (conf t1) ∧ ready t1a (conf t1a) ∧ t1.w ≤ 2 ∧ t1.h ≤ 2 ∧ 1 < t1.w ∧ 1 < t1.h ∧ t1a.pixelWriteAtomic = true ∧
      t1.pixelWriteAtomic = false := by decide

theorem witness_FbSetchStoresOneChannel : ready t1 (conf t1) ∧ t1.w ≤ 2 ∧ t1.h ≤ 2 ∧ 1 < t1.w ∧ 1 < t1.h := by decide

theorem witness_FbGetuReadsEngineSlot :
    (conf t1).busy = false ∧ ((inside 0 State.reset).busy = true ∧ (inside 0 State.reset).md = none) ∧
      ((inside 2 (row0 t1)).busy = true ∧ (inside 2 (row0 t1)).md = some t1) ∧ (1 < t1.w ∧ 1 < t1.h) ∧ t1.w ≤ 2 ∧ t1.h ≤ 2 := by
  decide

theorem witness_FbSwapRequestsOrSwaps :
    (ready t1 (conf t1) ∧ t1.doubleBuffer = false) ∧
      (ready t1b (row0 t1b) ∧ t1b.doubleBuffer = true ∧ (row0 t1b).armed = true) ∧
      (ready t1b (conf t1b) ∧ (conf t1b).armed = false) := by decide

theorem witness_PoClrcolorDeassertsColorLines : primitiveReady t1 (conf t1) ∧ primitiveReady t1 (inside 2 (row0 t1)) := by decide

theorem witness_PoSetcolorAssertsMask : primitiveReady t1 (conf t1) ∧ primitiveReady t1 (inside 2 (row0 t1)) := by decide

theorem witness_PoLatchonStrobesAndCaptures : primitiveReady t1 (conf t1) ∧ primitiveReady t1 (inside 2 (row0 t1)) := by decide

theorem witness_PoLatchoffDeassertsLatch : primitiveReady t1 (conf t1) ∧ primitiveReady t1 (inside 2 (row0 t1)) := by decide

theorem witness_PoEmitchannelFourOperations : primitiveReady t1 (conf t1) ∧ primitiveReady t1 (inside 2 (row0 t1)) ∧ t1.valid := by decide

theorem witness_PoEmitpixelTwelveOperations :
    primitiveReady t1 (conf t1) ∧ t1.valid ∧ t1.channelOrder.toList.getLast? = some .B := by decide

theorem witness_PoEmitEqualsExpansion : primitiveReady t1 (conf t1) ∧ primitiveReady t1 (inside 2 (row0 t1)) := by decide

/-- A mid-line pixel, the line's last, a corrupted cursor, a blank line; and a handler out of turn. -/
theorem witness_HActiveEmitsAndAdvances :
    (¬ ((row2 t1).busy = true ∧ (row2 t1).armed = true ∧ (row2 t1).hPhase = .activePixel)) ∧
      (handlerReady t1 (inside 1 (row0 t1)) ∧ t1.strategy = .phaseChained ∧ (row0 t1).hPhase = .activePixel ∧
        (row0 t1).vPhase = .activePixel ∧ (row0 t1).fast + t1.stride < t1.fastLimit ∧
        ((0, 0) = if t1.scanOrder = .rowMajor then ((row0 t1).fast, (row0 t1).slow) else ((row0 t1).slow, (row0 t1).fast))) ∧
      (handlerReady t1 (inside 7 (row6 t1)) ∧ (row6 t1).hPhase = .activePixel ∧ (row6 t1).vPhase = .activePixel ∧
        t1.fastLimit ≤ (row6 t1).fast + t1.stride) ∧
      (handlerReady t1 (inside 7 { row6 t1 with fast := 2 }) ∧ ¬ 2 < t1.fastLimit) ∧
      (handlerReady t1 (inside 12 (phases .activePixel .frontPorch (row0 t1))) ∧ Phase.frontPorch ≠ .activePixel) := by
  decide

theorem witness_HFpAssertsHsync :
    (¬ ((row2 t1).busy = true ∧ (row2 t1).armed = true ∧ (row2 t1).hPhase = .frontPorch)) ∧
      handlerReady t1 (inside 3 (row2 t1)) ∧ t1.strategy = .phaseChained ∧ (row2 t1).hPhase = .frontPorch := by decide

theorem witness_HSyncDeassertsHsync :
    (¬ ((row2 t1).busy = true ∧ (row2 t1).armed = true ∧ (row2 t1).hPhase = .sync)) ∧
      handlerReady t1 (inside 4 (phases .sync .activePixel (row2 t1))) ∧ t1.strategy = .phaseChained := by decide

/-- One witness for each way a line ends, both drives. -/
theorem witness_HBpEndsLine :
    (¬ ((row2 t1).busy = true ∧ (row2 t1).armed = true ∧ (row2 t1).hPhase = .backPorch)) ∧
      (handlerReady t1 (inside 5 (phases .backPorch .activePixel (row2 t1))) ∧ (row2 t1).slow ≠ 0) ∧
      (handlerReady t1d (inside 5 (phases .backPorch .activePixel (row2 t1d))) ∧ t1d.verticalDrive = .dedicatedTimer ∧
        (row2 t1d).slow ≠ 0) ∧
      (handlerReady t1d (inside 10 (phases .backPorch .activePixel (row0 t1d))) ∧ (row0 t1d).slow = 0) ∧
      (handlerReady t1 (inside 10 (phases .backPorch .activePixel (row0 t1))) ∧ t1.verticalDrive = .lineChained ∧
        (row0 t1).slow = 0) ∧
      (handlerReady t1 (inside 15 { phases .backPorch .frontPorch (row0 t1) with vcnt := 2 })) ∧
      (handlerReady t1 (inside 15 { phases .backPorch .frontPorch (row0 t1) with vcnt := 1 })) ∧
      (handlerReady t1 (inside 20 { phases .backPorch .sync (row0 t1) with vcnt := 1 })) ∧
      (handlerReady t1 (inside 25 { phases .backPorch .backPorch (row0 t1) with vcnt := 1 })) := by decide

theorem witness_VEnterBeginsFrontPorch :
    (¬ ((row2 t1).busy = true ∧ (row2 t1).armed = true ∧ (row2 t1).vPhase = .activePixel ∧ (row2 t1).slow = 0)) ∧
      (handlerReady t1 (inside 10 (row0 t1)) ∧ (row0 t1).vPhase = .activePixel ∧ (row0 t1).slow = 0 ∧
        t1.verticalDrive = .lineChained) ∧
      (handlerReady t1d (inside 10 (row0 t1d)) ∧ t1d.verticalDrive = .dedicatedTimer ∧ t1d.strategy = .phaseChained) := by
  decide

theorem witness_VFpAssertsVsync :
    (¬ ((row0 t1).busy = true ∧ (row0 t1).armed = true ∧ (row0 t1).vPhase = .frontPorch)) ∧
      handlerReady t1 (inside 15 (phases .activePixel .frontPorch (row0 t1))) ∧ handlerReady t1d (inside 15 row11d) ∧
      row11d.vPhase = .frontPorch ∧ t1.verticalDrive = .lineChained ∧ t1d.strategy = .phaseChained := by decide

theorem witness_VSyncDeassertsVsync :
    (¬ ((row0 t1).busy = true ∧ (row0 t1).armed = true ∧ (row0 t1).vPhase = .sync)) ∧
      handlerReady t1 (inside 20 (phases .activePixel .sync (row0 t1))) ∧
      handlerReady t1d (inside 20 (phases .backPorch .sync (row0 t1d))) ∧ t1.verticalDrive = .lineChained ∧
      t1d.strategy = .phaseChained := by decide

theorem witness_VBpStartsFrame :
    (¬ ((row0 t1).busy = true ∧ (row0 t1).armed = true ∧ (row0 t1).vPhase = .backPorch)) ∧
      handlerReady t1 (inside 25 (phases .backPorch .backPorch (row0 t1))) := by decide

/-- Each handler under FREE_RUNNING, before its threshold and at it. -/
theorem witness_FreeRunningSpinsToThreshold :
    (handlerReady t1f (inside 12 { phases .activePixel .frontPorch (row0 t1f) with lineStart := 10 }) ∧ 12 < 10 + 2 + 1) ∧
      (handlerReady t1f (inside 2 { row0 t1f with fast := 1 }) ∧ t1f.fastLimit ≤ 1 + t1f.stride ∧ 2 < 0 + t1f.hActive + t1f.hFp) ∧
      (handlerReady t1f (inside 1 (row0 t1f)) ∧ 0 + t1f.stride < t1f.fastLimit) ∧
      (handlerReady t1f (inside 3 (row2 t1f)) ∧ (row2 t1f).hPhase = .frontPorch ∧ 3 < 4) ∧
      (handlerReady t1f (inside 4 (row2 t1f)) ∧ 0 + t1f.hActive + t1f.hFp + t1f.hSync ≤ 4) ∧
      (handlerReady t1f (inside 4 (phases .sync .activePixel (row2 t1f))) ∧ 4 < 0 + t1f.hLine) ∧
      (handlerReady t1df (inside 10 (phases .backPorch .activePixel (row0 t1df))) ∧ t1df.verticalDrive = .dedicatedTimer ∧
        (row0 t1df).slow = 0) ∧
      (handlerReady t1df (inside 15 (phases .backPorch .frontPorch (row0 t1df))) ∧ 15 < (t1df.nSlow + t1df.vFp + t1df.vSync) * t1df.hLine) ∧
      (handlerReady t1df (inside 20 (phases .backPorch .sync (row0 t1df))) ∧ t1df.strategy = .freeRunning) := by decide

/-- A configuration whose first failing check is the first, one whose first is the last, and a legal one. -/
theorem witness_SchConfigChecksThenInstalls :
    ((conf t1).busy = false ∧ (conf t1).fault = .none ∧ (row0 t1).armed = true ∧ (conf t1).armed = false) ∧
      ¬ configCheck { t1 with w := 0 } 1 ∧
      (¬ configCheck { t1 with timerWidth := some 4 } 11 ∧
        ∀ j, 1 ≤ j → j < 11 → configCheck { t1 with timerWidth := some 4 } j) ∧
      ∀ k, configCheck t1 k := by
  have pins : configCheck t1 9 := by
    have hc : ∀ i p, t1.pinOfBit.get i = some p → i = 5 ∧ p = 2 ∨ i = 6 ∧ p = 12 ∨ i = 7 ∧ p = 4 := by
      intro i p h
      rw [PinTable.get.eq_def] at h
      split at h <;> simp_all [t1]
    refine ⟨fun i j p hi hj => ?_, fun p hp => ?_, ?_, ?_, by decide⟩
    · have := hc i p hi
      have := hc j p hj
      omega
    · obtain ⟨i, -, hi⟩ := hp
      have := hc i p hi
      refine ⟨?_, ?_, fun ch => ?_⟩
      · simp only [t1]; omega
      · simp only [t1]; omega
      · cases ch <;> simp only [t1, PerChannel.get] <;> omega
    · intro ch dh
      cases ch <;> cases dh <;> decide
    · intro ch
      cases ch <;> decide
  have wired : configCheck t1 10 := by
    intro ch i h
    have hi : i < 8 := by
      by_contra hh
      rw [BitVec.getLsbD_of_ge _ _ (by omega)] at h
      cases h
    revert h
    cases ch <;> interval_cases i <;> simp [t1, PerChannel.get, PinTable.get]
  refine ⟨by decide, by simp [configCheck, t1], ⟨by simp [configCheck, t1]; decide, fun j h1 h2 => ?_⟩, fun k => ?_⟩
  · interval_cases j <;> first | exact pins | exact wired | (simp [configCheck, t1]; done) | (simp only [configCheck]; decide)
  · match k with
    | 0 => trivial
    | 1 | 2 | 3 | 4 | 5 | 6 => simp only [configCheck]; decide
    | 7 | 8 | 11 => simp [configCheck, t1]
    | 9 => exact pins
    | 10 => exact wired
    | _ + 12 => trivial

theorem witness_SchArmStartsFrame :
    ready t1 (conf t1) ∧ t1.valid ∧ (conf t1).armed = false ∧ ready t1 (row0 t1) ∧ (row0 t1).armed = true := by decide

theorem witness_SchDisarmClearsEnables :
    (row0 t1).busy = false ∧ (row0 t1).fault = .none ∧ (row0 t1).armed = true ∧ (conf t1).armed = false := by decide

/-- A tick with no alarm due, with ALARM_H due and nothing after it, with ALARM_V due, and with both due. -/
theorem witness_SchTickCountsAndServes :
    (¬ due .H { row0 t1 with cnt := 0 } ∧ ¬ due .V { row0 t1 with cnt := 0 } ∧ (row0 t1).spin = none) ∧
      due .H { row0 t1 with cnt := 1 } ∧
      after (.schDispatch .H) { row0 t1 with cnt := 1 } (fun u => decide (¬ due .H u ∧ ¬ due .V u)) = some true ∧
      (¬ due .H { row11d with cnt := 15 } ∧ due .V { row11d with cnt := 15 }) ∧
      after (.schDispatch .V) { row11d with cnt := 15 } (fun u => decide (¬ due .H u ∧ ¬ due .V u)) = some true ∧
      after (.schDispatch .H) { row0 t1 with cnt := 1, alarmV := ⟨true, 1, .vFp⟩ }
        (fun u => decide (¬ due .H u ∧ due .V u)) = some true := by decide

theorem witness_SchSetalarmProgramsAlarm :
    ((0 : Nat) = 0 ∧ HandlerId.vEnter = .vEnter ∧ HandlerId.vFp.axis ≠ .H ∧ (conf t1).busy = false) ∧
      (inside 2 (row2 t1)).busy = true ∧ 1 ≤ 1 ∧ HandlerId.hFp ≠ .vEnter ∧ HandlerId.hFp.axis = .H ∧
      HandlerId.vBp.axis = .V := by decide

theorem witness_SchDispatchRunsHandler :
    ¬ due .H (row2 t1) ∧ due .H { row2 t1 with cnt := 3 } ∧ due .H { row2f with cnt := 3 } ∧ due .V { row11d with cnt := 15 } := by
  decide

/-- Before the threshold, at it, and in the spin. -/
theorem witness_SchSpinHoldsUntilThreshold :
    (conf t1).busy = false ∧ (7 ≤ (inside 7 (conf t1)).cnt) ∧ ((inside 7 (conf t1)).busy = true ∧ (inside 7 (conf t1)).cnt < 8) ∧
      (let s := { inside 6 (conf t1) with spin := some (.bare 8) }
       s.busy = true ∧ s.spin = some (.bare 8) ∧ s.cnt + 1 < 8) ∧
      (let s := { inside 7 (conf t1) with spin := some (.bare 8) }
       s.spin = some (.bare 8) ∧ s.cnt + 1 = 8 ∧ ¬ due .H { s with cnt := 8, busy := false, spin := none } ∧
         ¬ due .V { s with cnt := 8, busy := false, spin := none }) := by decide

theorem witness_HostWriterowIsRowOfStores :
    ready t1 (conf t1) ∧ t1.h ≤ 2 ∧ [px 1 1 1].length ≠ t1.w ∧ 1 < t1.h ∧ [px 1 1 1, px 2 2 2].length = t1.w := by decide

theorem witness_HostLoadimageFollowsOutcome :
    (ready t1 { conf t1 with outcomes := [(5, .openFailed)] } ∧
      LoadOutcome.openFailed = (List.lookup 5 [(5, LoadOutcome.openFailed)]).getD (Config.freeOutcome 5 0)) ∧
    LoadOutcome.badFormat = (List.lookup 5 [(5, LoadOutcome.badFormat)]).getD (Config.freeOutcome 5 0) ∧
    LoadOutcome.rows [] true = (List.lookup 5 [(5, LoadOutcome.rows [] true)]).getD (Config.freeOutcome 5 0) :=
  ⟨⟨by decide, rfl⟩, rfl, rfl⟩

theorem witness_HostQuerycapsAnswers :
    (State.reset.busy = false ∧ State.reset.fault = .none ∧ State.reset.md = none) ∧
      ((conf t1).md = some t1 ∧ t1.hasCapquery = false) ∧
      (conf { t1 with hasCapquery := true }).md = some { t1 with hasCapquery := true } := by decide

theorem witness_EncodeDecode : decode ⟨0b0100_0101#8, [.alarm 1]⟩ = .ok (.schDispatch .V) := by decide

theorem witness_ReservedBytes : decode ⟨0x05, []⟩ = .error .reservedByte ∧ decode ⟨0xFF, []⟩ = .error .reservedByte := by
  decide

theorem witness_StepRunsDecoded :
    let s := { conf t1 with script := [⟨0x43, []⟩] }
    s.busy = false ∧ s.work = [] ∧ s.script = ⟨0x43, []⟩ :: [] ∧ decode ⟨0x43, []⟩ = .ok .schTick := by decide

theorem witness_StepRejects :
    let s := { conf t1 with script := [⟨0x47, []⟩] }
    s.busy = false ∧ s.work = [] ∧ s.script = ⟨0x47, []⟩ :: [] ∧ decode ⟨0x47, []⟩ = .error .reservedByte := by decide

theorem witness_StepTicks :
    ({ row2f with script := [⟨0x43, []⟩] }.busy = true ∧ { row2f with script := [⟨0x43, []⟩] }.script = ⟨0x43, []⟩ :: []) ∧
      ({ row2f with script := [⟨0x42, []⟩] }.script = ⟨0x42, []⟩ :: [] ∧ (⟨0x42, []⟩ : OpWord) ≠ ⟨0x43, []⟩) ∧
      row2f.script = [] ∧ ((conf t1).busy = false ∧ (conf t1).work = [] ∧ (conf t1).script = []) := by decide

/-- The first sub-step of a group, the end of a load, and at `k` = the group's length a tick, with each kind of next line
and with none. -/
theorem witness_StepSubsteps :
    let g := [Job.op .schTick, .finish true]
    let s := fun (k : Nat) (script : List OpWord) => { conf t1 with work := [g], choices := [k], script := script }
    ((s 0 []).busy = false ∧ (s 0 []).work = g :: [] ∧ (s 0 []).choices = 0 :: [] ∧ 0 ≤ g.length ∧
        g[0]? = some (.op .schTick)) ∧
      ((s 1 []).choices = 1 :: [] ∧ 1 ≤ g.length ∧ g[1]? = some (.finish true) ∧ (s 1 []).fault = .none) ∧
      ((s 2 []).choices = 2 :: [] ∧ 2 = g.length ∧ g ≠ [] ∧ (s 2 []).script = []) ∧
      (s 2 [⟨0x43, []⟩]).script = ⟨0x43, []⟩ :: [] ∧
      ((s 2 [⟨0x41, []⟩]).script = ⟨0x41, []⟩ :: [] ∧ (⟨0x41, []⟩ : OpWord) ≠ ⟨0x43, []⟩) := by decide

/-- One refusal of each reason. -/
theorem witness_RefusalOrder :
    firstRefusal (.fbSetch 0 0 3 9) State.reset = some .badOp ∧ firstRefusal .schDisarm (faulted (conf t1)) = some .faulted ∧
      firstRefusal (.fbGet 0 0) State.reset = some .notConfigured ∧ firstRefusal .schArm (row0 t1) = some .isArmed ∧
      firstRefusal .schDisarm (conf t1) = some .notArmed ∧ firstRefusal (.schSpin 7) (inside 7 (conf t1)) = some .badOp ∧
      firstRefusal .hFp (inside 0 (row0 t1)) = some .badOp ∧ firstRefusal .fbSwap (conf t1) = some .badOp := by decide

theorem witness_FaultSticky : (faulted (conf t1)).fault ≠ .none ∧ ∃ t, step (faulted (conf t1)) = .next t :=
  ⟨by decide, step_next _⟩

theorem witness_NormalLeavesEngine :
    context (.fbSet 0 0 (px 1 1 1)) = .normal ∧ Instr.fbSet 0 0 (px 1 1 1) ≠ .schArm ∧ Instr.fbSet 0 0 (px 1 1 1) ≠ .schDisarm ∧
      ∃ t, exec (.fbSet 0 0 (px 1 1 1)) (row0 t1a) = .next t := ⟨by decide, by decide, by decide, _, rfl⟩

theorem witness_FramebufferFrame :
    (∃ t, exec .schTick (row0 t1) = .next t) ∧ (∀ x y p, Instr.schTick ≠ .fbSet x y p) ∧
      (∀ x y c v, Instr.schTick ≠ .fbSetch x y c v) ∧ ∀ c, Instr.schTick ≠ .schConfig c :=
  ⟨⟨_, rfl⟩, by simp, by simp, by simp⟩

theorem witness_DacFrame :
    (∃ t, exec .hFp (inside 3 (row2 t1)) = .next t) ∧ (∀ c, Instr.hFp ≠ .poLatchon c) ∧ (∀ c v, Instr.hFp ≠ .poEmitchannel c v) ∧
      (∀ p, Instr.hFp ≠ .poEmitpixel p) ∧ Instr.hFp ≠ .hActive ∧ Instr.hFp ≠ .schTick ∧ ∀ a, Instr.hFp ≠ .schDispatch a :=
  ⟨⟨_, rfl⟩, by simp, by simp, by simp, by simp, by simp, by simp⟩

theorem witness_CounterOnlyTicks : ∃ t, exec .schTick (row0 t1) = .next t := ⟨_, rfl⟩

theorem witness_TraceReplaysPins : ∃ t, exec (.poEmitpixel (px 1 2 3)) (conf t1) = .next t := ⟨_, rfl⟩

/-- Armed engines, and then clause by clause: a step that leaves one armed; one of an engine disarmed in mid-frame (its
cursor at (0, 1)), where no latch is strobed; the first SCH.CONFIG, from reset. -/
theorem witness_StepKeepsInvariant :
    ((∃ t, MachineOk (row0 t1) ∧ step (row0 t1) = .next t ∧ t.armed = true) ∧
        ∃ t, MachineOk row2f ∧ step row2f = .next t) ∧
      (∃ t, MachineOk row2x ∧ WorkingOk row2x ∧ latchesOff row2x ∧ step row2x = .next t ∧ t.md = row2x.md ∧
        ∀ ch u, nextMove row2x ≠ .run (.poLatchon ch) u) ∧
      (∃ t, MachineOk fresh ∧ WorkingOk fresh ∧ step fresh = .next t ∧ fresh.md = none ∧ t.md = some t1) ∧
      ∃ t, stepsOneMode 1 { State.reset with script := [encode (.schConfig t1)], choices := [], outcomes := [] } t ∧
        t.md = some t1 := by
  refine ⟨⟨⟨_, row0_machineOk, rfl, rfl⟩, _, row2f_machineOk, rfl⟩,
    ⟨_, row2x_machineOk, row2x_workingOk, fun c h ch => ?_, rfl, rfl, fun ch u h => ?_⟩,
    ⟨_, fresh_machineOk, fresh_workingOk, rfl, rfl, rfl⟩, _, ⟨_, rfl, .inl rfl, rfl⟩, rfl⟩
  · obtain rfl : t1 = c := Option.some.inj h
    cases ch <;> rfl
  · cases h

/-- An engine whose horizontal axis runs, one that spins, and one that is parked. -/
theorem witness_EngineNeverStops :
    (∃ t, MachineOk (row0 t1) ∧ (row0 t1).armed = true ∧ exec .schTick (row0 t1) = .next t) ∧
      (∃ t, MachineOk row2f ∧ row2f.armed = true ∧ exec .schTick row2f = .next t) ∧
      ∃ t, MachineOk row11d ∧ row11d.armed = true ∧ exec .schTick row11d = .next t :=
  ⟨⟨_, row0_machineOk, rfl, rfl⟩, ⟨_, row2f_machineOk, rfl, rfl⟩, ⟨_, row11d_machineOk, rfl, rfl⟩⟩

/-- An arming, and three ticks after it, where HSYNC is asserted (vector H1, row 3). -/
theorem witness_HsyncWaveform :
    ∃ a t, MachineOk (conf t1) ∧ ready t1 (conf t1) ∧ (conf t1).armed = false ∧ exec .schArm (conf t1) = .next a ∧
      stepsArmed 0 a a ∧ stepsArmed 3 a t ∧ 3 = (t.cnt - (conf t1).cnt) % t1.fTicks :=
  ⟨_, _, conf_machineOk, by decide, rfl, rfl, rfl, ⟨_, rfl, rfl, _, rfl, rfl, _, rfl, rfl, rfl⟩, rfl⟩

/-- An arming, and a tick of the vertical active phase. -/
theorem witness_VsyncWaveform :
    ∃ a t, MachineOk (conf t1) ∧ ready t1 (conf t1) ∧ (conf t1).armed = false ∧ exec .schArm (conf t1) = .next a ∧
      stepsArmed 0 a a ∧ stepsArmed 1 a t ∧ 1 = (t.cnt - (conf t1).cnt) % t1.fTicks :=
  ⟨_, _, conf_machineOk, by decide, rfl, rfl, rfl, ⟨_, rfl, rfl, rfl⟩, rfl⟩

/-- The first pixel of a frame; and, two steps on, a tick that emits none. -/
theorem witness_PixelSchedule :
    (∃ a t, MachineOk (conf t1) ∧ ready t1 (conf t1) ∧ (conf t1).armed = false ∧ exec .schArm (conf t1) = .next a ∧
      stepsArmed 0 a a ∧ step a = .next t ∧ 0 < t1.nFast ∧ 0 < t1.nSlow ∧ t.cnt = a.cnt + 1 ∧
      t.cnt = (conf t1).cnt + 0 * t1.fTicks + 0 * t1.hLine + (0 + 1) * t1.pixelPeriod ∧
      (0, 0) = (if t1.scanOrder = .rowMajor then (0 * t1.stride, 0 * t1.stride) else (0 * t1.stride, 0 * t1.stride))) ∧
    ∃ a s t, exec .schArm (conf t1) = .next a ∧ stepsArmed 2 a s ∧ step s = .next t ∧
      ∀ m i j, i < t1.nFast → j < t1.nSlow →
        t.cnt ≠ (conf t1).cnt + m * t1.fTicks + j * t1.hLine + (i + 1) * t1.pixelPeriod := by
  refine ⟨⟨_, _, conf_machineOk, by decide, rfl, rfl, rfl, rfl, by decide, by decide, rfl, rfl, by decide⟩,
    _, _, _, rfl, ⟨_, rfl, rfl, _, rfl, rfl, rfl⟩, rfl, fun m i j hi hj => ?_⟩
  change 3 ≠ 0 + m * 25 + j * 5 + (i + 1) * 1
  change i < 2 at hi
  change j < 2 at hj
  omega

theorem witness_FramePeriod :
    MachineOk (row0 t1) ∧ (row0 t1).armed = true ∧ (row0 t1).md = some t1 ∧ (row0 t1).frameStart = (row0 t1).cnt ∧
      ∃ u, 1 ≤ 1 ∧ 1 < t1.fTicks ∧ runTicks 1 (row0 t1) = .next u :=
  ⟨row0_machineOk, rfl, rfl, rfl, _, by decide, by decide, rfl⟩

/-- Two engines in a line's front porch, one of them BUSY. -/
theorem witness_StrategiesAgree :
    ∃ t t', MachineOk (row2 t1) ∧ MachineOk row2f ∧ (row2 t1).armed = true ∧ withoutStrategy (row2 t1) = withoutStrategy row2f ∧
      exec .schTick (row2 t1) = .next t ∧ exec .schTick row2f = .next t' :=
  ⟨_, _, row2_machineOk, row2f_machineOk, rfl, rfl, rfl, rfl⟩

/-- A tick that emits a pixel the two machines hold differently. -/
theorem witness_FramebufferCannotSteer :
    ∃ s' t t', MachineOk (row6 t1) ∧ MachineOk s' ∧ (row6 t1).md = some t1 ∧
      s' = { row6 t1 with fb0 := s'.fb0, fb1 := s'.fb1, alloc := s'.alloc } ∧ s'.fb0 ≠ (row6 t1).fb0 ∧
      exec .schTick (row6 t1) = .next t ∧ exec .schTick s' = .next t' :=
  ⟨storeChannel false 3 .G 9 (row6 t1), _, _, row6_machineOk, row6_machineOk.stored rfl (by decide) _ _ _, rfl, rfl,
    by decide, rfl, rfl⟩

theorem witness_SwapAtFrameStart :
    MachineOk row24 ∧ row24.armed = true ∧ ∃ t, step row24 = .next t ∧ t.front ≠ row24.front :=
  ⟨row24_machineOk, rfl, _, rfl, by decide⟩

theorem witness_FbSetAnyOrder :
    ready t1 (conf t1) ∧ 1 < t1.w ∧ 1 < t1.h ∧
      [Instr.fbSetch 1 1 2 3, .fbSetch 1 1 0 1, .fbSetch 1 1 1 2].Perm (rowStores 1 1 [px 1 2 3]) := by decide

theorem witness_WriterowAnyOrder :
    ready t1 (conf t1) ∧ 1 < t1.h ∧ [px 1 1 1, px 2 2 2].length = t1.w ∧
      (rowStores 1 0 [px 1 1 1, px 2 2 2]).reverse.Perm (rowStores 1 0 [px 1 1 1, px 2 2 2]) ∧
      [px 1 1 1, px 2 2 2][1]? = some (px 2 2 2) ∧ (1 < 1 * t1.w ∨ (1 + 1) * t1.w ≤ 4) := by decide

/-- Stores while armed and while disarmed; swaps in both; a tick that starts a frame and one that does not. -/
theorem witness_DoubleBufferIsolates :
    (t1b.doubleBuffer = true ∧ t1b.pixelWriteAtomic = true ∧ 1 < t1b.w ∧ 1 < t1b.h) ∧
      (ready t1b (row0 t1b) ∧ ∃ t, exec (.fbSetch 1 1 (channelCode .B) 9) (row0 t1b) = .next t) ∧
      (ready t1b (conf t1b) ∧ (conf t1b).armed = false ∧
        ∃ t u, exec (.fbSet 1 1 (px 1 2 3)) (conf t1b) = .next t ∧ exec .fbSwap t = .next u) ∧
      ((row0 t1b).armed = true ∧ ∃ t, exec .fbSwap (row0 t1b) = .next t) ∧
      (MachineOk row24 ∧ row24.armed = true ∧ row24.md = some t1b ∧ row24.swapReq = true ∧
        ∃ t, exec .schTick row24 = .next t ∧ t.frameStart = t.cnt) ∧
      (MachineOk (row0 t1b) ∧ (row0 t1b).md = some t1b ∧
        ∃ t, exec .schTick (row0 t1b) = .next t ∧ t.frameStart ≠ t.cnt) :=
  ⟨by decide, ⟨by decide, _, rfl⟩, ⟨by decide, rfl, _, _, rfl, rfl⟩, ⟨rfl, _, rfl⟩,
    ⟨row24_machineOk, rfl, rfl, rfl, _, rfl, by decide⟩, row0b_machineOk, rfl, _, rfl, by decide⟩

end Sys2Proof.Tests
end

section
/-! PROOFS. The statements of `10_state.md`: who writes the latches and the counter, the history of the pins, and the
invariant of the machine at reset, along every step and along every run under one mode. -/

namespace Sys2Proof.Machine

/-! ### Who writes the latches (R36)

A strobe runs in `H.ACTIVE` alone of the handlers; each of the others is framed once. -/

theorem handlerOp_dac {s : State} {pre : Bool} {k : Cfg → State} (hk : ∀ c, (k c).dac = s.dac) :
    (handlerOp s pre k).dac = s.dac :=
  handlerOp_ind (P := fun t => t.dac = s.dac) (refuse_dac · s) fun c _ _ _ _ => hk c

@[simp] theorem vEnterOp_dac (s : State) : (vEnterOp s).dac = s.dac := handlerOp_dac fun c => by simp

@[simp] theorem vFpOp_dac (s : State) : (vFpOp s).dac = s.dac := handlerOp_dac fun c => by simp

@[simp] theorem vSyncOp_dac (s : State) : (vSyncOp s).dac = s.dac := handlerOp_dac fun c => by simp

@[simp] theorem vBpOp_dac (s : State) : (vBpOp s).dac = s.dac := handlerOp_dac fun c => by simp

@[simp] theorem hFpOp_dac (s : State) : (hFpOp s).dac = s.dac := handlerOp_dac fun c => by simp

@[simp] theorem hSyncOp_dac (s : State) : (hSyncOp s).dac = s.dac := handlerOp_dac fun c => by simp

@[simp] theorem blankLineDone_dac (c : Cfg) (s : State) : (blankLineDone c s).dac = s.dac := by
  unfold blankLineDone
  dsimp only
  split
  · simp
  · split <;> simp

@[simp] theorem hBpOp_dac (s : State) : (hBpOp s).dac = s.dac :=
  handlerOp_dac fun c => by
    split
    · split <;> simp
    · split
      · split <;> simp
      · simp

/-- `H.ACTIVE` is the one handler that strobes (R122). -/
theorem runHandler_dac {h : HandlerId} (hh : h ≠ .hActive) (s : State) : (runHandler h s).dac = s.dac := by
  cases h with
  | hActive => exact absurd rfl hh
  | hFp => exact hFpOp_dac s
  | hSync => exact hSyncOp_dac s
  | hBp => exact hBpOp_dac s
  | vEnter => exact vEnterOp_dac s
  | vFp => exact vFpOp_dac s
  | vSync => exact vSyncOp_dac s
  | vBp => exact vBpOp_dac s

/-- The arm sequence deasserts pins but runs no strobe (R162). -/
@[simp] theorem armEngine_dac (c : Cfg) (s : State) : (armEngine c s).dac = s.dac := by simp [armEngine]

/-! ### The history -/

/-- What following a state means for its history: the events gained, all of the present time, replay to the levels. -/
theorem Follows.replays {s t : State} (h : Follows s t) :
    ∃ evs, t.trace = s.trace ++ evs ∧ (∀ e ∈ evs, e.time = t.cnt) ∧
      ∀ p, t.asserted p = replay p evs (s.asserted p) := by
  obtain ⟨hc, -, evs, he, htime, hlevel⟩ := h
  exact ⟨evs, he, fun e hm => (htime e hm).1.trans hc.symm, hlevel⟩

/-! ### The invariant at reset -/

/-- R40, R41: at reset the engine is disarmed, no mode is installed, memories, pins and history are empty. -/
theorem reset_machineOk : MachineOk State.reset where
  engine h := by cases h
  idle _ := ⟨rfl, rfl, rfl, rfl⟩
  mode _ h := by cases h
  memory := reset_memoryOk
  slots b ch _ h := by cases b <;> cases ch <;> cases h
  single _ h := by cases h
  pins := List.Pairwise.nil
  trace := ⟨List.Pairwise.nil, fun _ h => by cases h⟩

/-- R40: at reset nothing of the working registers has moved. -/
theorem reset_workingOk : WorkingOk State.reset where
  unconfigured _ := ⟨rfl, rfl, rfl, rfl⟩
  cursor _ h := by cases h
  lines _ h := by cases h
  cursorZero h := absurd rfl h

/-! ### The invariant along a step

The invariants speak of nothing in the issuer's bookkeeping, so they reach the state in which the step's instruction
runs; there `MachineOk.exec`, `exec_working` and `exec_latches` take over. -/

theorem sameMachine.md {s u : State} (e : sameMachine s u) : u.md = s.md := by
  unfold sameMachine at e
  rw [e]

theorem sameMachine.busy {s u : State} (e : sameMachine s u) : u.busy = s.busy := by
  unfold sameMachine at e
  rw [e]

theorem sameMachine.machineOk {s u : State} (e : sameMachine s u) (h : MachineOk s) : MachineOk u :=
  h.of_same (by unfold sameMachine at e; rw [e])

theorem sameMachine.workingOk {s u : State} (e : sameMachine s u) (h : WorkingOk s) : WorkingOk u := by
  unfold sameMachine at e
  rw [e]
  exact h.of_same ⟨rfl, rfl, rfl, rfl⟩ rfl

theorem sameMachine.latchesOff {s u : State} (e : sameMachine s u) (h : Machine.latchesOff s) :
    Machine.latchesOff u := by
  unfold sameMachine at e
  rw [e]
  exact h

/-- R41: a step keeps the machine in order. -/
theorem MachineOk.step {s t : State} (h : MachineOk s) (hs : step s = .next t) : MachineOk t := by
  rcases step_cases hs with ⟨i, u, hu, ht, hi⟩ | ⟨hu, -⟩
  · exact (hu.machineOk h).exec (fun hb => hi (hu.busy ▸ hb)) ht
  · exact hu.machineOk h

/-- R22, R41 items 6 and 7: a step that does not replace the mode by another keeps the working registers in order. It
leaves them where they are, under the old mode or the first one, or it leaves the engine armed. -/
theorem WorkingOk.step {s t : State} (hw : WorkingOk s) (h : MachineOk s) (hs : Machine.step s = .next t)
    (hmode : s.md = none ∨ t.md = s.md) : WorkingOk t := by
  have ht := h.step hs
  rcases step_cases hs with ⟨i, u, hu, he, hi⟩ | ⟨hu, -⟩
  · have hwu := hu.workingOk hw
    rcases exec_working (hu.machineOk h) (fun hb => hi (hu.busy ▸ hb)) he with ha | same
    · exact (ht.workingOk_of_armed ha).1
    · rw [← hu.md] at hmode
      by_cases hm : t.md = u.md
      · exact hwu.of_same same hm
      · have hn := hmode.resolve_right hm
        obtain ⟨c, hc⟩ := Option.ne_none_iff_exists'.1 (hn ▸ hm)
        exact hwu.firstMode hn (ht.mode c hc) hc same
  · exact hu.workingOk hw

/-- R41 item 8: a step under the same mode that issues no PO.LATCHON of its own keeps the latch lines deasserted. -/
theorem latchesOff.step {s t : State} (hl : latchesOff s) (h : MachineOk s) (hs : Machine.step s = .next t)
    (hm : t.md = s.md) (hno : ∀ ch u, nextMove s ≠ .run (.poLatchon ch) u) : latchesOff t := by
  have ht := h.step hs
  unfold Machine.step at hs
  rcases nextMove_cases s with ⟨i, u, e, hu, hi⟩ | ⟨u, e, hu, -⟩
  · rw [e] at hs
    have hi' : ∀ ch, i ≠ .poLatchon ch := fun ch hx => hno ch u (hx ▸ e)
    rcases exec_latches (hu.machineOk h) (fun hb => hi (hu.busy ▸ hb)) hi' hs with ha | keeps
    · exact (ht.workingOk_of_armed ha).2
    · exact keeps (hm.trans hu.md.symm) (hu.latchesOff hl)
  · rw [e] at hs
    cases hs
    exact hu.latchesOff hl

/-- A run under one mode keeps what every such step keeps. -/
theorem stepsOneMode_inv {n : Nat} {s t : State} (hr : stepsOneMode n s t) (h : MachineOk s) (hw : WorkingOk s) :
    MachineOk t ∧ WorkingOk t := by
  induction n generalizing s with
  | zero =>
    obtain rfl := hr
    exact ⟨h, hw⟩
  | succ n ih =>
    obtain ⟨u, hs, hmode, hr⟩ := hr
    exact ih hr (h.step hs) (hw.step h hs hmode)

end Sys2Proof.Machine

open Sys2Proof Sys2Proof.Machine

/-- Settles O49: the step lemmas of the three invariants, and their induction from reset over a run under one mode. -/
theorem stepKeepsInvariant : Obligations.StepKeepsInvariant := by
  unfold Obligations.StepKeepsInvariant
  refine ⟨fun s t h hs => ?_, fun script choices outcomes n t hr => ?_⟩
  · exact ⟨h.step hs, (h.step hs).workingOk_of_armed, fun hw => hw.step h hs, fun hl => hl.step h hs⟩
  · exact stepsOneMode_inv hr (reset_machineOk.of_same rfl) (reset_workingOk.of_same ⟨rfl, rfl, rfl, rfl⟩ rfl)

/-- Settles O44: of all an operation can answer, only the strobes of the excepted operations write a latch. -/
theorem dacFrame : Obligations.DacFrame := by
  unfold Obligations.DacFrame
  intro i s t h hOn hChannel hPixel hActive hTick hDispatch
  refine exec_ind (P := fun t => t.dac = s.dac) ?_ h
  constructor
  all_goals intros
  case latchedOn hi _ => exact absurd hi (hOn _)
  case channel hi _ => exact absurd hi (hChannel _ _)
  case pixel hi _ => exact absurd hi (hPixel _)
  case ticked hi => exact absurd hi hTick
  case dispatched hi _ => exact absurd hi (hDispatch _)
  case handler hi _ => exact runHandler_dac (fun hh => hActive (hi.trans (congrArg handlerInstr hh))) s
  all_goals simp [installMode]

/-- Settles O45: a tick counts one, and every other operation follows its state at the same CNT (R33). -/
theorem counterOnlyTicks : Obligations.CounterOnlyTicks := by
  unfold Obligations.CounterOnlyTicks
  intro i s t h
  by_cases hi : i = .schTick
  · subst hi
    cases h
    rw [if_pos rfl, tick_cnt]
  · rw [if_neg hi]
    exact (follows_exec hi h).1

/-- Settles O46: an operation follows the state it ran in; a tick follows that state with CNT already counted. -/
theorem traceReplaysPins : Obligations.TraceReplaysPins := by
  unfold Obligations.TraceReplaysPins
  intro i s t h
  by_cases hi : i = .schTick
  · subst hi
    cases h
    exact (follows_tick s).replays
  · exact (follows_exec hi h).replays

/-- Settles O48: the invariants hold of the state R40 describes. -/
theorem resetMeetsInvariant : Obligations.ResetMeetsInvariant := ⟨reset_machineOk, reset_workingOk⟩

end

section
/-! PROOFS. The statements of `20_memory.md`: what a step runs, who writes the Framebuffer, and how the double buffer
keeps the engine's view apart from the writer's. -/

namespace Sys2Proof.Machine

/-! ### What a step runs (R60, R81; log 5, log 6) -/

/-- A script line is issued when the normal context is free and owes no sub-step. -/
theorem nextMove_issue {s : State} {w : OpWord} {rest : List OpWord} (hb : s.busy = false) (hw : s.work = [])
    (hs : s.script = w :: rest) : nextMove s = issue w { s with script := rest, response := .none } := by
  simp [nextMove, hb, hw, hs]

/-- Between sub-steps the listed choice `k` takes the `k`-th of the first group. -/
theorem nextMove_job {s : State} {g : List Job} {rest : List (List Job)} {k : Nat} {ks : List Nat} {j : Job}
    (hb : s.busy = false) (hw : s.work = g :: rest) (hc : s.choices = k :: ks) (hj : g[k]? = some j) :
    nextMove s
      = doJob j { s with choices := ks, work := if g.length = 1 then rest else g.eraseIdx k :: rest } := by
  obtain ⟨hk, -⟩ := List.getElem?_eq_some_iff.1 hj
  have hne : g ≠ [] := List.ne_nil_of_length_pos (by omega)
  have hput : putBack (g.eraseIdx k) rest = if g.length = 1 then rest else g.eraseIdx k :: rest := by
    have hempty : (g.eraseIdx k).isEmpty = true ↔ g.length = 1 := by
      rw [List.isEmpty_iff_length_eq_zero, List.length_eraseIdx_of_lt hk]
      omega
    simp only [putBack, hempty]
  simp [nextMove, hb, hw, hne, takeChoice, hc, Nat.mod_eq_of_lt (show k < g.length + 1 by omega), hj, hput]

/-- Between sub-steps the listed choice past the end of the first group is a tick. -/
theorem nextMove_tick {s : State} {g : List Job} {rest : List (List Job)} {ks : List Nat}
    (hb : s.busy = false) (hw : s.work = g :: rest) (hne : g ≠ []) (hc : s.choices = g.length :: ks) :
    nextMove s = .run .schTick (consumeTick { s with choices := ks }) := by
  simp [nextMove, hb, hw, hne, takeChoice, hc]

theorem consumeTick_nil {s : State} (h : s.script = []) : consumeTick s = s := by
  simp [consumeTick, h]

theorem consumeTick_tick {s : State} {more : List OpWord} (h : s.script = ⟨0x43, []⟩ :: more) :
    consumeTick s = { s with script := more } := by
  rw [consumeTick, h]
  exact if_pos ((isTickWord_iff _).2 rfl)

theorem consumeTick_other {s : State} {w : OpWord} {more : List OpWord} (h : s.script = w :: more)
    (hw : w ≠ ⟨0x43, []⟩) : consumeTick s = s := by
  simp [consumeTick, h, mt (isTickWord_iff w).1 hw]

/-! ### What a slot reads as (R57, R59) -/

/-- A read depends on the two buffers and the allocation alone. -/
theorem readChannel_congr {s t : State} (h : t.fb0 = s.fb0 ∧ t.fb1 = s.fb1 ∧ t.alloc = s.alloc) :
    readChannel t = readChannel s := by
  obtain ⟨h0, h1, ha⟩ := h
  funext b a ch
  simp [readChannel, State.buffer, h0, h1, ha]

theorem readPixel_congr {s t : State} (h : t.fb0 = s.fb0 ∧ t.fb1 = s.fb1 ∧ t.alloc = s.alloc) :
    readPixel t = readPixel s := by
  funext b a
  simp [readPixel, readChannel_congr h]

theorem readPixel_get (s : State) (b : Bool) (a : Nat) (ch : Channel) :
    (readPixel s b a).get ch = readChannel s b a ch := by
  cases ch <;> rfl

/-- A channel store leaves every pixel of the other buffer (R64). -/
theorem readPixel_storeChannel_other {b d : Bool} (h : d ≠ b) (a e : Nat) (ch : Channel) (v : Byte) (s : State) :
    readPixel (storeChannel b a ch v s) d e = readPixel s d e := by
  simp [readPixel, readChannel_storeChannel, h]

/-! ### The double buffer (R64, R93, R144) -/

theorem engineBuffer_double {c : Cfg} (hd : c.doubleBuffer = true) (s : State) : engineBuffer c s = s.front := by
  simp [engineBuffer, hd]

theorem writerBuffer_double {c : Cfg} (hd : c.doubleBuffer = true) (s : State) : writerBuffer c s = !s.front := by
  simp [writerBuffer, hd]

/-- `FB.GETU` in range (R92). -/
theorem exec_fbGetu_inRange {c : Cfg} {s : State} {x y : Nat} (hb : s.busy = true) (hm : s.md = some c)
    (hin : inRange c x y = true) :
    exec (.fbGetu x y) s = .next { s with response := .pixel (readPixel s (engineBuffer c s) (slot c x y)) } := by
  simp [exec, execFbGetu, interruptOp, withMode, hb, hm, hin]

/-- With a double buffer the engine's read of a slot in range answers the front buffer's pixel (R92, R64). -/
theorem engineSees_of_front {c : Cfg} {t : State} {f : Nat → Pixel} (hm : t.md = some c) (hd : c.doubleBuffer = true)
    (h : ∀ a, readPixel t t.front a = f a) : engineSees c t f := by
  intro x y hx hy
  have hin : inRange c x y = true := by simp [inRange, hx, hy]
  rw [exec_fbGetu_inRange (s := { t with busy := true }) rfl hm hin, engineBuffer_double hd]
  exact congrArg (fun p => Host.Outcome.next { t with busy := true, response := .pixel p }) (h _)

/-- `FB.SET` in range (R91). -/
theorem exec_fbSet_inRange {c : Cfg} {s : State} {x y : Nat} (hr : ready c s) (hin : inRange c x y = true) (p : Pixel) :
    exec (.fbSet x y p) s
      = .next (if c.pixelWriteAtomic then storePixel (writerBuffer c s) (slot c x y) p s
        else pushGroup
          [ .op (.fbSetch x y (channelCode .R) p.r), .op (.fbSetch x y (channelCode .G) p.g),
            .op (.fbSetch x y (channelCode .B) p.b) ] s) := by
  rw [hr.run rfl, if_pos hin]

theorem withChannel_channelCode (ch : Channel) (s : State) (k : Channel → State) :
    withChannel (channelCode ch) s k = k ch := by
  cases ch <;> rfl

/-- `FB.SETCH` in range (R95). -/
theorem exec_fbSetch_inRange {c : Cfg} {s : State} {x y : Nat} (hr : ready c s) (hin : inRange c x y = true)
    (ch : Channel) (v : Byte) :
    exec (.fbSetch x y (channelCode ch) v) s = .next (storeChannel (writerBuffer c s) (slot c x y) ch v s) := by
  obtain ⟨hb, hf, hm⟩ := hr
  simp [exec, execFbSetch, withChannel_channelCode, normalOp_run hb hf, withMode, hm, hin]

/-- `FB.SWAP` with a double buffer: requested while armed, at once while disarmed (R93). -/
theorem exec_fbSwap_double {c : Cfg} {s : State} (hr : ready c s) (hd : c.doubleBuffer = true) :
    exec .fbSwap s
      = .next (if s.armed then { s with swapReq := true } else { s with front := !s.front, swapReq := false }) := by
  rw [hr.run rfl]
  simp [hd]

/-- What a store under a double buffer leaves: the normal context, FRONT, and every pixel of the front buffer. -/
structure FrontKept (c : Cfg) (s t : State) : Prop where
  ready : ready c t
  front : t.front = s.front
  armed : t.armed = s.armed
  pixels : ∀ a, readPixel t s.front a = readPixel s s.front a

theorem FrontKept.fbSet {c : Cfg} {s t : State} {x y : Nat} {p : Pixel} (hr : Machine.ready c s)
    (hd : c.doubleBuffer = true) (hin : inRange c x y = true) (ht : exec (.fbSet x y p) s = .next t) :
    FrontKept c s t := by
  rw [exec_fbSet_inRange hr hin] at ht
  cases ht
  split
  · refine ⟨by simpa [Machine.ready] using hr, by simp, by simp, fun a => ?_⟩
    simp [readPixel_storePixel, writerBuffer_double hd]
  · exact ⟨hr, rfl, rfl, fun _ => rfl⟩

theorem FrontKept.fbSetch {c : Cfg} {s t : State} {x y : Nat} {ch : Channel} {v : Byte} (hr : Machine.ready c s)
    (hd : c.doubleBuffer = true) (hin : inRange c x y = true)
    (ht : exec (.fbSetch x y (channelCode ch) v) s = .next t) : FrontKept c s t := by
  rw [exec_fbSetch_inRange hr hin] at ht
  cases ht
  refine ⟨by simpa [Machine.ready] using hr, by simp, by simp, fun a => ?_⟩
  exact readPixel_storeChannel_other (by simp [writerBuffer_double hd]) ..

/-- The atomic `FB.SET` is in the writer's buffer (R91). -/
theorem readPixel_fbSet {c : Cfg} {s t : State} {x y : Nat} {p : Pixel} (hr : ready c s) (hd : c.doubleBuffer = true)
    (hin : inRange c x y = true) (hatomic : c.pixelWriteAtomic = true) (ht : exec (.fbSet x y p) s = .next t) :
    readPixel t (!t.front) (y * c.w + x) = p := by
  rw [exec_fbSet_inRange hr hin, if_pos hatomic] at ht
  cases ht
  simp [readPixel_storePixel, writerBuffer_double hd, slot]

/-- A `FB.SETCH` is in the writer's buffer (R95). -/
theorem readChannel_fbSetch {c : Cfg} {s t : State} {x y : Nat} {ch : Channel} {v : Byte} (hr : ready c s)
    (hd : c.doubleBuffer = true) (hin : inRange c x y = true)
    (ht : exec (.fbSetch x y (channelCode ch) v) s = .next t) :
    readChannel t (!t.front) (y * c.w + x) ch = v := by
  rw [exec_fbSetch_inRange hr hin] at ht
  cases ht
  simp [readChannel_storeChannel, writerBuffer_double hd, slot]

/-- A `FB.SWAP` while disarmed shows the engine the writer's buffer (R93). -/
theorem engineSees_fbSwap_disarmed {c : Cfg} {s t : State} (hr : ready c s) (hd : c.doubleBuffer = true)
    (ha : s.armed = false) (ht : exec .fbSwap s = .next t) : engineSees c t (readPixel s (!s.front)) := by
  rw [exec_fbSwap_double hr hd, if_neg (by simp [ha])] at ht
  cases ht
  exact engineSees_of_front hr.2.2 hd fun _ => rfl

/-- A `FB.SWAP` while armed only requests the swap (R93). -/
theorem engineSees_fbSwap_armed {c : Cfg} {s t : State} (hr : ready c s) (hd : c.doubleBuffer = true)
    (ha : s.armed = true) (ht : exec .fbSwap s = .next t) :
    t.swapReq = true ∧ engineSees c t (readPixel s s.front) := by
  rw [exec_fbSwap_double hr hd, if_pos ha] at ht
  cases ht
  exact ⟨rfl, engineSees_of_front hr.2.2 hd fun _ => rfl⟩

/-! ### When the front buffer changes (R64, R144) -/

/-- A tick of an armed machine in order leaves the double buffer, or starts a frame and swaps if that was requested. -/
theorem MachineOk.tick_swap {c : Cfg} {s : State} (h : MachineOk s) (ha : s.armed = true) (hm : s.md = some c) :
    (Machine.tick s).frameStart ≠ (Machine.tick s).cnt ∧ (Machine.tick s).front = s.front ∧
        (Machine.tick s).swapReq = s.swapReq ∨
      (Machine.tick s).frameStart = (Machine.tick s).cnt ∧ (Machine.tick s).front = frontAfter c s ∧
        (Machine.tick s).swapReq = requestAfter c s := by
  obtain ⟨c', hm', hk⟩ := h.engine ha
  obtain rfl : c = c' := Option.some.inj (hm.symm.trans hm')
  rcases (hk.tickForm ha hm).front with ⟨hf, hq, hs, hc⟩ | ⟨-, e⟩
  · obtain ⟨hle, -⟩ := hk.inFrame
    exact .inl ⟨by omega, hf, hq⟩
  · rw [e]
    exact .inr ⟨rfl, rfl, rfl⟩

theorem sameMachine.swapRegisters {s u : State} (e : sameMachine s u) :
    u.armed = s.armed ∧ u.cnt = s.cnt ∧ u.front = s.front ∧ u.swapReq = s.swapReq := by
  unfold sameMachine at e
  rw [e]
  exact ⟨rfl, rfl, rfl, rfl⟩

/-- While armed, no operation issued between steps but a tick writes FRONT: `FB.SWAP` only requests, and SCH.CONFIG is
refused (R93, R161). -/
theorem exec_front_armed {i : Instr} {s t : State} (h : MachineOk s) (ha : s.armed = true)
    (hi : s.busy = true → i = .schTick) (hne : i ≠ .schTick) (ht : exec i s = .next t) : t.front = s.front := by
  have free : ∀ {q : Prop}, s.busy = true → q := fun hb => absurd (hi hb) hne
  have armed : ∀ {q : Prop}, s.armed = false → q := fun hd => by simp [ha] at hd
  refine exec_ind (P := fun t => t.front = s.front) ?_ ht
  constructor
  all_goals intros
  case handler hb => exact free hb
  case ticked hx => exact absurd hx hne
  case dispatched a _ hdue => simp [h.notDue a] at hdue
  case swapped hd => exact armed hd
  case configured hd _ => exact armed hd
  case armed hd => exact armed hd
  all_goals simp

end Sys2Proof.Machine

open Sys2Proof Sys2Proof.Machine

/-- Settles O39: the choice `k` is below the group's length and takes a sub-step, or equals it and takes a tick. -/
theorem stepSubsteps : Obligations.StepSubsteps := by
  unfold Obligations.StepSubsteps
  intro s g rest k ks hb hw hc _
  refine ⟨fun i hj => ?_, fun complete hj hf => ?_, fun hk hne => ?_⟩
  · rw [step, nextMove_job hb hw hc hj]
    rfl
  · rw [step, nextMove_job hb hw hc hj]
    simp [doJob, finishLoad, hf]
  · rw [step, nextMove_tick hb hw hne (hk ▸ hc)]
    refine ⟨fun more hs => ?_, fun w more hs hx => ?_, fun hs => ?_⟩
    · rw [consumeTick_tick (s := { s with choices := ks }) hs]
    · rw [consumeTick_other (s := { s with choices := ks }) hs hx]
    · rw [consumeTick_nil (s := { s with choices := ks }) hs]

/-- Settles O43: of all an operation can answer, only the two stores and an installed mode write a buffer. -/
theorem framebufferFrame : Obligations.FramebufferFrame := by
  unfold Obligations.FramebufferFrame
  intro i s t h hSet hSetch hConfig b a ch
  have same : t.fb0 = s.fb0 ∧ t.fb1 = s.fb1 ∧ t.alloc = s.alloc := by
    refine exec_ind (P := fun t => t.fb0 = s.fb0 ∧ t.fb1 = s.fb1 ∧ t.alloc = s.alloc) ?_ h
    constructor
    all_goals intros
    case stored hi _ _ => exact absurd hi (hSetch _ _ _ _)
    case storedPixel hi _ _ => exact absurd hi (hSet _ _ _)
    case configured hi _ _ _ _ => exact absurd hi (hConfig _)
    all_goals simp [armEngine]
  rw [readChannel_congr same]

/-- Settles O57: the step runs a tick, since nothing else writes FRONT while armed, and the tick starts a frame. -/
theorem swapAtFrameStart : Obligations.SwapAtFrameStart := by
  unfold Obligations.SwapAtFrameStart
  intro s t h ha hs hfront
  rcases step_cases hs with ⟨i, u, hu, ht, hi⟩ | ⟨hu, -⟩
  · have hM := hu.machineOk h
    obtain ⟨eArmed, eCnt, eFront, eReq⟩ := hu.swapRegisters
    rw [← eArmed] at ha
    rw [← eFront] at hfront
    by_cases hne : i = .schTick
    · subst hne
      cases ht
      obtain ⟨c, hm, -⟩ := hM.engine ha
      rcases hM.tick_swap ha hm with ⟨-, hf, -⟩ | ⟨hstart, hf, hq⟩
      · exact absurd hf hfront
      · have hswap : (c.doubleBuffer && u.swapReq) = true := by
          by_contra hno
          exact hfront (by rw [hf, frontAfter, if_neg hno])
        refine ⟨hstart, by rw [tick_cnt, eCnt], ?_, by rw [hq, requestAfter, if_pos hswap]⟩
        rw [← eReq]
        exact (Bool.and_eq_true_iff.1 hswap).2
    · exact absurd (exec_front_armed hM ha (fun hb => hi (hu.busy ▸ hb)) hne ht) hfront
  · obtain ⟨-, -, eFront, -⟩ := hu.swapRegisters
    exact absurd eFront hfront

/-- Settles O60: a store goes to the writer's buffer and leaves the front one, a swap exchanges them while disarmed, and
while armed only the tick of a frame start does. -/
theorem doubleBufferIsolates : Obligations.DoubleBufferIsolates := by
  unfold Obligations.DoubleBufferIsolates
  refine ⟨fun c x y p ch v i s t hr hd hx hy hi ht => ?_, fun c s t hr hd ht => ?_, fun c s t h ha hm hd ht => ?_⟩
  · have hin : inRange c x y = true := by simp [inRange, hx, hy]
    have kept : FrontKept c s t := by
      rcases hi with rfl | rfl
      · exact .fbSet hr hd hin ht
      · exact .fbSetch hr hd hin ht
    have hpixel : i = .fbSet x y p → c.pixelWriteAtomic = true → readPixel t (!t.front) (y * c.w + x) = p :=
      fun e hatomic => readPixel_fbSet hr hd hin hatomic (e ▸ ht)
    have hchannel : i = .fbSetch x y (channelCode ch) v → readChannel t (!t.front) (y * c.w + x) ch = v :=
      fun e => readChannel_fbSetch hr hd hin (e ▸ ht)
    refine ⟨engineSees_of_front kept.ready.2.2 hd fun a => by rw [kept.front, kept.pixels], hpixel, hchannel,
      fun u ha hu => ?_⟩
    have shown := engineSees_fbSwap_disarmed kept.ready hd (kept.armed.trans ha) hu x y hx hy
    refine ⟨fun e hatomic => ?_, fun e => ⟨_, ?_, shown⟩⟩
    · rw [shown, hpixel e hatomic]
    · rw [readPixel_get, hchannel e]
  · exact ⟨fun ha => engineSees_fbSwap_disarmed hr hd ha ht, fun ha => engineSees_fbSwap_armed hr hd ha ht⟩
  · cases ht
    have hm' : (tick s).md = some c := by simpa using hm
    have hread : readPixel (tick s) = readPixel s := readPixel_congr (by simp)
    have sees : ∀ b, (tick s).front = b → engineSees c (tick s) (readPixel s b) := fun b hb =>
      engineSees_of_front hm' hd fun a => by rw [hread, hb]
    rcases h.tick_swap ha hm with ⟨hstart, hf, hq⟩ | ⟨hstart, hf, hq⟩
    · exact ⟨fun e => absurd e hstart, fun _ => ⟨hq, sees _ hf⟩⟩
    · refine ⟨fun _ hreq => ?_, fun hno => ?_⟩
      · simp only [requestAfter, frontAfter, hd, hreq, Bool.and_self, if_true] at hq hf
        exact ⟨hq, sees _ hf⟩
      · have hreq : s.swapReq = false := hno.resolve_left (absurd hstart)
        simp only [requestAfter, frontAfter, hd, hreq, Bool.and_false, Bool.false_eq_true, if_false] at hq hf
        exact ⟨hq.trans hreq.symm, sees _ hf⟩

/-- Settles O36: the word is issued, and issuing it runs what it decodes to. -/
theorem stepRunsDecoded : Obligations.StepRunsDecoded := by
  unfold Obligations.StepRunsDecoded
  intro s w rest i hb hw hs hdec
  rw [step, nextMove_issue hb hw hs]
  simp [issue, hdec]

end

section
/-! PROOFS. The statements of `30_encoding.md`: the decoder and the encoder are each other's inverse, the reserved bytes,
what a step does with a word that does not decode, and the expansions of `PO.EMITCHANNEL` and `PO.EMITPIXEL`. -/

namespace Sys2Proof

/-! ### The codes of the enumerations (R73, R74) -/

@[simp] theorem axisOf_axisCode (a : Axis) : axisOf (axisCode a) = a := by cases a <;> rfl

@[simp] theorem axisCode_axisOf (a : BitVec 1) : axisCode (axisOf a) = a := by decide +revert

@[simp] theorem handlerOf_handlerCode (h : HandlerId) : handlerOf (handlerCode h) = h := by cases h <;> rfl

@[simp] theorem handlerCode_handlerOf (h : BitVec 3) : handlerCode (handlerOf h) = h := by decide +revert

/-! ### Decoder and encoder (R70, R71) -/

/-- A byte is its unit and its func (R70). -/
theorem opByte_opUnit_opFunc (op : Byte) : opByte (opUnit op) (opFunc op) = op := by
  unfold opByte opUnit opFunc
  rw [Nat.div_add_mod', BitVec.ofNat_toNat, BitVec.setWidth_eq]

theorem opUnit_opByte {u f : Nat} (hu : u < 16) (hf : f < 16) : opUnit (opByte u f) = u := by
  rw [opUnit, opByte, BitVec.toNat_ofNat]
  omega

theorem opFunc_opByte (u : Nat) {f : Nat} (hf : f < 16) : opFunc (opByte u f) = f := by
  rw [opFunc, opByte, BitVec.toNat_ofNat]
  omega

/-- Every row of R71 reads back; only axes and handlers are coded in the operands. -/
theorem decode_encode (i : Instr) : decode (encode i) = .ok i := by
  cases i
  case hActive | hFp | hSync | hBp | vEnter | vFp | vSync | vBp => rfl
  all_goals simp [encode, decode, opUnit_opByte, opFunc_opByte]

/-- Every arm of the decoder that reads a word reads it as the row whose byte and operands it has. -/
theorem encode_of_decode {w : OpWord} {i : Instr} (h : decode w = .ok i) : encode i = w := by
  obtain ⟨op, args⟩ := w
  unfold decode at h
  dsimp only at h
  split at h <;> cases h
  all_goals
    rename_i hunit hfunc
    rw [← opByte_opUnit_opFunc op, hunit, hfunc]
  -- SCH.SETALARM and SCH.DISPATCH, the two arms whose operands are codes
  case h_24 | h_25 => simp [encode]
  all_goals rfl

/-! ### The words that do not decode (R79) -/

/-- The decoder's reason depends on the byte alone. -/
theorem decode_error {w : OpWord} {e : DecodeError} (h : decode w = .error e) :
    e = if reservedByte w.op then .reservedByte else .badOperands := by
  unfold decode at h
  split at h <;> cases h
  rfl

/-- The byte of an encoded instruction is a row of R71, so it is not reserved. -/
theorem reservedByte_encode (i : Instr) : reservedByte (encode i).op = false := by
  have rowByte : Laws.OpByte.Statement i := by cases i <;> exact Laws.OpByte.of_byte rfl rfl (by decide)
  exact rowByte.2

/-- The decoder answers "reserved" by the byte alone: a word that decodes is an encoding. -/
theorem decode_reservedByte_iff (w : OpWord) : decode w = .error .reservedByte ↔ reservedByte w.op = true := by
  cases h : decode w with
  | ok i =>
    have free : reservedByte w.op = false := encode_of_decode h ▸ reservedByte_encode i
    simp [free]
  | error e =>
    rw [decode_error h]
    cases reservedByte w.op <;> simp

/-- The ranges of R79, unit by unit. -/
theorem reservedByte_iff_ranges (op : Byte) :
    reservedByte op = true ↔
      0x05 ≤ op.toNat ∧ op.toNat ≤ 0x0F ∨ 0x16 ≤ op.toNat ∧ op.toNat ≤ 0x1F ∨ 0x24 ≤ op.toNat ∧ op.toNat ≤ 0x2F ∨
      0x34 ≤ op.toNat ∧ op.toNat ≤ 0x3F ∨ 0x47 ≤ op.toNat ∧ op.toNat ≤ 0x4F ∨ 0x53 ≤ op.toNat ∧ op.toNat ≤ 0x5F ∨
      0x60 ≤ op.toNat := by
  rw [reservedByte, decide_eq_true_iff, opUnit, opFunc]
  unfold unitSize
  split
  -- a unit above 5 has no operation
  case h_7 =>
    simp only [imp_false] at *
    omega
  all_goals omega

end Sys2Proof

namespace Sys2Proof.Machine

/-! ### The primitives that may run (R80, R100 to R105) -/

theorem exec_poClrcolor {c : Cfg} {s : State} (hr : primitiveReady c s) :
    exec .poClrcolor s = .next (clearColor c s) :=
  hr.run (k := fun c => clearColor c s) rfl

theorem exec_poSetcolor {c : Cfg} {s : State} (hr : primitiveReady c s) (v : Byte) :
    exec (.poSetcolor v) s = .next (setColor c v s) :=
  hr.run (k := fun c => setColor c v s) rfl

theorem exec_poLatchon {c : Cfg} {s : State} (hr : primitiveReady c s) (ch : Channel) :
    exec (.poLatchon (channelCode ch)) s = .next (latchOn c ch s) :=
  hr.run (k := fun c => latchOn c ch s) (congrArg Host.Outcome.next (withChannel_channelCode ch s _))

theorem exec_poLatchoff {c : Cfg} {s : State} (hr : primitiveReady c s) (ch : Channel) :
    exec (.poLatchoff (channelCode ch)) s = .next (latchOff c ch s) :=
  hr.run (k := fun c => latchOff c ch s) (congrArg Host.Outcome.next (withChannel_channelCode ch s _))

theorem exec_poEmitchannel {c : Cfg} {s : State} (hr : primitiveReady c s) (ch : Channel) (v : Byte) :
    exec (.poEmitchannel (channelCode ch) v) s = .next (emitChannel c ch v s) :=
  hr.run (k := fun c => emitChannel c ch v s) (congrArg Host.Outcome.next (withChannel_channelCode ch s _))

theorem exec_poEmitpixel {c : Cfg} {s : State} (hr : primitiveReady c s) (p : Pixel) :
    exec (.poEmitpixel p) s = .next (emitPixel c p s) :=
  hr.run (k := fun c => emitPixel c p s) rfl

theorem runAll_cons {i : Instr} {s t : State} (h : exec i s = .next t) (l : List Instr) :
    runAll (i :: l) s = runAll l t := by
  rw [runAll, h]

/-- The four operations of R104 one after the other are `emitChannel`: none of them writes BUSY, ARMED or the mode, so
after each the next may run. -/
theorem runAll_channel {c : Cfg} {s : State} (hr : primitiveReady c s) (ch : Channel) (v : Byte) :
    runAll [.poClrcolor, .poSetcolor v, .poLatchon (channelCode ch), .poLatchoff (channelCode ch)] s
      = .next (emitChannel c ch v s) := by
  have hClear : primitiveReady c (clearColor c s) := by simpa [primitiveReady] using hr
  have hSet : primitiveReady c (setColor c v (clearColor c s)) := by simpa [primitiveReady] using hClear
  have hOn : primitiveReady c (latchOn c ch (setColor c v (clearColor c s))) := by
    simpa [primitiveReady] using hSet
  rw [runAll_cons (exec_poClrcolor hr), runAll_cons (exec_poSetcolor hClear v), runAll_cons (exec_poLatchon hSet ch),
    runAll_cons (exec_poLatchoff hOn ch)]
  rfl

/-- A run of `PO.EMITCHANNEL`s emits the channels in the list's order (R105). -/
theorem runAll_channels {c : Cfg} (p : Pixel) (l : List Channel) {s : State} (hr : primitiveReady c s) :
    runAll (l.map fun ch => .poEmitchannel (channelCode ch) (p.get ch)) s
      = .next (l.foldl (fun t ch => emitChannel c ch (p.get ch) t) s) := by
  induction l generalizing s with
  | nil => rfl
  | cons ch l ih =>
    rw [List.map_cons, runAll_cons (exec_poEmitchannel hr ch _)]
    exact ih (by simpa [primitiveReady] using hr)

end Sys2Proof.Machine

open Sys2Proof Sys2Proof.Machine

/-- Settles O32: each row of R71 reads back, and the codes of R73 and R74 are those of the axes and handlers. -/
theorem decodeEncode : Obligations.DecodeEncode := decode_encode

/-- Settles O12: each operation runs its body under the mode and leaves the next one able to run. -/
theorem poEmitEqualsExpansion : Obligations.PoEmitEqualsExpansion := by
  unfold Obligations.PoEmitEqualsExpansion
  intro c s hr
  refine ⟨fun ch v => ?_, fun p => ?_⟩
  · rw [exec_poEmitchannel hr, runAll_channel hr]
  · rw [exec_poEmitpixel hr, runAll_channels p _ hr, emitPixel]

/-- Settles O33: by the arms of the decoder; a byte is its unit and func, and the codes are one to one. -/
theorem encodeDecode : Obligations.EncodeDecode := fun _ _ => encode_of_decode

/-- Settles O34: the decoder answers "reserved" by the byte alone, and the bytes it does are in R79's ranges. -/
theorem reservedBytes : Obligations.ReservedBytes := by
  unfold Obligations.ReservedBytes
  intro op
  simp only [decode_reservedByte_iff]
  exact ⟨(exists_const _).trans (reservedByte_iff_ranges op), fun _ h _ => h⟩

/-- Settles O35: the words are closed, and the decoder computes. -/
theorem sampleWords : Obligations.SampleWords := by
  unfold Obligations.SampleWords
  decide

/-- Settles O37: the word is issued, and issuing one that does not decode is the refusal BAD_OP. -/
theorem stepRejects : Obligations.StepRejects := by
  unfold Obligations.StepRejects
  intro s w rest e hb hw hs hdec
  rw [step, nextMove_issue hb hw hs]
  simp [issue, hdec, refuse]

end

section
/-! PROOFS. The statements of `40_framebuffer_ops.md`: what each Framebuffer operation answers, reads and writes, and
the three channel stores of a pixel in any order. -/

namespace Sys2Proof.Machine

/-! ### The range test (R50, R90, R203) -/

theorem inRange_of_lt {c : Cfg} {x y : Nat} (hx : x < c.w) (hy : y < c.h) : inRange c x y = true := by
  simp [inRange, hx, hy]

theorem inRange_of_outside {c : Cfg} {x y : Nat} (h : c.w ≤ x ∨ c.h ≤ y) : inRange c x y = false := by
  simp only [inRange, decide_eq_false_iff_not]
  omega

/-- An operation whose body opens with the range test raises FB_RANGE when it fails (R203). -/
theorem raises_fbRange {i : Instr} {c : Cfg} {s : State} {x y : Nat} {k : Cfg → State} (hr : ready c s)
    (hout : c.w ≤ x ∨ c.h ≤ y)
    (h : exec i s
      = .next (normalOp s (withMode s fun m => if inRange m x y then k m else raiseNormal (.fbRange x y) s))) :
    raises i s (.fbRange x y) := by
  refine raises_of hr ?_
  rw [hr.run h]
  simp [inRange_of_outside hout]

/-! ### The operations, by case (R90, R92, R95) -/

/-- `FB.GET` in range (R90). -/
theorem exec_fbGet_inRange {c : Cfg} {s : State} {x y : Nat} (hr : ready c s) (hin : inRange c x y = true) :
    exec (.fbGet x y) s = .next { s with response := .pixel (readPixel s (writerBuffer c s) (slot c x y)) } := by
  rw [hr.run rfl, if_pos hin]

/-- `FB.GETU` out of range (R203; logs 19 and 30). -/
theorem exec_fbGetu_outside {c : Cfg} {s : State} {x y : Nat} (hb : s.busy = true) (hm : s.md = some c)
    (hout : c.w ≤ x ∨ c.h ≤ y) : exec (.fbGetu x y) s = .next (raiseInterrupt (.fbRange x y) s) := by
  simp [exec, execFbGetu, interruptOp, withMode, hb, hm, inRange_of_outside hout]

/-- A channel operand that names a channel passes the test on it (R95, R204). -/
theorem exec_fbSetch (x y : Nat) (ch : Channel) (v : Byte) (s : State) :
    exec (.fbSetch x y (channelCode ch) v) s
      = .next (normalOp s (withMode s fun m =>
          if inRange m x y then storeChannel (writerBuffer m s) (slot m x y) ch v s
          else raiseNormal (.fbRange x y) s)) :=
  congrArg Host.Outcome.next (withChannel_channelCode ch s _)

/-! ### What a store writes (R91, R95) -/

/-- A channel store writes the two buffers alone. -/
theorem storeChannel_frame (b : Bool) (a : Nat) (ch : Channel) (v : Byte) (s : State) :
    { storeChannel b a ch v s with fb0 := s.fb0, fb1 := s.fb1 } = s := by
  cases b <;> rfl

/-- A pixel store writes the two buffers alone. -/
theorem storePixel_frame (b : Bool) (a : Nat) (p : Pixel) (s : State) :
    { storePixel b a p s with fb0 := s.fb0, fb1 := s.fb1 } = s := by
  cases b <;> rfl

theorem readChannel_storePixel (b d : Bool) (a e : Nat) (p : Pixel) (ch : Channel) (s : State) :
    readChannel (storePixel b a p s) d e ch = if d = b ∧ e = a then p.get ch else readChannel s d e ch := by
  rw [← readPixel_get, readPixel_storePixel, apply_ite (PerChannel.get · ch), readPixel_get]

/-! ### The three channel stores of a pixel (R91) -/

/-- The store of one channel of `p`. -/
def pixelStore (x y : Nat) (p : Pixel) (ch : Channel) : Instr := .fbSetch x y (channelCode ch) (p.get ch)

theorem exec_pixelStore {c : Cfg} {s : State} {x y : Nat} (hr : ready c s) (hin : inRange c x y = true) (p : Pixel)
    (ch : Channel) :
    exec (pixelStore x y p ch) s = .next (storeChannel (writerBuffer c s) (slot c x y) ch (p.get ch) s) :=
  exec_fbSetch_inRange hr hin ch (p.get ch)

/-- Stores to two channels of one slot commute: the channels have separate memories. -/
theorem storeChannel_comm (b : Bool) (a : Nat) (p : Pixel) (ch dh : Channel) (s : State) :
    storeChannel b a dh (p.get dh) (storeChannel b a ch (p.get ch) s)
      = storeChannel b a ch (p.get ch) (storeChannel b a dh (p.get dh) s) := by
  cases b <;> cases ch <;> cases dh <;> rfl

/-- A run of a pixel's channel stores stores them one after the other: none of them leaves the normal context. -/
theorem runAll_pixelStores {c : Cfg} {x y : Nat} (hin : inRange c x y = true) (p : Pixel) (l : List Channel)
    {s : State} (hr : ready c s) :
    runAll (l.map (pixelStore x y p)) s
      = .next (l.foldl (fun t ch => storeChannel (writerBuffer c s) (slot c x y) ch (p.get ch) t) s) := by
  induction l generalizing s with
  | nil => rfl
  | cons ch l ih =>
    rw [List.map_cons, runAll_cons (exec_pixelStore hr hin p ch), ih (by simpa [ready] using hr)]
    simp [writerBuffer]

/-- In any order they store the pixel: a permutation of them is `pixelStore` over a permutation of the channels, and the
stores commute. -/
theorem runAll_perm_pixelStores {c : Cfg} {x y : Nat} {p : Pixel} {s : State} {l : List Instr} (hr : ready c s)
    (hin : inRange c x y = true) (hl : l.Perm (rowStores y x [p])) :
    runAll l s = .next (storePixel (writerBuffer c s) (slot c x y) p s) := by
  obtain ⟨chs, rfl, hperm⟩ := (congrFun₂ (List.eq_map_comp_perm (pixelStore x y p)) l [.R, .G, .B]).mpr hl
  rw [runAll_pixelStores hin p chs hr, hperm.foldl_eq' fun _ _ _ _ _ => storeChannel_comm ..]
  rfl

end Sys2Proof.Machine

open Sys2Proof Sys2Proof.Machine

/-- Settles O58: the stores commute, so that in any order they are the store of the pixel. -/
theorem fbSetAnyOrder : Obligations.FbSetAnyOrder := by
  unfold Obligations.FbSetAnyOrder
  intro c x y p s l hr hx hy hl
  have hin := inRange_of_lt hx hy
  refine ⟨_, runAll_perm_pixelStores hr hin hl, storePixel_frame .., fun b a => readPixel_storePixel .., ?_⟩
  rw [exec_fbGet_inRange (by simpa [ready] using hr) hin, readPixel_storePixel,
    if_pos ⟨by simp [writerBuffer], rfl⟩]

/-- Settles O1: the tests of R204 in order, then the read of the writer's buffer. -/
theorem fbGetReadsWriterSlot : Obligations.FbGetReadsWriterSlot := by
  unfold Obligations.FbGetReadsWriterSlot
  intro x y s
  refine ⟨rfl, modeRefusals_of rfl, fun c hr => ⟨fun hout => raises_fbRange hr hout rfl, fun hx hy => ?_⟩⟩
  exact exec_fbGet_inRange hr (inRange_of_lt hx hy)

/-- Settles O2: in range PIXEL_WRITE_ATOMIC decides between the pixel's store and the group of three. -/
theorem fbSetStoresPixelOrThreeStores : Obligations.FbSetStoresPixelOrThreeStores := by
  unfold Obligations.FbSetStoresPixelOrThreeStores
  intro x y p s
  refine ⟨rfl, modeRefusals_of rfl, fun c hr =>
    ⟨fun hout => raises_fbRange hr hout rfl, fun hx hy hatomic => ?_, fun hx hy hsplit => ?_⟩⟩
  · rw [exec_fbSet_inRange hr (inRange_of_lt hx hy), if_pos hatomic]
    exact ⟨_, rfl, storePixel_frame .., fun b a ch => readChannel_storePixel ..⟩
  · rw [exec_fbSet_inRange hr (inRange_of_lt hx hy), if_neg (by simp [hsplit])]
    rfl

/-- Settles O3: the channel test first, then the tests of R204, then the store. -/
theorem fbSetchStoresOneChannel : Obligations.FbSetchStoresOneChannel := by
  unfold Obligations.FbSetchStoresOneChannel
  intro x y v s
  refine ⟨rfl, fun ch => ⟨rfl, modeRefusals_of (exec_fbSetch ..), fun c hr =>
    ⟨fun hout => raises_fbRange hr hout (exec_fbSetch ..), fun hx hy => ?_⟩⟩⟩
  exact ⟨_, exec_fbSetch_inRange hr (inRange_of_lt hx hy) ch v, storeChannel_frame .., fun b a dh =>
    readChannel_storeChannel ..⟩

/-- Settles O4: the context, then the mode, then the range test. -/
theorem fbGetuReadsEngineSlot : Obligations.FbGetuReadsEngineSlot := by
  unfold Obligations.FbGetuReadsEngineSlot
  intro x y s
  refine ⟨rfl, fun hb => ?_, fun hb hm => ?_, fun c hb hm => ⟨fun hx hy => ?_, fun hout => ?_⟩⟩
  · simp [exec, execFbGetu, interruptOp, refuse, hb]
  · simp [exec, execFbGetu, interruptOp, withMode, refuse, hb, hm]
  · exact exec_fbGetu_inRange hb hm (inRange_of_lt hx hy)
  · exact exec_fbGetu_outside hb hm hout

/-- Settles O5: the tests of R204, then DOUBLE_BUFFER, then ARMED. -/
theorem fbSwapRequestsOrSwaps : Obligations.FbSwapRequestsOrSwaps := by
  unfold Obligations.FbSwapRequestsOrSwaps
  intro s
  refine ⟨rfl, modeRefusals_of rfl, fun c hr => ⟨fun hd => ?_, fun hd ha => ?_, fun hd ha => ?_⟩⟩
  · rw [hr.run rfl, if_pos (by simp [hd])]
    rfl
  · rw [exec_fbSwap_double hr hd, if_pos ha]
  · rw [exec_fbSwap_double hr hd, if_neg (by simp [ha])]

end

section
/-! PROOFS. The statements of `41_pixel_output.md`: what each unit 1 primitive refuses, the register operations it
performs, the lines it leaves asserted and what the external latches capture. -/

namespace Sys2Proof.Machine

/-! ### The refusals of a primitive (R80, R204) -/

/-- A unit 1 primitive opens with two refusals: issued on its own while ARMED, or with no mode. -/
theorem primitiveRefusals_of {i : Instr} {s : State} {k : Cfg → State} (h : exec i s = .next (primitiveOp s k)) :
    primitiveRefusals i s := by
  refine ⟨fun hb ha => ?_, fun hctx hm => ?_⟩ <;> rw [h]
  · simp [primitiveOp, refuse, hb, ha]
  · rcases hctx with hb | ha <;> simp [primitiveOp, withMode, refuse, *]

/-- So does one with a channel operand that names a channel. -/
theorem primitiveRefusals_of_channel {i : Instr} {s : State} {ch : Channel} {k : Channel → Cfg → State}
    (h : exec i s = .next (withChannel (channelCode ch) s fun dh => primitiveOp s (k dh))) : primitiveRefusals i s :=
  primitiveRefusals_of (h.trans (congrArg Host.Outcome.next (withChannel_channelCode ch s _)))

/-! ### The pin sets as the events list them (R39, R76) -/

theorem listsSet_maskPins (t : PinTable) (v : Byte) : listsSet (maskPins t v) (isMaskPin t v) :=
  ⟨pinSet_sorted _, mem_maskPins t v⟩

theorem listsSet_colorPins (t : PinTable) : listsSet (colorPins t) (isColorPin t) :=
  ⟨pinSet_sorted _, mem_colorPins t⟩

/-! ### The asserted lines after each primitive (R100 to R105) -/

theorem asserted_iff_mem (s : State) (p : Nat) : s.asserted p = true ↔ p ∈ s.gpio := List.contains_iff_mem

theorem asserted_clearColor (c : Cfg) (s : State) (p : Nat) :
    (clearColor c s).asserted p = true ↔ s.asserted p = true ∧ ¬ isColorPin c.pinOfBit p := by
  rw [← (listsSet_colorPins c.pinOfBit).2 p]
  simp [clearColor]

theorem asserted_setColor (c : Cfg) (v : Byte) (s : State) (p : Nat) :
    (setColor c v s).asserted p = true ↔ s.asserted p = true ∨ isMaskPin c.pinOfBit v p := by
  rw [← (listsSet_maskPins c.pinOfBit v).2 p]
  simp [setColor, or_comm]

theorem asserted_latchOn (c : Cfg) (ch : Channel) (s : State) (p : Nat) :
    (latchOn c ch s).asserted p = true ↔ s.asserted p = true ∨ p = c.latchPin.get ch := by
  change (pinSetOp [c.latchPin.get ch] s).asserted p = true ↔ _
  simp [or_comm]

theorem asserted_latchOff (c : Cfg) (ch : Channel) (s : State) (p : Nat) :
    (latchOff c ch s).asserted p = true ↔ s.asserted p = true ∧ p ≠ c.latchPin.get ch := by
  simp [latchOff]

/-- Under a legal configuration the trailing edge of the strobe takes no color line with it: the latch pins are apart
from the color pins (R9, R104). -/
theorem asserted_emitChannel {c : Cfg} (hv : c.valid) (ch : Channel) (v : Byte) (s : State) (p : Nat) :
    (emitChannel c ch v s).asserted p = true ↔
      isMaskPin c.pinOfBit v p ∨ s.asserted p = true ∧ ¬ isColorPin c.pinOfBit p ∧ p ≠ c.latchPin.get ch := by
  have apart : isMaskPin c.pinOfBit v p → p ≠ c.latchPin.get ch := fun hm e =>
    latch_not_mem_maskPins hv ch v (e ▸ (mem_maskPins ..).2 hm)
  rw [emitChannel, asserted_latchOff, asserted_latchOn, asserted_setColor, asserted_clearColor]
  tauto

theorem asserted_emitPixel {c : Cfg} (hv : c.valid) (p : Pixel) (s : State) {last : Channel}
    (hlast : c.channelOrder.toList.getLast? = some last) (q : Nat) :
    (emitPixel c p s).asserted q = true ↔
      isMaskPin c.pinOfBit (p.get last) q ∨
        s.asserted q = true ∧ ¬ isColorPin c.pinOfBit q ∧ ∀ ch, q ≠ c.latchPin.get ch := by
  rw [asserted_iff_mem, asserted_iff_mem, emitPixel_eq hv, ← (listsSet_maskPins c.pinOfBit (p.get last)).2 q,
    ← (listsSet_colorPins c.pinOfBit).2 q]
  exact mem_pixelGpio hv p s.gpio hlast q

/-! ### What a latch captures (R106) -/

theorem colorLine_iff (t : PinTable) (s : State) (i : Nat) :
    colorLine t s.gpio i = true ↔ ∃ p, t.get i = some p ∧ s.asserted p = true := by
  unfold colorLine
  cases t.get i <;> simp [State.asserted]

/-- Bit by bit: a bit above 7 is neither captured nor wired. -/
theorem getLsbD_capture (c : Cfg) (ch : Channel) (s : State) (i : Nat) :
    (capture c ch s).getLsbD i = true ↔
      (c.wired.get ch).getLsbD i = true ∧ ∃ p, c.pinOfBit.get i = some p ∧ s.asserted p = true := by
  rw [← colorLine_iff, capture, BitVec.getLsbD_and, Bool.and_eq_true]
  refine and_congr_right fun hw => ?_
  have hi : i < 8 := BitVec.lt_of_getLsbD hw
  simp [colorByte, hi]

end Sys2Proof.Machine

open Sys2Proof Sys2Proof.Machine

/-- Settles O10: the four register operations in closed form; the mode is legal, so that the latch captures the wired
bits of `v`. -/
theorem poEmitchannelFourOperations : Obligations.PoEmitchannelFourOperations := by
  unfold Obligations.PoEmitchannelFourOperations
  intro v s
  refine ⟨rfl, fun ch => ⟨rfl, primitiveRefusals_of_channel rfl, fun c hr hv => ?_⟩⟩
  refine ⟨_, _, _, exec_poEmitchannel hr ch v, listsSet_colorPins _, listsSet_maskPins _ v,
    asserted_emitChannel hv ch v s, ?_⟩
  rw [emitChannel_eq, capture_eq hv]
  rfl

/-- Settles O11: the three channels in closed form, four events each. -/
theorem poEmitpixelTwelveOperations : Obligations.PoEmitpixelTwelveOperations := by
  unfold Obligations.PoEmitpixelTwelveOperations
  intro p s
  refine ⟨rfl, primitiveRefusals_of rfl, fun c last hr hv hlast => ?_⟩
  refine ⟨_, _, exec_poEmitpixel hr p, pixelEvents_length c p s.cnt, asserted_emitPixel hv p s hlast, ?_⟩
  rw [emitPixel_eq hv]
  rfl

/-- Settles O6: one PinClear of the color pins. -/
theorem poClrcolorDeassertsColorLines : Obligations.PoClrcolorDeassertsColorLines := by
  unfold Obligations.PoClrcolorDeassertsColorLines
  intro s
  refine ⟨rfl, primitiveRefusals_of rfl, fun c hr => ?_⟩
  exact ⟨_, _, exec_poClrcolor hr, listsSet_colorPins _, asserted_clearColor c s, rfl⟩

/-- Settles O7: one PinSet of the mask. -/
theorem poSetcolorAssertsMask : Obligations.PoSetcolorAssertsMask := by
  unfold Obligations.PoSetcolorAssertsMask
  intro v s
  refine ⟨rfl, primitiveRefusals_of rfl, fun c hr => ?_⟩
  exact ⟨_, _, exec_poSetcolor hr v, listsSet_maskPins _ v, asserted_setColor c v s, rfl⟩

/-- Settles O8: the capture reads the lines with the latch line already asserted. -/
theorem poLatchonStrobesAndCaptures : Obligations.PoLatchonStrobesAndCaptures := by
  unfold Obligations.PoLatchonStrobesAndCaptures
  intro s
  refine ⟨rfl, fun ch => ⟨rfl, primitiveRefusals_of_channel rfl, fun c hr => ?_⟩⟩
  exact ⟨_, capture c ch (pinSetOp [c.latchPin.get ch] s), exec_poLatchon hr ch, asserted_latchOn c ch s,
    getLsbD_capture c ch _, rfl⟩

/-- Settles O9: one PinClear of the latch pin. -/
theorem poLatchoffDeassertsLatch : Obligations.PoLatchoffDeassertsLatch := by
  unfold Obligations.PoLatchoffDeassertsLatch
  intro s
  refine ⟨rfl, fun ch => ⟨rfl, primitiveRefusals_of_channel rfl, fun c hr => ?_⟩⟩
  exact ⟨_, exec_poLatchoff hr ch, asserted_latchOff c ch s, rfl⟩

end

section
/-! PROOFS. The statements of `42_horizontal_timing.md`: the HSYNC waveform, the pixel schedule and the frame period from
an arming on, and what each horizontal handler refuses, programs and drives. -/

namespace Sys2Proof.Machine

/-! ### What a legal mode gives the grid (R202) -/

theorem pixelPeriod_pos {c : Cfg} (hv : c.valid) : 0 < c.pixelPeriod := by
  obtain ⟨-, -, -, ⟨hpixel, -⟩, -⟩ := Cfg.valid_spec hv
  exact hpixel

theorem stride_pos {c : Cfg} (hv : c.valid) : 0 < c.stride := by
  obtain ⟨-, -, -, ⟨-, hstride⟩, -⟩ := Cfg.valid_spec hv
  exact hstride

/-- A frame has an active line (R9). -/
theorem nSlow_pos {c : Cfg} (hv : c.valid) : 0 < c.nSlow :=
  (lt_ceilDiv_iff (stride_pos hv)).2 (by rw [Nat.zero_mul]; exact (limits_pos hv).2)

/-- A line has an active slot and more (R7). -/
theorem hActive_lt_hLine {c : Cfg} (hv : c.valid) : 0 < c.hActive ∧ c.hActive < c.hLine := by
  obtain ⟨hactive, hporch, -, -, -, -, -, -, -, -, -, hline⟩ := grid_facts hv
  omega

/-- A line's pixels are in its active slot (check 5). -/
theorem pixel_in_slot {c : Cfg} (hv : c.valid) {i : Nat} (hi : i < c.nFast) :
    (i + 1) * c.pixelPeriod ≤ c.hActive := by
  obtain ⟨-, -, -, -, hactive, -⟩ := Cfg.valid_spec hv
  exact hactive ▸ Nat.mul_le_mul_right _ hi

/-- The active lines are in the frame (check 6). -/
theorem line_in_frame {c : Cfg} (hv : c.valid) {j : Nat} (hj : j < c.nSlow) :
    j * c.hLine + c.hLine ≤ c.nSlow * c.hLine ∧ c.nSlow * c.hLine ≤ c.fTicks := by
  obtain ⟨-, -, -, -, -, hlines, -⟩ := Cfg.valid_spec hv
  refine ⟨?_, Nat.mul_le_mul_right _ (by unfold Cfg.vLines; omega)⟩
  rw [← Nat.succ_mul]
  exact Nat.mul_le_mul_right _ hj

/-! ### Where an engine is in its frame and in its line (R78) -/

/-- The offset in the line is in the sync window exactly when the horizontal phase is SYNC. -/
theorem hWindow.sync_iff {c : Cfg} {off : Nat} {p : Phase} (h : hWindow c off p) :
    p = .sync ↔ c.hActive + c.hFp ≤ off ∧ off < c.hActive + c.hFp + c.hSync := by
  cases p <;> simp only [hWindow] at h <;> simp <;> omega

theorem hWindow.active_iff {c : Cfg} {off : Nat} {p : Phase} (h : hWindow c off p) :
    p = .activePixel ↔ off < c.hActive := by
  cases p <;> simp only [hWindow] at h <;> simp <;> omega

theorem vWindow.active_iff {c : Cfg} {L : Nat} {p : Phase} (h : vWindow c L p) : p = .activePixel ↔ L < c.nSlow := by
  cases p <;> simp only [vWindow] at h <;> simp <;> omega

/-- The engine of a machine in order, under the mode it is armed with. -/
theorem MachineOk.engineOk {c : Cfg} {s : State} (h : MachineOk s) (ha : s.armed = true) (hm : s.md = some c) :
    EngineOk c s := by
  obtain ⟨c', hm', hk⟩ := h.engine ha
  obtain rfl : c = c' := Option.some.inj (hm.symm.trans hm')
  exact hk

/-- FRAME_START is the last of the instants `T0`, `T0 + F_TICKS`, ..., so that it is read off CNT (R131). -/
theorem EngineOk.frame_div_mod {c : Cfg} {s : State} {T0 q : Nat} (h : EngineOk c s)
    (hq : s.frameStart = T0 + q * c.fTicks) :
    (s.cnt - T0) / c.fTicks = q ∧ (s.cnt - T0) % c.fTicks = s.cnt - s.frameStart := by
  obtain ⟨hle, hlt, -⟩ := h.inFrame
  refine (Nat.div_mod_unique (by omega)).2 ⟨?_, by omega⟩
  rw [Nat.mul_comm, hq]
  omega

/-- The horizontal axis runs on every active line. -/
theorem EngineOk.running_of_lt {c : Cfg} {s : State} (h : EngineOk c s)
    (hlt : s.cnt < s.frameStart + c.nSlow * c.hLine) : ¬ parked c s := by
  obtain ⟨hle, -, hpark, -⟩ := h.inFrame
  intro hp
  have := hpark hp
  omega

/-- `EngineOk.place` at a line and an offset known beforehand: CNT has only one of each. -/
theorem EngineOk.place_at {c : Cfg} {s : State} {L off : Nat} (h : EngineOk c s) (hrun : ¬ parked c s)
    (hcnt : s.cnt = s.frameStart + L * c.hLine + off) (hoff : off < c.hLine) :
    s.lineStart = s.frameStart + L * c.hLine ∧ hWindow c off s.hPhase ∧ vWindow c L s.vPhase ∧
      (s.hPhase = .activePixel → s.vPhase = .activePixel →
        s.slow = L * c.stride ∧ ∃ k, s.fast = k * c.stride ∧ k * c.pixelPeriod ≤ off ∧
          off < (k + 1) * c.pixelPeriod) := by
  obtain ⟨L', off', hcnt', hstart, hoff', hwin, vwin, hpix⟩ := h.place hrun
  have divMod : ∀ {M r : Nat}, s.cnt = s.frameStart + M * c.hLine + r → r < c.hLine →
      (s.cnt - s.frameStart) / c.hLine = M ∧ (s.cnt - s.frameStart) % c.hLine = r := fun hr hlt =>
    (Nat.div_mod_unique (by omega)).2 ⟨by rw [Nat.mul_comm c.hLine]; omega, hlt⟩
  obtain ⟨hdiv, hmod⟩ := divMod hcnt hoff
  obtain ⟨hdiv', hmod'⟩ := divMod hcnt' hoff'
  obtain rfl : L' = L := hdiv'.symm.trans hdiv
  obtain rfl : off' = off := hmod'.symm.trans hmod
  refine ⟨hstart, hwin, vwin, fun hh hv => ?_⟩
  obtain ⟨hslow, k, hfast, -, hk⟩ := hpix hh hv
  exact ⟨hslow, k, hfast, hk⟩

/-- An engine in order at CNT = FRAME_START has just begun its frame (R126, R144, R148). -/
theorem EngineOk.at_frameStart {c : Cfg} {s : State} (h : EngineOk c s) (h0 : s.frameStart = s.cnt) :
    s.lineStart = s.cnt ∧ s.fast = 0 ∧ s.slow = 0 ∧ s.vcnt = 0 ∧ s.hPhase = .activePixel ∧ s.vPhase = .activePixel ∧
      s.alarmH = ⟨true, s.cnt + c.pixelPeriod, .hActive⟩ ∧ s.alarmV.en = false := by
  obtain ⟨hactive, hline⟩ := hActive_lt_hLine h.valid
  have hlines := Nat.mul_pos (nSlow_pos h.valid) (show 0 < c.hLine by omega)
  have hrun := h.running_of_lt (by omega)
  obtain ⟨hstart, hwin, vwin, hpix⟩ := h.place_at (L := 0) (off := 0) hrun (by omega) (by omega)
  have hh := hwin.active_iff.2 hactive
  have hv := vwin.active_iff.2 (nSlow_pos h.valid)
  obtain ⟨hslow, k, hfast, hk, -⟩ := hpix hh hv
  obtain rfl : k = 0 :=
    (Nat.mul_eq_zero.1 (Nat.le_zero.1 hk)).resolve_right (Nat.ne_of_gt (pixelPeriod_pos h.valid))
  obtain ⟨halarm, hvoff, -⟩ := h.running hrun
  have hvcnt := h.lines
  rw [if_neg (by simp [hv])] at hvcnt
  rw [Nat.zero_mul] at hfast hslow hstart
  rw [Nat.add_zero, h0] at hstart
  exact ⟨hstart, hfast, hslow, hvcnt, hh, hv,
    by simp [halarm, hPhaseEnd, hh, hv, hfast, hstart, HandlerId.ofAxisPhase], hvoff⟩

/-- HSYNC by the offset `T` in the frame: asserted in the sync window of each line on which the horizontal axis runs
(R129). -/
theorem EngineOk.hsync_iff {c : Cfg} {s : State} {T : Nat} (h : EngineOk c s) (hT : T = s.cnt - s.frameStart) :
    s.asserted c.hsyncPin = true ↔
      (c.hActive + c.hFp ≤ T % c.hLine ∧ T % c.hLine < c.hActive + c.hFp + c.hSync) ∧
        (T / c.hLine < c.nSlow ∨ c.verticalDrive = .lineChained) := by
  obtain ⟨-, hline⟩ := hActive_lt_hLine h.valid
  obtain ⟨hle, -, hpark, -⟩ := h.inFrame
  rw [h.hsync, beq_iff_eq]
  by_cases hp : parked c s
  · obtain ⟨-, -, hback, -⟩ := h.handedOver hp
    have hlate : c.nSlow ≤ T / c.hLine := (Nat.le_div_iff_mul_le (by omega)).2 (hT ▸ hpark hp)
    simp [hback, hp.1, hlate]
  · have hcnt : s.cnt = s.frameStart + T / c.hLine * c.hLine + T % c.hLine := by
      rw [Nat.add_assoc, Nat.div_add_mod']
      omega
    obtain ⟨-, hwin, vwin, -⟩ := h.place_at hp hcnt (Nat.mod_lt _ (by omega))
    have hruns : T / c.hLine < c.nSlow ∨ c.verticalDrive = .lineChained := by
      cases hd : c.verticalDrive with
      | lineChained => exact .inr rfl
      | dedicatedTimer => exact .inl (vwin.active_iff.1 (not_not.1 fun hv => hp ⟨hd, hv⟩))
    rw [hwin.sync_iff]
    exact (and_iff_left hruns).symm

/-! ### From an arming on (R162) -/

/-- A machine in order that has been armed under mode `c` since CNT was `T0`: its frames start every F_TICKS. -/
structure ArmedSince (c : Cfg) (T0 : Nat) (s : State) : Prop where
  machine : MachineOk s
  armed : s.armed = true
  mode : s.md = some c
  frame : ∃ q, s.frameStart = T0 + q * c.fTicks

theorem ArmedSince.engine {c : Cfg} {T0 : Nat} {s : State} (h : ArmedSince c T0 s) : EngineOk c s :=
  h.machine.engineOk h.armed h.mode

/-- `SCH.ARM` of a disarmed machine runs the arm sequence (R162). -/
theorem exec_schArm {c : Cfg} {s : State} (hr : ready c s) (ha : s.armed = false) :
    exec .schArm s = .next (armEngine c s) := by
  rw [hr.run rfl, if_neg (by simp [ha])]

theorem ArmedSince.arm {c : Cfg} {z a : State} (h : MachineOk z) (hr : ready c z) (hz : z.armed = false)
    (ha : exec .schArm z = .next a) : ArmedSince c z.cnt a := by
  have ⟨hb, _, hm⟩ := hr
  have hok : MachineOk a := h.exec (fun hb' => by simp [hb] at hb') ha
  rw [exec_schArm hr hz] at ha
  cases ha
  exact ⟨hok, by simp [armEngine], by simpa [armEngine] using hm, 0, by simp [armEngine]⟩

/-- A step short of disarming: FRAME_START stays or moves by F_TICKS. -/
theorem ArmedSince.step {c : Cfg} {T0 : Nat} {s t : State} (h : ArmedSince c T0 s) (hs : Machine.step s = .next t)
    (ha : t.armed = true) : ArmedSince c T0 t := by
  obtain ⟨hm, htime⟩ := step_armed h.machine h.armed h.mode hs
  obtain ⟨q, hq⟩ := h.frame
  refine ⟨h.machine.step hs, ha, hm, ?_⟩
  rcases htime with ⟨-, hf⟩ | ⟨-, hf | hf⟩
  · exact ⟨q, hf.trans hq⟩
  · exact ⟨q, hf.trans hq⟩
  · exact ⟨q + 1, by rw [hf, hq, Nat.add_assoc, ← Nat.succ_mul]⟩

theorem ArmedSince.steps {c : Cfg} {T0 n : Nat} {s t : State} (h : ArmedSince c T0 s) (hr : stepsArmed n s t) :
    ArmedSince c T0 t := by
  induction n generalizing s with
  | zero =>
    obtain rfl := hr
    exact h
  | succ n ih =>
    obtain ⟨u, hs, ha, hr⟩ := hr
    exact ih (h.step hs ha) hr

/-! ### The pixel schedule (R130) -/

/-- The next CNT is the time of pixel `i` of active line `j` of the frame (R78). -/
def pixelAt (c : Cfg) (s : State) (i j : Nat) : Prop :=
  i < c.nFast ∧ j < c.nSlow ∧ s.cnt + 1 = s.frameStart + j * c.hLine + (i + 1) * c.pixelPeriod

/-- ALARM_H fires for a pixel at the next CNT. -/
def pixelDue (c : Cfg) (s : State) : Prop :=
  s.hPhase = .activePixel ∧ s.vPhase = .activePixel ∧ hPhaseEnd c s = s.cnt + 1

/-- The step from `s` to `t` emits the pixel under the Scan Cursor, at the time of pixel `i` of line `j` (R122). -/
structure PixelEmitted (c : Cfg) (s t : State) (i j : Nat) : Prop where
  instant : pixelAt c s i j
  pix : t.pix = cursorPixel c s
  dac : t.dac = pixelDac c (cursorPixel c s)
  trace : t.trace = s.trace ++ pixelEvents c (cursorPixel c s) (s.cnt + 1)

/-- PIX and the latches hold. -/
def pixelHeld (s t : State) : Prop := t.pix = s.pix ∧ t.dac = s.dac

/-- The step from `s` to `t` emits a pixel at a pixel's time, and holds at every other. -/
def pixelOnTime (c : Cfg) (s t : State) : Prop :=
  (∃ i j, PixelEmitted c s t i j) ∨ pixelHeld s t ∧ ∀ i j, ¬ pixelAt c s i j

/-- At the time of pixel `i` of line `j` ALARM_H fires for it, and the Scan Cursor is on it (R78, R84). -/
theorem EngineOk.at_pixel {c : Cfg} {s : State} {i j : Nat} (h : EngineOk c s) (hp : pixelAt c s i j) :
    pixelDue c s ∧ s.fast = i * c.stride ∧ s.slow = j * c.stride := by
  obtain ⟨hi, hj, ht⟩ := hp
  have hperiod := pixelPeriod_pos h.valid
  have hslot := pixel_in_slot h.valid hi
  obtain ⟨-, hline⟩ := hActive_lt_hLine h.valid
  obtain ⟨hlines, -⟩ := line_in_frame h.valid hj
  have hi1 : (i + 1) * c.pixelPeriod = i * c.pixelPeriod + c.pixelPeriod := Nat.succ_mul ..
  have hcnt : s.cnt = s.frameStart + j * c.hLine + (i * c.pixelPeriod + (c.pixelPeriod - 1)) := by omega
  obtain ⟨hstart, hwin, vwin, hpix⟩ := h.place_at (h.running_of_lt (by omega)) hcnt (by omega)
  have hh := hwin.active_iff.2 (by omega)
  have hv := vwin.active_iff.2 hj
  obtain ⟨hslow, k, hfast, hk, hk'⟩ := hpix hh hv
  obtain rfl : k = i := by
    have hki : k < i + 1 := Nat.lt_of_mul_lt_mul_right (a := c.pixelPeriod) (by omega)
    have hik : i < k + 1 := Nat.lt_of_mul_lt_mul_right (a := c.pixelPeriod) (by omega)
    omega
  refine ⟨⟨hh, hv, ?_⟩, hfast, hslow⟩
  have hdiv : s.fast / c.stride = k := by rw [hfast, Nat.mul_div_cancel _ (stride_pos h.valid)]
  simp only [hPhaseEnd, hh, hv, if_true, hdiv]
  omega

/-- Of all that a tick can be, the two pixel ticks emit, and no other happens when a pixel is due. -/
theorem TickForm.pixel_cases {c : Cfg} {s t : State} (h : TickForm c s t) :
    (∃ i j, PixelEmitted c s t i j) ∨ pixelHeld s t ∧ ¬ pixelDue c s := by
  cases h with
  | pixel k L _ _ _ _ ht hn hs | lastPixel k L _ _ _ _ ht hn hs =>
    exact .inl ⟨k, L, ⟨by omega, hs, ht⟩, rfl, rfl, rfl⟩
  | pass hh => exact .inr ⟨⟨rfl, rfl⟩, fun ⟨_, hv, hend⟩ => hh (fun hp => hp.2 hv) hend.symm⟩
  | blankEnd _ hv => exact .inr ⟨⟨rfl, rfl⟩, fun ⟨_, hv', _⟩ => hv hv'⟩
  | vPorch hp | vSync hp => exact .inr ⟨⟨rfl, rfl⟩, fun ⟨_, hv, _⟩ => hp.2 hv⟩
  | porch hh | sync hh | line hh | park hh | frame hh =>
    exact .inr ⟨⟨rfl, rfl⟩, fun ⟨hh', _⟩ => by simp [hh] at hh'⟩
  | blank n p u hh _ _ _ hc =>
    refine .inr ⟨?_, fun ⟨hh', _⟩ => by simp [hh] at hh'⟩
    rcases hc with ⟨-, -, -, rfl⟩ | ⟨-, -, rfl⟩ | ⟨-, -, rfl⟩ | ⟨-, rfl⟩ <;> exact ⟨rfl, rfl⟩

theorem EngineOk.tick_pixelOnTime {c : Cfg} {s : State} (h : EngineOk c s) (ha : s.armed = true)
    (hm : s.md = some c) : pixelOnTime c s (tick s) :=
  (h.tickForm ha hm).pixel_cases.imp_right fun ⟨hheld, hno⟩ => ⟨hheld, fun _ _ hp => hno (h.at_pixel hp).1⟩

/-- While armed, no operation issued between steps but a tick writes PIX or a latch: the pixel outputs and the handlers
are the interrupt context's (R80). -/
theorem exec_pixelHeld_armed {i : Instr} {s t : State} (h : MachineOk s) (ha : s.armed = true)
    (hi : s.busy = true → i = .schTick) (hne : i ≠ .schTick) (ht : exec i s = .next t) : pixelHeld s t := by
  have free : ∀ {q : Prop}, s.busy = true → q := fun hb => absurd (hi hb) hne
  have armed : ∀ {q : Prop}, s.armed = false → q := fun hd => by simp [ha] at hd
  have direct : ∀ {q : Prop} {c : Cfg}, primitiveReady c s → q := fun hr => hr.1.elim free armed
  refine exec_ind (P := pixelHeld s) ?_ ht
  constructor
  all_goals intros
  case handler hb => exact free hb
  case ticked hx => exact absurd hx hne
  case dispatched a _ hdue => simp [h.notDue a] at hdue
  case configured hd _ => exact armed hd
  case armed hd => exact armed hd
  case latchedOn hr => exact direct hr
  case channel hr => exact direct hr
  case pixel hr => exact direct hr
  all_goals simp [pixelHeld]

/-- The issuer's bookkeeping is no part of what is emitted. -/
theorem sameMachine.pixelOnTime {c : Cfg} {s t u : State} (e : sameMachine s u) (h : pixelOnTime c u t) :
    Machine.pixelOnTime c s t := by
  unfold sameMachine at e
  rw [e] at h
  exact h.imp_left fun ⟨i, j, hp⟩ => ⟨i, j, hp.instant, hp.pix, hp.dac, hp.trace⟩

theorem sameMachine.pixelHeld {s t u : State} (e : sameMachine s u) (h : pixelHeld u t) : Machine.pixelHeld s t := by
  unfold sameMachine at e
  rw [e] at h
  exact h

/-- A step of an armed machine in order is a tick, or leaves CNT, PIX and the latches. -/
theorem MachineOk.step_pixel {c : Cfg} {s t : State} (h : MachineOk s) (ha : s.armed = true) (hm : s.md = some c)
    (hs : Machine.step s = .next t) :
    t.cnt = s.cnt + 1 ∧ pixelOnTime c s t ∨ t.cnt = s.cnt ∧ pixelHeld s t := by
  rcases step_cases hs with ⟨i, u, hu, ht, hi⟩ | ⟨hu, -⟩
  · have hok := hu.machineOk h
    obtain ⟨eArmed, eCnt, -⟩ := hu.swapRegisters
    rw [← eArmed] at ha
    rw [← hu.md] at hm
    rw [← eCnt]
    by_cases hne : i = .schTick
    · subst hne
      cases ht
      exact .inl ⟨tick_cnt u, hu.pixelOnTime ((hok.engineOk ha hm).tick_pixelOnTime ha hm)⟩
    · exact .inr ⟨(follows_exec hne ht).1,
        hu.pixelHeld (exec_pixelHeld_armed hok ha (fun hb => hi (hu.busy ▸ hb)) hne ht)⟩
  · obtain ⟨-, eCnt, -⟩ := hu.swapRegisters
    exact .inr ⟨eCnt, hu.pixelHeld ⟨rfl, rfl⟩⟩

/-- The pixels' times of an armed run, counted from the arming (R130). -/
theorem ArmedSince.pixelAt_iff {c : Cfg} {T0 : Nat} {s : State} (h : ArmedSince c T0 s) (i j : Nat) :
    pixelAt c s i j ↔ i < c.nFast ∧ j < c.nSlow ∧
      ∃ m, s.cnt + 1 = T0 + m * c.fTicks + j * c.hLine + (i + 1) * c.pixelPeriod := by
  obtain ⟨q, hq⟩ := h.frame
  refine and_congr_right fun hi => and_congr_right fun hj => ⟨fun ht => ⟨q, hq ▸ ht⟩, fun ⟨m, ht⟩ => ?_⟩
  have hv := h.engine.valid
  have hslot := pixel_in_slot hv hi
  obtain ⟨-, hline⟩ := hActive_lt_hLine hv
  obtain ⟨hlines, hframe⟩ := line_in_frame hv hj
  have hpos : 0 < (i + 1) * c.pixelPeriod := Nat.mul_pos (Nat.succ_pos i) (pixelPeriod_pos hv)
  have hframes : (s.cnt - T0) / c.fTicks = m ∧
      (s.cnt - T0) % c.fTicks = j * c.hLine + (i + 1) * c.pixelPeriod - 1 :=
    (Nat.div_mod_unique (by omega)).2 ⟨by rw [Nat.mul_comm c.fTicks]; omega, by omega⟩
  obtain rfl : q = m := (h.engine.frame_div_mod hq).1.symm.trans hframes.1
  rw [hq, ht]

/-- `coord` as R77 writes it. -/
theorem coord_eq (c : Cfg) (f s : Nat) : coord c f s = if c.scanOrder = .rowMajor then (f, s) else (s, f) := by
  unfold coord
  cases c.scanOrder <;> rfl

/-- The pixel under the Scan Cursor, by the slot of R52. -/
theorem cursorPixel_eq {c : Cfg} {s : State} {x y : Nat} (h : coord c s.fast s.slow = (x, y)) :
    cursorPixel c s = readPixel s (c.doubleBuffer && s.front) (y * c.w + x) := by
  rw [cursorPixel, h]
  rfl

/-! ### The horizontal handlers, by case (R121 to R126) -/

/-- A horizontal handler outside its phase is refused (R204). -/
theorem badOp_of_hPhase {i : Instr} {s : State} {p : Phase} {k : Cfg → State}
    (h : exec i s = .next (handlerOp s (s.hPhase == p) k)) (hno : ¬ (s.busy = true ∧ s.armed = true ∧ s.hPhase = p)) :
    exec i s = .next (refusedWith .badOp s) :=
  h.trans (congrArg Host.Outcome.next (handlerOp_badOp beq_iff_eq k hno))

/-- In its phase it runs its body. -/
theorem handlerReady.run_hPhase {i : Instr} {c : Cfg} {s : State} {p : Phase} {k : Cfg → State}
    (hr : handlerReady c s) (hp : s.hPhase = p) (h : exec i s = .next (handlerOp s (s.hPhase == p) k)) :
    exec i s = .next (k c) :=
  h.trans (congrArg Host.Outcome.next (hr.run (beq_iff_eq.2 hp) k))

/-- Under PHASE_CHAINED a blanking handler ends with a SETALARM (R168). -/
theorem chain_phaseChained {c : Cfg} (hst : c.strategy = .phaseChained) (a : Axis) (d th : Nat) (h : HandlerId)
    (s : State) : chain c a d th h s = setAlarm a d h s := by
  simp [chain, hst]

/-- The end of an active slot (R122, R168). -/
theorem endActiveSlot_eq {c : Cfg} (hv : c.valid) (hst : c.strategy = .phaseChained) (s : State) :
    endActiveSlot c s = { s with hPhase := .frontPorch, alarmH := ⟨true, s.cnt + c.hFp, .hFp⟩ } := by
  obtain ⟨-, hFp, -⟩ := grid_facts hv
  obtain ⟨-, hok, -⟩ := setalarmOk_of_pos hFp
  rw [endActiveSlot, chain_phaseChained hst, setAlarm_ok hok]
  rfl

/-- The cursor advanced within its line (R121). -/
theorem advanceCursor_more {c : Cfg} (hv : c.valid) {s : State} (hf : s.fast + c.stride < c.fastLimit) :
    advanceCursor c s
      = { s with fast := s.fast + c.stride, alarmH := ⟨true, s.cnt + c.pixelPeriod, .hActive⟩ } := by
  obtain ⟨hok, -⟩ := setalarmOk_of_pos (pixelPeriod_pos hv)
  rw [advanceCursor, if_neg (by omega), setAlarm_ok hok]
  rfl

/-- The cursor advanced past its line's end: it wraps, by comparison (R83, R121). -/
theorem advanceCursor_last {c : Cfg} (hv : c.valid) (hst : c.strategy = .phaseChained) {s : State}
    (hf : c.fastLimit ≤ s.fast + c.stride) :
    advanceCursor c s
      = { s with
          fast := 0, slow := if c.slowLimit ≤ s.slow + c.stride then 0 else s.slow + c.stride,
          hPhase := .frontPorch, alarmH := ⟨true, s.cnt + c.hFp, .hFp⟩ } := by
  rw [advanceCursor, if_pos hf, endActiveSlot_eq hv hst]

/-- The part of `H.ACTIVE` that is not the cursor's: the pixel under a cursor in range, fetched and emitted (R122). -/
def emitInRange (c : Cfg) (s : State) : State :=
  if s.fast < c.fastLimit ∧ s.slow < c.slowLimit then fetchAndEmit c s else s

theorem emitInRange_frame (c : Cfg) (s : State) :
    (emitInRange c s).fast = s.fast ∧ (emitInRange c s).slow = s.slow ∧ (emitInRange c s).cnt = s.cnt := by
  unfold emitInRange
  split <;> simp

/-- Fetching and emitting is a `PO.EMITPIXEL` of the pixel under the cursor, once it is in PIX (R121 item 2). -/
theorem exec_poEmitpixel_fetched {c : Cfg} {s : State} (hr : handlerReady c s) :
    exec (.poEmitpixel (cursorPixel c s)) { s with pix := cursorPixel c s } = .next (fetchAndEmit c s) := by
  obtain ⟨hb, -, hm, -⟩ := hr
  exact exec_poEmitpixel (s := { s with pix := cursorPixel c s }) ⟨.inl hb, hm⟩ _

/-- `H.ACTIVE` (R122). -/
theorem exec_hActive {c : Cfg} {s : State} (hr : handlerReady c s) (hh : s.hPhase = .activePixel) :
    exec .hActive s
      = .next (if s.vPhase = .activePixel then advanceCursor c (emitInRange c s) else endActiveSlot c s) :=
  (hr.run_hPhase hh rfl).trans (congrArg Host.Outcome.next (ite_not ..))

/-- `H.FP` (R123, R168). -/
theorem exec_hFp {c : Cfg} {s : State} (hr : handlerReady c s) (hst : c.strategy = .phaseChained)
    (hh : s.hPhase = .frontPorch) :
    exec .hFp s
      = .next (pinSetOp [c.hsyncPin]
          { s with hPhase := .sync, alarmH := ⟨true, s.cnt + c.hSync, .hSync⟩ }) := by
  have ⟨_, _, _, hv⟩ := hr
  obtain ⟨-, -, hSync, -⟩ := grid_facts hv
  obtain ⟨-, -, hok, -⟩ := setalarmOk_of_pos hSync
  rw [hr.run_hPhase hh rfl, chain_phaseChained hst, setAlarm_ok hok]
  rfl

/-- `H.SYNC` (R124, R168). -/
theorem exec_hSync {c : Cfg} {s : State} (hr : handlerReady c s) (hst : c.strategy = .phaseChained)
    (hh : s.hPhase = .sync) :
    exec .hSync s
      = .next { pinClearOp [c.hsyncPin] s with
          hPhase := .backPorch, alarmH := ⟨true, s.cnt + c.hBp, .hBp⟩ } := by
  have ⟨_, _, _, hv⟩ := hr
  obtain ⟨-, -, -, hBp, -⟩ := grid_facts hv
  obtain ⟨-, -, -, hok, -⟩ := setalarmOk_of_pos hBp
  rw [hr.run_hPhase hh rfl, chain_phaseChained hst, setAlarm_ok hok]
  rfl

/-- `H.BP` under DEDICATED_TIMER (R125, R146). -/
theorem exec_hBp_timer {c : Cfg} {s : State} (hr : handlerReady c s) (hh : s.hPhase = .backPorch)
    (hd : c.verticalDrive = .dedicatedTimer) :
    exec .hBp s = .next (if s.slow = 0 then vEnterOp s else startActiveLine c s) := by
  rw [hr.run_hPhase hh rfl]
  simp [hd]

/-- `H.BP` at the end of an active line under LINE_CHAINED (R125). -/
theorem exec_hBp_active {c : Cfg} {s : State} (hr : handlerReady c s) (hh : s.hPhase = .backPorch)
    (hd : c.verticalDrive = .lineChained) (hv : s.vPhase = .activePixel) :
    exec .hBp s = .next (if s.slow = 0 then startBlankLine c (vEnterOp s) else startActiveLine c s) := by
  rw [hr.run_hPhase hh rfl]
  simp [hd, hv]

/-- `H.BP` at the end of a blank line under LINE_CHAINED (R125, R145). -/
theorem exec_hBp_blank {c : Cfg} {s : State} (hr : handlerReady c s) (hh : s.hPhase = .backPorch)
    (hd : c.verticalDrive = .lineChained) (hv : s.vPhase ≠ .activePixel) :
    exec .hBp s = .next (blankLineDone c s) := by
  rw [hr.run_hPhase hh rfl]
  simp [hd, hv]

/-- A blank line that is not the last of its vertical phase (R125, R145). -/
theorem blankLineDone_more {c : Cfg} {s : State} (hn : 2 ≤ s.vcnt) :
    blankLineDone c s = startBlankLine c { s with vcnt := s.vcnt - 1 } := by
  rw [blankLineDone]
  exact if_pos (Nat.sub_pos_of_lt hn)

/-- The last blank line of the vertical front porch (R125, R142). -/
theorem blankLineDone_frontPorch {c : Cfg} {s : State} (hn : s.vcnt = 1) (hv : s.vPhase = .frontPorch) :
    blankLineDone c s = startBlankLine c (vFpOp { s with vcnt := 0 }) := by
  simp [blankLineDone, hn, hv]

/-- The last blank line of vertical sync (R125, R143). -/
theorem blankLineDone_sync {c : Cfg} {s : State} (hn : s.vcnt = 1) (hv : s.vPhase = .sync) :
    blankLineDone c s = startBlankLine c (vSyncOp { s with vcnt := 0 }) := by
  simp [blankLineDone, hn, hv]

/-- The last blank line of the frame (R125, R144). -/
theorem blankLineDone_backPorch {c : Cfg} {s : State} (hn : s.vcnt = 1) (hv : s.vPhase = .backPorch) :
    blankLineDone c s = vBpOp { s with vcnt := 0 } := by
  simp [blankLineDone, hn, hv]

/-- A blank line begun after an operation that leaves CNT (R126). -/
theorem startBlankLine_at {c : Cfg} (hv : c.valid) {s u : State} (hc : u.cnt = s.cnt) :
    startBlankLine c u
      = { u with hPhase := .activePixel, lineStart := s.cnt, alarmH := ⟨true, s.cnt + c.hActive, .hActive⟩ } := by
  obtain ⟨hactive, -⟩ := hActive_lt_hLine hv
  rw [startBlankLine_eq hactive, hc]

end Sys2Proof.Machine

open Sys2Proof Sys2Proof.Machine

/-- Settles O51: along a run from an arming the frames start every F_TICKS, and in its frame the engine drives HSYNC by
its offset. -/
theorem hsyncWaveform : Obligations.HsyncWaveform := by
  unfold Obligations.HsyncWaveform
  intro c s a t n T h hr hs ha hrun hT
  have since := (ArmedSince.arm h hr hs ha).steps hrun
  obtain ⟨q, hq⟩ := since.frame
  obtain ⟨-, hmod⟩ := since.engine.frame_div_mod hq
  exact since.engine.hsync_iff (hT.trans hmod)

/-- Settles O53: the pixels' times are counted from the arming; at one of them the tick emits the pixel under the Scan
Cursor, which is on the scheduled one, and every other step holds. -/
theorem pixelSchedule : Obligations.PixelSchedule := by
  unfold Obligations.PixelSchedule
  intro c z a s t n h hr hz ha hrun hs
  have since := (ArmedSince.arm h hr hz ha).steps hrun
  have hstep := since.machine.step_pixel since.armed since.mode hs
  refine ⟨fun m i j x y p hi hj hcnt ht hxy hp => ?_, fun hno => ?_⟩
  · have hat : pixelAt c s i j := (since.pixelAt_iff i j).2 ⟨hi, hj, m, hcnt ▸ ht⟩
    obtain ⟨-, hfast, hslow⟩ := since.engine.at_pixel hat
    have hxy' : coord c s.fast s.slow = (x, y) := by rw [hfast, hslow, coord_eq, hxy]
    have hpixel : cursorPixel c s = p := (cursorPixel_eq hxy').trans hp.symm
    obtain ⟨hf, hs⟩ := since.engine.cursor
    have hin := coord_inRange hf hs
    rw [hxy'] at hin
    obtain ⟨hx, hy⟩ : x < c.w ∧ y < c.h := of_decide_eq_true hin
    rcases hstep with ⟨-, ⟨i', j', he⟩ | ⟨-, hno⟩⟩ | ⟨hcnt', -⟩
    · exact ⟨hx, hy, he.pix.trans hpixel, he.dac.trans (congrArg (pixelDac c) hpixel), _, he.trace,
        pixelEvents_length ..⟩
    · exact absurd hat (hno i j)
    · omega
  · rcases hstep with ⟨hcnt, ⟨i, j, he⟩ | ⟨hheld, -⟩⟩ | ⟨-, hheld⟩
    · obtain ⟨hi, hj, m, ht⟩ := (since.pixelAt_iff i j).1 he.instant
      exact absurd (hcnt.trans ht) (hno.resolve_left (by omega) m i j hi hj)
    · exact hheld
    · exact hheld

/-- Settles O54: after `n` ticks FRAME_START has moved by `n / F_TICKS` frames, and an engine at its FRAME_START has just
begun the frame. -/
theorem framePeriod : Obligations.FramePeriod := by
  unfold Obligations.FramePeriod
  intro c s h ha hm h0
  have frames : ∀ n t, runTicks n s = .next t →
      EngineOk c t ∧ t.cnt = s.cnt + n ∧ t.frameStart = s.cnt + n / c.fTicks * c.fTicks := by
    intro n t ht
    obtain ⟨hok, ha', hm', hcnt, q, hq⟩ := runTicks_inv n h ha hm ht
    have hk := hok.engineOk ha' hm'
    rw [h0] at hq
    obtain ⟨hdiv, -⟩ := hk.frame_div_mod hq
    rw [hcnt, Nat.add_sub_cancel_left] at hdiv
    exact ⟨hk, hcnt, hdiv ▸ hq⟩
  obtain ⟨t, ht⟩ := runTicks_next c.fTicks s
  obtain ⟨hk, hcnt, hq⟩ := frames _ t ht
  have hpos : 0 < c.fTicks := by
    obtain ⟨hle, hlt, -⟩ := hk.inFrame
    omega
  have hstart : t.frameStart = t.cnt := by rw [hq, hcnt, Nat.div_self hpos, Nat.one_mul]
  obtain ⟨hline, hfast, hslow, hvcnt, hh, hv, halarm, hvoff⟩ := hk.at_frameStart hstart
  refine ⟨t, ht, hcnt, hstart, hline, hfast, hslow, hvcnt, hh, hv, halarm, hvoff, fun n u h1 hn hu => ?_⟩
  obtain ⟨-, hcnt', hq'⟩ := frames n u hu
  rw [Nat.div_eq_of_lt hn] at hq'
  omega

/-- Settles O13: the pixel under a cursor in range is emitted, then the cursor advances. -/
theorem hActiveEmitsAndAdvances : Obligations.HActiveEmitsAndAdvances := by
  unfold Obligations.HActiveEmitsAndAdvances
  intro s
  refine ⟨rfl, badOp_of_hPhase rfl, fun c x y p hr hst hh hxy hp => ?_⟩
  have ⟨_, _, _, hv⟩ := hr
  obtain ⟨efast, eslow, ecnt⟩ := emitInRange_frame c s
  rw [exec_hActive hr hh]
  refine ⟨fun hvp => ?_, fun hvp => ⟨emitInRange c s, ?_, fun hf => ?_, fun hf => ?_⟩⟩
  · rw [if_neg hvp, endActiveSlot_eq hv hst]
  · obtain rfl : p = cursorPixel c s := hp.trans (cursorPixel_eq ((coord_eq ..).trans hxy.symm)).symm
    rw [emitInRange]
    split
    · exact exec_poEmitpixel_fetched hr
    · rfl
  · rw [if_pos hvp, advanceCursor_more hv (by rwa [efast]), efast, ecnt]
  · rw [if_pos hvp, advanceCursor_last hv hst (by rwa [efast]), eslow, ecnt]

/-- Settles O16: each clause is one way through `H.BP`, and a line begins at the CNT its transition body left. -/
theorem hBpEndsLine : Obligations.HBpEndsLine := by
  unfold Obligations.HBpEndsLine
  intro s
  refine ⟨rfl, badOp_of_hPhase rfl, fun c hr hh => ?_⟩
  have ⟨_, _, _, hv⟩ := hr
  refine ⟨fun hd hs => ?_, fun hd hs => ?_, fun hd hvp hs => ?_, fun hd hvp hn => ?_, fun hd hn => ?_⟩
  · rw [← startActiveLine_eq (pixelPeriod_pos hv)]
    cases hdrive : c.verticalDrive with
    | dedicatedTimer => rw [exec_hBp_timer hr hh hdrive, if_neg hs]
    | lineChained => rw [exec_hBp_active hr hh hdrive (hd.resolve_left (by simp [hdrive])), if_neg hs]
  · rw [exec_hBp_timer hr hh hd, if_pos hs]
    rfl
  · refine ⟨vEnterOp s, rfl, ?_⟩
    rw [exec_hBp_active hr hh hd hvp, if_pos hs, startBlankLine_at hv (vEnterOp_cnt s)]
  · rw [exec_hBp_blank hr hh hd hvp, blankLineDone_more hn]
    exact congrArg Host.Outcome.next (startBlankLine_at hv rfl)
  · have done : s.vPhase ≠ .activePixel → exec .hBp s = .next (blankLineDone c s) := exec_hBp_blank hr hh hd
    refine ⟨fun hvp => ⟨_, rfl, ?_⟩, fun hvp => ⟨_, rfl, ?_⟩, fun hvp => ?_⟩
    · rw [done (by simp [hvp]), blankLineDone_frontPorch hn hvp]
      exact congrArg Host.Outcome.next (startBlankLine_at hv (vFpOp_cnt _))
    · rw [done (by simp [hvp]), blankLineDone_sync hn hvp]
      exact congrArg Host.Outcome.next (startBlankLine_at hv (vSyncOp_cnt _))
    · rw [done (by simp [hvp]), blankLineDone_backPorch hn hvp]
      rfl

/-- Settles O14: the SETALARM of `H.FP`, then one PinSet. -/
theorem hFpAssertsHsync : Obligations.HFpAssertsHsync := by
  unfold Obligations.HFpAssertsHsync
  intro s
  refine ⟨rfl, badOp_of_hPhase rfl, fun c hr hst hh => ⟨_, exec_hFp hr hst hh, fun p => ?_, rfl⟩⟩
  change (pinSetOp [c.hsyncPin] s).asserted p = true ↔ _
  simp [or_comm]

/-- Settles O15: one PinClear, then the SETALARM of `H.SYNC`. -/
theorem hSyncDeassertsHsync : Obligations.HSyncDeassertsHsync := by
  unfold Obligations.HSyncDeassertsHsync
  intro s
  refine ⟨rfl, badOp_of_hPhase rfl, fun c hr hst hh => ⟨_, exec_hSync hr hst hh, fun p => ?_, rfl⟩⟩
  change (pinClearOp [c.hsyncPin] s).asserted p = true ↔ _
  simp

end

section
/-! PROOFS. The statements of `43_vertical_timing.md`: the VSYNC waveform and the vertical phase from an arming on, and
what each vertical handler refuses, times and drives. -/

namespace Sys2Proof.Machine

/-! ### The vertical phase by the offset in the frame (R78, R147) -/

/-- The instants of line `L` are before line `b` exactly when `L` is. -/
theorem before_line_iff {width L T b : Nat} (hle : L * width ≤ T) (hlt : T < (L + 1) * width) :
    T < b * width ↔ L < b :=
  ⟨fun h => Nat.lt_of_mul_lt_mul_right (hle.trans_lt h), fun h => hlt.trans_le (Nat.mul_le_mul_right _ h)⟩

/-- The vertical phase is the one whose window the line is in. -/
theorem vWindow.phase_eq {c : Cfg} {L : Nat} {p : Phase} (h : vWindow c L p) :
    p = if L < c.nSlow then .activePixel
      else if L < c.nSlow + c.vFp then .frontPorch
      else if L < c.nSlow + c.vFp + c.vSync then .sync
      else .backPorch := by
  cases p with
  | activePixel => exact (if_pos h).symm
  | frontPorch =>
    obtain ⟨hle, hlt⟩ := h
    rw [if_neg (by omega), if_pos hlt]
  | sync =>
    obtain ⟨hle, hlt⟩ := h
    rw [if_neg (by omega), if_neg (by omega), if_pos hlt]
  | backPorch =>
    obtain ⟨hle, -⟩ := h
    rw [if_neg (by omega), if_neg (by omega), if_neg (by omega)]

/-- The line is in the vertical sync window exactly when the vertical phase is SYNC. -/
theorem vWindow.sync_iff {c : Cfg} {L : Nat} {p : Phase} (h : vWindow c L p) :
    p = .sync ↔ c.nSlow + c.vFp ≤ L ∧ L < c.nSlow + c.vFp + c.vSync := by
  cases p <;> simp only [vWindow] at h <;> simp <;> omega

/-- VSYNC and the vertical phase by the offset `T` in the frame, under both drives (R147). -/
theorem EngineOk.vertical_at {c : Cfg} {s : State} {T : Nat} (h : EngineOk c s) (hT : T = s.cnt - s.frameStart) :
    (s.asserted c.vsyncPin = true ↔
        (c.nSlow + c.vFp) * c.hLine ≤ T ∧ T < (c.nSlow + c.vFp + c.vSync) * c.hLine) ∧
      s.vPhase
        = if T < c.nSlow * c.hLine then .activePixel
          else if T < (c.nSlow + c.vFp) * c.hLine then .frontPorch
          else if T < (c.nSlow + c.vFp + c.vSync) * c.hLine then .sync
          else .backPorch := by
  obtain ⟨-, -, -, L, hwin, hle, hlt⟩ := h.inFrame
  rw [← hT] at hle hlt
  have hbefore : ∀ b, T < b * c.hLine ↔ L < b := fun _ => before_line_iff hle hlt
  rw [h.vsync, beq_iff_eq, ← not_lt]
  simp only [hbefore, not_lt]
  exact ⟨hwin.sync_iff, hwin.phase_eq⟩

/-! ### The vertical handlers, by case (R141 to R146) -/

/-- A handler without its precondition is refused (R204). -/
theorem badOp_of_precondition {i : Instr} {s : State} {pre : Bool} {P : Prop} {k : Cfg → State} (hP : pre = true ↔ P)
    (h : exec i s = .next (handlerOp s pre k)) (hno : ¬ (s.busy = true ∧ s.armed = true ∧ P)) :
    exec i s = .next (refusedWith .badOp s) :=
  h.trans (congrArg Host.Outcome.next (handlerOp_badOp hP k hno))

/-- In its phase a vertical handler runs its body. -/
theorem handlerReady.run_vPhase {i : Instr} {c : Cfg} {s : State} {p : Phase} {k : Cfg → State}
    (hr : handlerReady c s) (hp : s.vPhase = p) (h : exec i s = .next (handlerOp s (s.vPhase == p) k)) :
    exec i s = .next (k c) :=
  h.trans (congrArg Host.Outcome.next (hr.run (beq_iff_eq.2 hp) k))

/-- The precondition of `V.ENTER` on the phase and the cursor (R141). -/
theorem vEnter_precondition_iff (s : State) :
    (s.vPhase == .activePixel && s.slow == 0) = true ↔ s.vPhase = .activePixel ∧ s.slow = 0 := by
  simp

/-- Under LINE_CHAINED a vertical phase is timed by VCNT (R145). -/
theorem timeVertical_lineChained {c : Cfg} (hd : c.verticalDrive = .lineChained) (n th : Nat) (h : HandlerId)
    (s : State) : timeVertical c n th h s = { s with vcnt := n } := by
  simp [timeVertical, hd]

/-- Under DEDICATED_TIMER with PHASE_CHAINED it is timed by a SETALARM of ALARM_V (R146, R168). -/
theorem timeVertical_dedicatedTimer {c : Cfg} {n : Nat} {h : HandlerId} (hd : c.verticalDrive = .dedicatedTimer)
    (hst : c.strategy = .phaseChained) (hok : setalarmOk .V (n * c.hLine) h = true) (th : Nat) (s : State) :
    timeVertical c n th h s = { s with alarmV := ⟨true, s.cnt + n * c.hLine, h⟩ } := by
  simp only [timeVertical, hd]
  rw [chain_phaseChained hst, setAlarm_ok hok]
  rfl

/-- The durations of the vertical handlers are positive, so that their SETALARMs are legal (R165, R202). -/
theorem setalarmOk_vertical {c : Cfg} (hv : c.valid) :
    setalarmOk .V (c.vFp * c.hLine) .vFp = true ∧ setalarmOk .V (c.vSync * c.hLine) .vSync = true ∧
      setalarmOk .V (c.vBp * c.hLine) .vBp = true := by
  obtain ⟨-, -, -, -, hFp, hSync, hBp, -⟩ := grid_facts hv
  obtain ⟨hactive, hlt⟩ := hActive_lt_hLine hv
  have hline : 0 < c.hLine := hactive.trans hlt
  obtain ⟨-, -, -, -, okFp, -, -⟩ := setalarmOk_of_pos (Nat.mul_pos hFp hline)
  obtain ⟨-, -, -, -, -, okSync, -⟩ := setalarmOk_of_pos (Nat.mul_pos hSync hline)
  obtain ⟨-, -, -, -, -, -, okBp⟩ := setalarmOk_of_pos (Nat.mul_pos hBp hline)
  exact ⟨okFp, okSync, okBp⟩

/-- `V.ENTER` (R141). -/
theorem exec_vEnter {c : Cfg} {s : State} (hr : handlerReady c s) (hv : s.vPhase = .activePixel) (hs : s.slow = 0) :
    exec .vEnter s = .next (timeVertical c c.vFp (vFpEnd c s) .vFp { s with vPhase := .frontPorch }) :=
  congrArg Host.Outcome.next (hr.run ((vEnter_precondition_iff s).2 ⟨hv, hs⟩) _)

/-- `V.FP` (R142). -/
theorem exec_vFp {c : Cfg} {s : State} (hr : handlerReady c s) (hv : s.vPhase = .frontPorch) :
    exec .vFp s
      = .next (pinSetOp [c.vsyncPin] (timeVertical c c.vSync (vSyncEnd c s) .vSync { s with vPhase := .sync })) := by
  rw [hr.run_vPhase hv rfl]

/-- `V.SYNC` (R143). -/
theorem exec_vSync {c : Cfg} {s : State} (hr : handlerReady c s) (hv : s.vPhase = .sync) :
    exec .vSync s
      = .next (timeVertical c c.vBp (vFrameEnd c s) .vBp
          { pinClearOp [c.vsyncPin] s with vPhase := .backPorch }) := by
  rw [hr.run_vPhase hv rfl]

/-- Timing a vertical phase writes no pin. -/
@[simp] theorem asserted_timeVertical (c : Cfg) (n th : Nat) (h : HandlerId) (s : State) (p : Nat) :
    (timeVertical c n th h s).asserted p = s.asserted p := by
  simp [State.asserted]

end Sys2Proof.Machine

open Sys2Proof Sys2Proof.Machine

/-- Settles O52: along a run from an arming the frames start every F_TICKS, and in its frame the engine is in the
vertical phase of its line, which drives VSYNC. -/
theorem vsyncWaveform : Obligations.VsyncWaveform := by
  unfold Obligations.VsyncWaveform
  intro c s a t n T h hr hs ha hrun hT
  have since := (ArmedSince.arm h hr hs ha).steps hrun
  obtain ⟨q, hq⟩ := since.frame
  obtain ⟨-, hmod⟩ := since.engine.frame_div_mod hq
  exact since.engine.vertical_at (hT.trans hmod)

/-- Settles O17: the phase, and its time by either drive. -/
theorem vEnterBeginsFrontPorch : Obligations.VEnterBeginsFrontPorch := by
  unfold Obligations.VEnterBeginsFrontPorch
  intro s
  refine ⟨rfl, badOp_of_precondition (vEnter_precondition_iff s) rfl, fun c hr hv hs =>
    ⟨fun hd => ?_, fun hd hst => ?_⟩⟩
  · rw [exec_vEnter hr hv hs, timeVertical_lineChained hd]
  · have ⟨_, _, _, hvalid⟩ := hr
    obtain ⟨hok, -, -⟩ := setalarmOk_vertical hvalid
    rw [exec_vEnter hr hv hs, timeVertical_dedicatedTimer hd hst hok]

/-- Settles O18: the phase and its time by either drive, then one PinSet. -/
theorem vFpAssertsVsync : Obligations.VFpAssertsVsync := by
  unfold Obligations.VFpAssertsVsync
  intro s
  refine ⟨rfl, badOp_of_precondition beq_iff_eq rfl, fun c hr hv hdrive =>
    ⟨_, exec_vFp hr hv, fun p => ?_, fun hd => ?_, fun hd => ?_⟩⟩
  · rw [asserted_pinSetOp, asserted_timeVertical]
    change ([c.vsyncPin].contains p || s.asserted p) = true ↔ _
    simp [or_comm]
  · rw [timeVertical_lineChained hd]
    rfl
  · have ⟨_, _, _, hvalid⟩ := hr
    obtain ⟨-, hok, -⟩ := setalarmOk_vertical hvalid
    rw [timeVertical_dedicatedTimer hd (hdrive.resolve_left (by simp [hd])) hok]
    rfl

/-- Settles O19: one PinClear, then the phase and its time by either drive. -/
theorem vSyncDeassertsVsync : Obligations.VSyncDeassertsVsync := by
  unfold Obligations.VSyncDeassertsVsync
  intro s
  refine ⟨rfl, badOp_of_precondition beq_iff_eq rfl, fun c hr hv hdrive =>
    ⟨_, exec_vSync hr hv, fun p => ?_, fun hd => ?_, fun hd => ?_⟩⟩
  · rw [asserted_timeVertical]
    change (pinClearOp [c.vsyncPin] s).asserted p = true ↔ _
    simp
  · rw [timeVertical_lineChained hd]
    rfl
  · have ⟨_, _, _, hvalid⟩ := hr
    obtain ⟨-, -, hok⟩ := setalarmOk_vertical hvalid
    rw [timeVertical_dedicatedTimer hd (hdrive.resolve_left (by simp [hd])) hok]
    rfl

/-- Settles O20: the frame start of `V.BP`, with FRONT and SWAP_REQ written out. -/
theorem vBpStartsFrame : Obligations.VBpStartsFrame := by
  unfold Obligations.VBpStartsFrame
  intro s
  refine ⟨rfl, badOp_of_precondition beq_iff_eq rfl, fun c ⟨hb, ha, hm, hv⟩ hvp => ?_⟩
  simp only [← Bool.and_eq_true]
  exact congrArg Host.Outcome.next (vBp_eq hv hb ha hm hvp)

end

section
/-! PROOFS. The statements of `44_scheduler.md`: what the scheduler's operations refuse, program and serve, that an
armed engine never stops, and that its two strategies make the same machine. -/

namespace Sys2Proof.Machine

/-! ### Serving what is due (R164, R166, R210) -/

theorem serveAlarms_idle {s : State} (n : Nat) (hH : ¬ due .H s) (hV : ¬ due .V s) : serveAlarms n s = s := by
  cases n with
  | zero => rfl
  | succ n => simp [serveAlarms, alarmDue_iff, hH, hV]

theorem serveAlarms_H {s : State} (n : Nat) (hH : due .H s) :
    serveAlarms (n + 1) s = serveAlarms n (dispatch .H s) :=
  if_pos (alarmDue_iff.2 hH)

theorem serveAlarms_V {s : State} (n : Nat) (hH : ¬ due .H s) (hV : due .V s) :
    serveAlarms (n + 1) s = serveAlarms n (dispatch .V s) :=
  (if_neg (mt alarmDue_iff.1 hH)).trans (if_pos (alarmDue_iff.2 hV))

/-- A tick that ends no bare busy-wait counts and serves (R164). -/
theorem tick_of_noBareSpin {s : State} (h : s.spin ≠ some (.bare (s.cnt + 1))) :
    tick s = serveAlarms 2 { s with cnt := s.cnt + 1 } :=
  congrArg (serveAlarms 2) (if_neg h)

/-- The tick that makes CNT the threshold of a bare busy-wait frees the interrupt context first (R167). -/
theorem tick_of_bareSpin {s : State} (h : s.spin = some (.bare (s.cnt + 1))) :
    tick s = serveAlarms 2 { s with cnt := s.cnt + 1, busy := false, spin := none } :=
  congrArg (serveAlarms 2) (if_pos h)

/-- During a bare busy-wait no alarm is served (R166, R167; log 20). -/
theorem not_due_of_bareSpin {s : State} {th : Nat} (hb : s.busy = true) (hs : s.spin = some (.bare th)) (a : Axis) :
    ¬ due a s := by
  simp [due, hb, hs]

/-- The operation a HandlerId names is the handler the dispatch table runs (R175). -/
theorem exec_handlerInstr (h : HandlerId) (s : State) : exec (handlerInstr h) s = .next (runHandler h s) := by
  cases h <;> rfl

/-! ### The operations, once the tests that open them are passed (R163, R165, R167) -/

theorem exec_schDisarm {s : State} (hb : s.busy = false) (hf : s.fault = .none) :
    exec .schDisarm s
      = .next (if s.armed then
          { s with
            alarmH := { s.alarmH with en := false }, alarmV := { s.alarmV with en := false }, armed := false }
        else refuse .notArmed s) :=
  congrArg Host.Outcome.next (normalOp_run hb hf _)

theorem interruptOp_run {s : State} (hb : s.busy = true) (k : State) : interruptOp s k = k := if_pos hb

theorem interruptOp_refused {s : State} (hb : s.busy = false) (k : State) : interruptOp s k = refuse .badOp s :=
  if_neg (by simp [hb])

theorem exec_schSetalarm {s : State} (hb : s.busy = true) (a : Axis) (d : Nat) (h : HandlerId) :
    exec (.schSetalarm a d h) s = .next (setAlarm a d h s) :=
  congrArg Host.Outcome.next (interruptOp_run hb _)

theorem exec_schSpin {s : State} (hb : s.busy = true) (th : Nat) :
    exec (.schSpin th) s
      = .next (if s.cnt < th then { s with spin := some (.bare th) } else refuse .badOp s) :=
  congrArg Host.Outcome.next (interruptOp_run hb _)

/-- The legal operands of `SCH.SETALARM` (R165, R79). -/
theorem setalarmOk_iff {a : Axis} {d : Nat} {h : HandlerId} :
    setalarmOk a d h = true ↔ 1 ≤ d ∧ h ≠ .vEnter ∧ h.axis = a := by
  simp [setalarmOk, Nat.one_le_iff_ne_zero, and_assoc]

/-! ### The pins of a configuration (R9, R162) -/

theorem mem_channels (ch : Channel) : ch ∈ [Channel.R, .G, .B] := by
  cases ch <;> simp

theorem mem_channelBits {i : Nat} : i ∈ channelBits ↔ i < 8 := by
  simp only [channelBits, List.mem_cons, List.not_mem_nil, or_false]
  omega

/-- The color pins, the latch pins and the sync pins. -/
theorem allPins_eq (c : Cfg) :
    c.allPins
      = channelBits.filterMap c.pinOfBit.get
        ++ ([Channel.R, .G, .B].map c.latchPin.get ++ [c.hsyncPin, c.vsyncPin]) := rfl

theorem mem_colorList {t : PinTable} {p : Nat} : p ∈ channelBits.filterMap t.get ↔ isColorPin t p := by
  simp only [List.mem_filterMap, mem_channelBits, isColorPin]

theorem mem_latchList {c : Cfg} {p : Nat} :
    p ∈ [Channel.R, .G, .B].map c.latchPin.get ↔ ∃ ch, p = c.latchPin.get ch := by
  simp only [List.mem_map, mem_channels, true_and, eq_comm]

theorem mem_allPins {c : Cfg} {p : Nat} : p ∈ c.allPins ↔ isEnginePin c p := by
  simp only [allPins_eq, List.mem_append, mem_colorList, mem_latchList, List.mem_cons, List.not_mem_nil, or_false,
    isEnginePin]

theorem listsSet_enginePins (c : Cfg) : listsSet (enginePins c) (isEnginePin c) :=
  ⟨pinSet_sorted _, fun _ => (mem_pinSet ..).trans mem_allPins⟩

theorem asserted_armEngine (c : Cfg) (s : State) (p : Nat) :
    (armEngine c s).asserted p = true ↔ s.asserted p = true ∧ ¬ isEnginePin c p := by
  have hpins : (armEngine c s).asserted p = (pinClearOp (enginePins c) s).asserted p := by
    simp [State.asserted, armEngine]
  rw [hpins, ← (listsSet_enginePins c).2 p]
  simp

/-! ### The checks of R202 -/

/-- The first check that fails is the one that fails with all before it passing. -/
theorem firstFailing_eq_some {l : List Bool} {n : Nat} (k : Nat) (hn : l[n]? = some false)
    (hbefore : ∀ m < n, l[m]? = some true) : firstFailing k l = some (k + n) := by
  induction l generalizing k n with
  | nil => simp at hn
  | cons b l ih =>
    cases n with
    | zero =>
      obtain rfl : b = false := by simpa using hn
      rfl
    | succ n =>
      obtain rfl : b = true := by simpa using hbefore 0 n.succ_pos
      rw [firstFailing, if_pos rfl, ih (k + 1) (by simpa using hn) fun m hm => by
        simpa using hbefore (m + 1) (Nat.succ_lt_succ hm)]
      exact congrArg some (by omega)

theorem firstFailing_eq_none {l : List Bool} (k : Nat) (h : ∀ n < l.length, l[n]? = some true) :
    firstFailing k l = none := by
  induction l generalizing k with
  | nil => rfl
  | cons b l ih =>
    obtain rfl : b = true := by simpa using h 0 (by simp)
    exact ih (k + 1) fun n hn => by simpa using h (n + 1) (Nat.succ_lt_succ hn)

theorem withinOne_iff {a : Nat} {o : Option Nat} :
    o.all (withinOne a) = true ↔ ∀ n, o = some n → a ≤ n + 1 ∧ n ≤ a + 1 := by
  simp only [Option.all_eq_true, withinOne, decide_eq_true_eq]

/-- A bit with a pin is one of the eight. -/
theorem mem_channelBits_of_get {t : PinTable} {i p : Nat} (h : t.get i = some p) : i ∈ channelBits := by
  rw [mem_channelBits]
  by_contra hge
  obtain ⟨j, rfl⟩ := Nat.exists_eq_add_of_le' (Nat.le_of_not_lt hge)
  cases h

theorem colorList_nodup_iff {t : PinTable} :
    (channelBits.filterMap t.get).Nodup ↔ ∀ i j p, t.get i = some p → t.get j = some p → i = j := by
  rw [List.Nodup, List.pairwise_filterMap]
  constructor
  · intro hpair i j p hi hj
    have : Std.Symm fun a b => ∀ x, t.get a = some x → ∀ y, t.get b = some y → x ≠ y :=
      ⟨fun a b hab x hx y hy hxy => hab y hy x hx hxy.symm⟩
    by_contra hne
    exact hpair.forall (mem_channelBits_of_get hi) (mem_channelBits_of_get hj) hne p hi p hj rfl
  · intro hinj
    have hbits : channelBits.Nodup := by decide
    refine hbits.imp fun hne p hi q hj hpq => ?_
    subst hpq
    exact hne (hinj _ _ p hi hj)

theorem latchList_nodup_iff {c : Cfg} :
    ([Channel.R, .G, .B].map c.latchPin.get).Nodup ↔
      ∀ ch dh, c.latchPin.get ch = c.latchPin.get dh → ch = dh := by
  rw [List.nodup_map_iff_inj_on (by decide)]
  simp only [mem_channels, true_imp_iff]

/-- The pins of each kind are distinct, and no two kinds share one (R9). -/
theorem allPins_nodup_iff (c : Cfg) : c.allPins.Nodup ↔ configCheck c 9 := by
  rw [allPins_eq, List.nodup_append, List.nodup_append, colorList_nodup_iff, latchList_nodup_iff]
  simp only [List.mem_append, mem_colorList, mem_latchList, List.mem_cons, List.not_mem_nil, or_false,
    List.nodup_cons, not_false_eq_true, List.nodup_nil, and_true, configCheck]
  constructor
  · rintro ⟨hinj, ⟨hlatch, hsync, hls⟩, hcolor⟩
    exact ⟨hinj, fun p hp => ⟨hcolor p hp _ (.inr (.inl rfl)), hcolor p hp _ (.inr (.inr rfl)),
      fun ch => hcolor p hp _ (.inl ⟨ch, rfl⟩)⟩, hlatch,
      fun ch => ⟨hls _ ⟨ch, rfl⟩ _ (.inl rfl), hls _ ⟨ch, rfl⟩ _ (.inr rfl)⟩, hsync⟩
  · rintro ⟨hinj, hcolor, hlatch, hls, hsync⟩
    refine ⟨hinj, ⟨hlatch, hsync, ?_⟩, fun p hp => ?_⟩
    · rintro _ ⟨ch, rfl⟩ _ (rfl | rfl)
      · exact (hls ch).1
      · exact (hls ch).2
    · obtain ⟨hh, hv, hl⟩ := hcolor p hp
      rintro _ (⟨ch, rfl⟩ | rfl | rfl)
      · exact hl ch
      · exact hh
      · exact hv

/-- A channel's wired bits all have a pin (R9). -/
theorem wiredOk_iff {t : PinTable} {m : Byte} :
    wiredOk t m = true ↔ ∀ i, m.getLsbD i = true → ∃ p, t.get i = some p := by
  have hpin : ∀ i (hi : i < 8), t.wiredBits[i] = (t.get i).isSome := fun i hi => by
    simp [PinTable.wiredBits]
  rw [wiredOk, beq_iff_eq]
  constructor
  · intro h0 i hi
    have hlt : i < 8 := BitVec.lt_of_getLsbD hi
    have hbit := congrArg (·.getLsbD i) h0
    simpa [hi, hlt, hpin, Option.isSome_iff_exists] using hbit
  · intro hall
    refine BitVec.eq_of_getLsbD_eq fun i hi => ?_
    simpa [hi, hpin, Option.isSome_iff_exists] using hall i

theorem wiredOk_all_iff (c : Cfg) :
    (wiredOk c.pinOfBit c.wired.r && wiredOk c.pinOfBit c.wired.g && wiredOk c.pinOfBit c.wired.b) = true
      ↔ configCheck c 10 := by
  simp only [Bool.and_eq_true, wiredOk_iff]
  exact ⟨fun ⟨⟨hr, hg⟩, hb⟩ ch => by cases ch <;> assumption, fun h => ⟨⟨h .R, h .G⟩, h .B⟩⟩

theorem timerWidth_iff (c : Cfg) :
    (c.timerWidth.all fun n => decide (c.fTicks < 2 ^ n)) = true ↔ configCheck c 11 := by
  simp only [Option.all_eq_true, decide_eq_true_eq, configCheck]

/-- An entry of the list of checks that decides `P`. -/
theorem passes_iff {b : Bool} {P : Prop} (h : b = true ↔ P) : P ↔ some b = some true := by
  rw [Option.some_inj, h]

/-- The list of checks is R202's, in its order. -/
theorem configCheck_iff {c : Cfg} {k : Nat} (h1 : 1 ≤ k) (h11 : k ≤ 11) :
    configCheck c k ↔ c.checks[k - 1]? = some true := by
  interval_cases k
  · exact passes_iff decide_eq_true_iff
  · exact passes_iff decide_eq_true_iff
  · exact passes_iff decide_eq_true_iff
  · exact passes_iff decide_eq_true_iff
  · exact passes_iff decide_eq_true_iff
  · exact passes_iff decide_eq_true_iff
  · exact passes_iff withinOne_iff
  · exact passes_iff withinOne_iff
  · exact passes_iff (decide_eq_true_iff.trans (allPins_nodup_iff c))
  · exact passes_iff (wiredOk_all_iff c)
  · exact passes_iff (timerWidth_iff c)

/-- The check that fails first is the one `SCH.CONFIG` reports (R202). -/
theorem failingCheck_eq_some {c : Cfg} {k : Nat} (h1 : 1 ≤ k) (h11 : k ≤ 11) (hk : ¬ configCheck c k)
    (hbefore : ∀ j, 1 ≤ j → j < k → configCheck c j) : c.failingCheck = some k := by
  have hfails : c.checks[k - 1]? = some false := by
    rw [configCheck_iff h1 h11] at hk
    have hlen : k - 1 < c.checks.length := by
      change k - 1 < 11
      omega
    rw [List.getElem?_eq_getElem hlen] at hk ⊢
    simpa using hk
  have hpass : ∀ m < k - 1, c.checks[m]? = some true := fun m hm =>
    (configCheck_iff (k := m + 1) (by omega) (by omega)).1 (hbefore (m + 1) (by omega) (by omega))
  rw [Cfg.failingCheck, firstFailing_eq_some 1 hfails hpass]
  exact congrArg some (by omega)

/-- A configuration that passes every check is legal (R202). -/
theorem valid_of_configCheck {c : Cfg} (h : ∀ k, configCheck c k) : c.valid :=
  firstFailing_eq_none 1 fun n (hn : n < 11) => (configCheck_iff (k := n + 1) (by omega) (by omega)).1 (h (n + 1))

/-! ### `SCH.CONFIG` (R161) -/

theorem exec_schConfig_invalid {cfg : Cfg} {s : State} {k : Nat} (hb : s.busy = false) (hf : s.fault = .none)
    (ha : s.armed = false) (h : cfg.failingCheck = some k) :
    exec (.schConfig cfg) s = .next (raiseNormal (.configInvalid k) s) := by
  simp [exec, execSchConfig, normalOp, hb, hf, ha, h]

theorem exec_schConfig_valid {cfg : Cfg} {s : State} (hb : s.busy = false) (hf : s.fault = .none)
    (ha : s.armed = false) (h : cfg.valid) : exec (.schConfig cfg) s = .next (installMode cfg s) := by
  simp [exec, execSchConfig, normalOp, hb, hf, ha, h]

/-- A fault raised in the normal context, with or without a mode (R203). -/
theorem raises_raiseNormal {i : Instr} {s : State} {f : FaultCode} (hf : s.fault = .none)
    (h : exec i s = .next (raiseNormal f s)) : raises i s f :=
  ⟨_, h, by simp [raiseNormal, setFault, hf], rfl, by simp [raiseNormal, setFault]⟩

/-- Nothing is stored in a Framebuffer just allocated (R40, R161; log 8). -/
theorem readChannel_installMode (cfg : Cfg) (s : State) (b : Bool) (a : Nat) (ch : Channel) :
    readChannel (installMode cfg s) b a ch = Config.freeByte (installMode cfg s).alloc b ch a := by
  cases b <;> cases ch <;> rfl

/-! ### The alarms of an engine in order (R26, R41, R174) -/

/-- ALARM_a as the timing grid has it while it is the enabled one (R78). -/
def gridAlarm (c : Cfg) (s : State) : Axis → Alarm
  | .H => ⟨true, hPhaseEnd c s, HandlerId.ofAxisPhase .H s.hPhase⟩
  | .V => ⟨true, vPhaseEnd c s, HandlerId.ofAxisPhase .V s.vPhase⟩

/-- An engine in order has one alarm enabled: on the grid, and to come. -/
theorem EngineOk.one_alarm {c : Cfg} {s : State} (h : EngineOk c s) :
    s.alarmH = gridAlarm c s .H ∧ s.alarmV.en = false ∧ s.cnt < hPhaseEnd c s ∨
      s.alarmV = gridAlarm c s .V ∧ s.alarmH.en = false ∧ s.cnt < vPhaseEnd c s := by
  by_cases hp : parked c s
  · obtain ⟨hV, hH, -, -, hlt⟩ := h.handedOver hp
    exact .inr ⟨hV, hH, hlt⟩
  · obtain ⟨hH, hV, -, hlt⟩ := h.running hp
    exact .inl ⟨hH, hV, hlt⟩

/-- An enabled alarm of an engine in order is on the grid. -/
theorem EngineOk.alarm_of_enabled {c : Cfg} {s : State} (h : EngineOk c s) {a : Axis} (he : (s.alarm a).en = true) :
    s.alarm a = gridAlarm c s a := by
  rcases h.one_alarm with ⟨hon, hoff, -⟩ | ⟨hon, hoff, -⟩ <;> cases a
  · exact hon
  · simp [hoff] at he
  · simp [hoff] at he
  · exact hon

/-- While one alarm of an engine in order is enabled, the other is not. -/
theorem EngineOk.enabled_iff {c : Cfg} {s : State} (h : EngineOk c s) :
    s.alarmH.en = true ↔ s.alarmV.en = false := by
  rcases h.one_alarm with ⟨hon, hoff, -⟩ | ⟨hon, hoff, -⟩
  · simp [hon, hoff, gridAlarm]
  · simp [hon, hoff, gridAlarm]

/-- Entry from a tick that serves ALARM_a finds both alarms disabled (R211). -/
theorem EngineOk.entered_disabled {c : Cfg} {s : State} (h : EngineOk c s) {a : Axis} (he : (s.alarm a).en = true)
    (b : Axis) : ((enterInterrupt a { s with cnt := s.cnt + 1 }).alarm b).en = false := by
  have hiff := h.enabled_iff
  cases a <;> cases b
  · rfl
  · exact hiff.1 he
  · exact Bool.eq_false_iff.2 fun hH => by simp [hiff.1 hH] at he
  · rfl

/-! ### The two strategies side by side (R168, R169) -/

/-- The mode but for STRATEGY, which is PHASE_CHAINED. -/
abbrev chainedMode (c : Cfg) : Cfg := { c with strategy := .phaseChained }

/-- The machine with that mode installed. -/
def underChained (c : Cfg) (s : State) : State := { s with md := some (chainedMode c) }

/-- Only the mode tells the two machines apart. -/
theorem underChained_restore {c : Cfg} {s : State} (hm : s.md = some c) :
    { underChained c s with md := some c } = s := by
  rw [← hm]
  rfl

/-- `u` is what a handler's PHASE_CHAINED form makes of `s` and `v` what its FREE_RUNNING form does: where `u` holds a
SETALARM of ALARM_a, `v` spins to `th` and runs `h` then, or is refused once `th` has passed (R169; logs 4, 20). -/
structure Spins (c : Cfg) (a : Axis) (th : Nat) (h : HandlerId) (s v u : State) : Prop where
  programmed : (u.alarm a).en = true
  ahead : s.cnt < th → v = { u.setAlarmRec a ⟨true, th, h⟩ with md := some c, spin := some (.thenRun a) }
  passed : th ≤ s.cnt → v = { u.setAlarmRec a (s.alarm a) with md := some c, response := .refused .badOp }

/-- The tail of a blanking handler, reached in a state `p` in which the handler has not touched the mode, CNT and
ALARM_a. -/
theorem chain_spins {c : Cfg} {a : Axis} {d th : Nat} {h : HandlerId} {s p : State}
    (hst : c.strategy = .freeRunning) (hm : s.md = some c) (hok : setalarmOk a d h = true)
    (hp : p.md = s.md ∧ p.cnt = s.cnt ∧ p.alarm a = s.alarm a := by exact ⟨rfl, rfl, rfl⟩) :
    Spins c a th h s (chain c a d th h p) (chain (chainedMode c) a d th h (underChained c p)) := by
  obtain ⟨hmd, hcnt, halarm⟩ := hp
  rw [show chain c a d th h p = spinThen a th h p by simp [chain, hst], spinThen, hcnt, chain_phaseChained rfl,
    setAlarm_ok hok]
  refine ⟨by cases a <;> rfl, fun hlt => ?_, fun hle => ?_⟩
  · rw [if_pos hlt, ← hm, ← hmd]
    cases a <;> rfl
  · rw [if_neg (by omega), ← hm, ← hmd, ← halarm]
    cases a <;> rfl

/-- A PinSet after the tail is the same in both. -/
theorem Spins.pinSet {c : Cfg} {a : Axis} {th : Nat} {h : HandlerId} {s v u : State} (hs : Spins c a th h s v u)
    (ps : List Nat) : Spins c a th h s (pinSetOp ps v) (pinSetOp ps u) := by
  obtain ⟨hprog, hahead, hpassed⟩ := hs
  refine ⟨?_, fun hlt => ?_, fun hle => ?_⟩
  · cases a <;> exact hprog
  · rw [hahead hlt]
    cases a <;> rfl
  · rw [hpassed hle]
    cases a <;> rfl

/-- The end of an active slot (R122). -/
theorem endActiveSlot_spins {c : Cfg} {th : Nat} {s p : State} (hv : c.valid) (hst : c.strategy = .freeRunning)
    (hm : s.md = some c) (hp : p.md = s.md ∧ p.cnt = s.cnt ∧ p.alarmH = s.alarmH := by exact ⟨rfl, rfl, rfl⟩)
    (hth : hFpEnd c p = th := by rfl) :
    Spins c .H th .hFp s (endActiveSlot c p) (endActiveSlot (chainedMode c) (underChained c p)) := by
  obtain ⟨-, hFp, -⟩ := grid_facts hv
  obtain ⟨-, hok, -⟩ := setalarmOk_of_pos hFp
  subst hth
  exact chain_spins (p := { p with hPhase := .frontPorch }) hst hm hok hp

/-- Emitting the pixel keeps the mode, the engine's place in time and its horizontal alarm. -/
theorem emitInRange_timing (c : Cfg) (s : State) :
    (emitInRange c s).md = s.md ∧ (emitInRange c s).cnt = s.cnt ∧ (emitInRange c s).alarmH = s.alarmH ∧
      (emitInRange c s).lineStart = s.lineStart := by
  unfold emitInRange
  split <;> simp

/-- The pixel of `H.ACTIVE` does not depend on STRATEGY (R121). -/
theorem emitInRange_underChained {c : Cfg} (hv : c.valid) (s : State) :
    emitInRange (chainedMode c) (underChained c s) = underChained c (emitInRange c s) := by
  have hfetch : fetchAndEmit (chainedMode c) (underChained c s) = underChained c (fetchAndEmit c s) := by
    rw [fetchAndEmit_eq (c := chainedMode c) hv, fetchAndEmit_eq hv]
    rfl
  rw [emitInRange, hfetch]
  exact (apply_ite (underChained c) ..).symm

/-- The cursor advanced past its line's end (R121). -/
theorem advanceCursor_wrap {c : Cfg} {s : State} (hf : c.fastLimit ≤ s.fast + c.stride) :
    advanceCursor c s
      = endActiveSlot c
          { s with fast := 0, slow := if c.slowLimit ≤ s.slow + c.stride then 0 else s.slow + c.stride } :=
  if_pos hf

/-- The pixel tick that ends its line (R122). -/
theorem lastPixel_spins {c : Cfg} {s : State} (hv : c.valid) (hst : c.strategy = .freeRunning) (hm : s.md = some c)
    (hf : c.fastLimit ≤ s.fast + c.stride) :
    Spins c .H (hFpEnd c s) .hFp s (advanceCursor c (emitInRange c s))
      (advanceCursor (chainedMode c) (emitInRange (chainedMode c) (underChained c s))) := by
  obtain ⟨hmd, hcnt, halarm, hline⟩ := emitInRange_timing c s
  have hfast : c.fastLimit ≤ (emitInRange c s).fast + c.stride := (emitInRange_frame c s).1 ▸ hf
  rw [emitInRange_underChained hv, advanceCursor_wrap hfast,
    advanceCursor_wrap (c := chainedMode c) (s := underChained c _) hfast]
  exact endActiveSlot_spins hv hst hm ⟨hmd, hcnt, halarm⟩ (by simp only [hFpEnd, hline])

/-- A pixel tick that does not end its line keeps its SETALARM (R122, R169). -/
theorem morePixels_underChained {c : Cfg} {s : State} (hv : c.valid) (hf : s.fast + c.stride < c.fastLimit) :
    advanceCursor (chainedMode c) (emitInRange (chainedMode c) (underChained c s))
      = underChained c (advanceCursor c (emitInRange c s)) := by
  have hfast : (emitInRange c s).fast + c.stride < c.fastLimit := (emitInRange_frame c s).1 ▸ hf
  rw [emitInRange_underChained hv, advanceCursor_more hv hfast,
    advanceCursor_more (c := chainedMode c) (s := underChained c _) hv hfast]
  rfl

/-- `H.ACTIVE` on an active line (R122). -/
theorem exec_hActive_pixel {c : Cfg} {s : State} (hr : handlerReady c s) (hh : s.hPhase = .activePixel)
    (hvp : s.vPhase = .activePixel) : exec .hActive s = .next (advanceCursor c (emitInRange c s)) :=
  (exec_hActive hr hh).trans (congrArg _ (if_pos hvp))

/-- `H.ACTIVE` on a blank line (R122). -/
theorem exec_hActive_blank {c : Cfg} {s : State} (hr : handlerReady c s) (hh : s.hPhase = .activePixel)
    (hvp : s.vPhase ≠ .activePixel) : exec .hActive s = .next (endActiveSlot c s) :=
  (exec_hActive hr hh).trans (congrArg _ (if_neg hvp))

/-- The end of the horizontal front porch (R123). -/
theorem hFp_spins {c : Cfg} {s p : State} (hv : c.valid) (hst : c.strategy = .freeRunning) (hm : s.md = some c)
    (hp : p.md = s.md ∧ p.cnt = s.cnt ∧ p.alarmH = s.alarmH := by exact ⟨rfl, rfl, rfl⟩) :
    Spins c .H (hSyncEnd c s) .hSync s
      (pinSetOp [c.hsyncPin] (chain c .H c.hSync (hSyncEnd c s) .hSync p))
      (pinSetOp [c.hsyncPin] (chain (chainedMode c) .H c.hSync (hSyncEnd c s) .hSync (underChained c p))) := by
  obtain ⟨-, -, hSync, -⟩ := grid_facts hv
  obtain ⟨-, -, hok, -⟩ := setalarmOk_of_pos hSync
  exact (chain_spins hst hm hok hp).pinSet _

/-- The end of horizontal sync (R124). -/
theorem hSync_spins {c : Cfg} {s p : State} (hv : c.valid) (hst : c.strategy = .freeRunning) (hm : s.md = some c)
    (hp : p.md = s.md ∧ p.cnt = s.cnt ∧ p.alarmH = s.alarmH := by exact ⟨rfl, rfl, rfl⟩) :
    Spins c .H (hLineEnd c s) .hBp s (chain c .H c.hBp (hLineEnd c s) .hBp p)
      (chain (chainedMode c) .H c.hBp (hLineEnd c s) .hBp (underChained c p)) := by
  obtain ⟨-, -, -, hBp, -⟩ := grid_facts hv
  obtain ⟨-, -, -, hok, -⟩ := setalarmOk_of_pos hBp
  exact chain_spins hst hm hok hp

/-- Under DEDICATED_TIMER a vertical phase is timed by the tail of its handler (R146). -/
theorem timeVertical_spins {c : Cfg} {n th : Nat} {h : HandlerId} {s p : State} (hst : c.strategy = .freeRunning)
    (hm : s.md = some c) (hd : c.verticalDrive = .dedicatedTimer) (hok : setalarmOk .V (n * c.hLine) h = true)
    (hp : p.md = s.md ∧ p.cnt = s.cnt ∧ p.alarmV = s.alarmV := by exact ⟨rfl, rfl, rfl⟩) :
    Spins c .V th h s (timeVertical c n th h p) (timeVertical (chainedMode c) n th h (underChained c p)) := by
  simp only [timeVertical, hd]
  exact chain_spins hst hm hok hp

/-- The claim of a spin, from what the two forms of an operation answer. -/
theorem spinsTo_of {i : Instr} {a : Axis} {th : Nat} {h : HandlerId} {c : Cfg} {s v u : State}
    (hv : exec i s = .next v) (hu : exec i (underChained c s) = .next u) (hs : Spins c a th h s v u) :
    spinsTo i a th h c s :=
  ⟨u, hu, fun hlt => hv.trans (congrArg _ (hs.ahead hlt)), fun hle => hv.trans (congrArg _ (hs.passed hle))⟩

theorem handlerReady.chained {c : Cfg} {s : State} (hr : handlerReady c s) :
    handlerReady (chainedMode c) (underChained c s) := by
  obtain ⟨hb, ha, -, hv⟩ := hr
  exact ⟨hb, ha, rfl, hv⟩

/-! ### Handlers that do not depend on STRATEGY -/

/-- A handler whose body does not depend on STRATEGY does not. -/
theorem handlerOp_underChained {c : Cfg} {s : State} {pre : Bool} {k k' : Cfg → State} (hm : s.md = some c)
    (hk : k' (chainedMode c) = underChained c (k c)) :
    handlerOp (underChained c s) pre k' = underChained c (handlerOp s pre k) := by
  change (if (s.busy && s.armed && pre) = true then k' (chainedMode c) else refuse .badOp (underChained c s)) = _
  rw [hk, handlerOp, show withMode s k = k c by simp [withMode, hm]]
  split <;> rfl

theorem setAlarm_underChained (c : Cfg) (a : Axis) (d : Nat) (h : HandlerId) (s : State) :
    setAlarm a d h (underChained c s) = underChained c (setAlarm a d h s) := by
  unfold setAlarm
  cases setalarmOk a d h
  · rfl
  · cases a <;> rfl

theorem startActiveLine_underChained (c : Cfg) (s : State) :
    startActiveLine (chainedMode c) (underChained c s) = underChained c (startActiveLine c s) :=
  setAlarm_underChained c .H c.pixelPeriod .hActive { s with hPhase := .activePixel, lineStart := s.cnt }

theorem startBlankLine_underChained (c : Cfg) (s : State) :
    startBlankLine (chainedMode c) (underChained c s) = underChained c (startBlankLine c s) :=
  setAlarm_underChained c .H c.hActive .hActive { s with hPhase := .activePixel, lineStart := s.cnt }

/-- Under LINE_CHAINED a vertical phase is timed by VCNT, under either strategy (R145). -/
theorem timeVertical_underChained {c : Cfg} (hd : c.verticalDrive = .lineChained) (n th : Nat) (h : HandlerId)
    (s : State) :
    timeVertical (chainedMode c) n th h (underChained c s) = underChained c (timeVertical c n th h s) := by
  rw [timeVertical_lineChained hd, timeVertical_lineChained (c := chainedMode c) hd]
  rfl

theorem vEnterOp_underChained {c : Cfg} {s : State} (hm : s.md = some c) (hd : c.verticalDrive = .lineChained) :
    vEnterOp (underChained c s) = underChained c (vEnterOp s) :=
  handlerOp_underChained hm (timeVertical_underChained hd _ _ _ { s with vPhase := .frontPorch })

theorem vFpOp_underChained {c : Cfg} {s : State} (hm : s.md = some c) (hd : c.verticalDrive = .lineChained) :
    vFpOp (underChained c s) = underChained c (vFpOp s) :=
  handlerOp_underChained hm
    (congrArg (pinSetOp [c.vsyncPin]) (timeVertical_underChained hd _ _ _ { s with vPhase := .sync }))

theorem vSyncOp_underChained {c : Cfg} {s : State} (hm : s.md = some c) (hd : c.verticalDrive = .lineChained) :
    vSyncOp (underChained c s) = underChained c (vSyncOp s) :=
  handlerOp_underChained hm
    (timeVertical_underChained hd _ _ _ { pinClearOp [c.vsyncPin] s with vPhase := .backPorch })

theorem swapAtFrame_underChained (c : Cfg) (s : State) :
    swapAtFrame (chainedMode c) (underChained c s) = underChained c (swapAtFrame c s) := by
  change (if (c.doubleBuffer && s.swapReq) = true then _ else _) = _
  unfold swapAtFrame
  split <;> rfl

theorem vBpOp_underChained {c : Cfg} {s : State} (hm : s.md = some c) :
    vBpOp (underChained c s) = underChained c (vBpOp s) := by
  refine handlerOp_underChained hm (.trans (congrArg _ ?_) (startActiveLine_underChained c _))
  exact swapAtFrame_underChained c
    { s with fast := 0, slow := 0, vPhase := .activePixel, vcnt := 0, frameStart := s.cnt }

/-- The last blank line of a vertical phase: the transition it makes, and the next line (R125). -/
def blankPhaseDone (c : Cfg) (s : State) : State :=
  match s.vPhase with
  | .frontPorch => startBlankLine c (vFpOp s)
  | .sync => startBlankLine c (vSyncOp s)
  | .backPorch => vBpOp s
  | .activePixel => s

theorem blankLineDone_eq (c : Cfg) (s : State) :
    blankLineDone c s
      = if 0 < s.vcnt - 1 then startBlankLine c { s with vcnt := s.vcnt - 1 }
        else blankPhaseDone c { s with vcnt := s.vcnt - 1 } := rfl

theorem blankPhaseDone_underChained {c : Cfg} {s : State} (hm : s.md = some c)
    (hd : c.verticalDrive = .lineChained) :
    blankPhaseDone (chainedMode c) (underChained c s) = underChained c (blankPhaseDone c s) := by
  have hphase : (underChained c s).vPhase = s.vPhase := rfl
  unfold blankPhaseDone
  rw [hphase]
  split
  · rw [vFpOp_underChained hm hd, startBlankLine_underChained]
  · rw [vSyncOp_underChained hm hd, startBlankLine_underChained]
  · exact vBpOp_underChained hm
  · rfl

theorem blankLineDone_underChained {c : Cfg} {s : State} (hm : s.md = some c) (hd : c.verticalDrive = .lineChained) :
    blankLineDone (chainedMode c) (underChained c s) = underChained c (blankLineDone c s) := by
  rw [blankLineDone_eq, blankLineDone_eq, apply_ite (underChained c), ← startBlankLine_underChained,
    ← blankPhaseDone_underChained (s := { s with vcnt := s.vcnt - 1 }) hm hd]
  rfl

/-! ### A handler under the two strategies (R168, R169) -/

/-- What the two forms of a handler make of a state: `v` under FREE_RUNNING and `u` under PHASE_CHAINED are the same but
for STRATEGY, or `v` spins where `u` has programmed an alarm. -/
inductive Twins (c : Cfg) (s v u : State) : Prop
  | same (h : u = underChained c v)
  | spins (a : Axis) (th : Nat) (h : HandlerId) (hs : Spins c a th h s v u)

theorem Twins.pinSet {c : Cfg} {s v u : State} (ht : Twins c s v u) (ps : List Nat) :
    Twins c s (pinSetOp ps v) (pinSetOp ps u) := by
  rcases ht with rfl | ⟨a, th, h, hs⟩
  · exact .same rfl
  · exact .spins a th h (hs.pinSet ps)

/-- A handler that may run runs its two bodies, or neither: its precondition does not depend on STRATEGY. -/
theorem handlerReady.twins {c : Cfg} {s : State} (hr : handlerReady c s) {pre : Bool} {k k' : Cfg → State}
    (hk : pre = true → Twins c s (k c) (k' (chainedMode c))) :
    Twins c s (handlerOp s pre k) (handlerOp (underChained c s) pre k') := by
  cases pre with
  | true =>
    rw [hr.run rfl, hr.chained.run rfl]
    exact hk rfl
  | false => exact .same (by simp [handlerOp, underChained, refuse])

/-- Timing a vertical phase by either drive (R145, R146). -/
theorem timeVertical_twins {c : Cfg} {n th : Nat} {h : HandlerId} {s p : State} (hst : c.strategy = .freeRunning)
    (hm : s.md = some c) (hok : setalarmOk .V (n * c.hLine) h = true)
    (hp : p.md = s.md ∧ p.cnt = s.cnt ∧ p.alarmV = s.alarmV := by exact ⟨rfl, rfl, rfl⟩) :
    Twins c s (timeVertical c n th h p) (timeVertical (chainedMode c) n th h (underChained c p)) := by
  cases hd : c.verticalDrive with
  | lineChained => exact .same (timeVertical_underChained hd ..)
  | dedicatedTimer => exact .spins _ _ _ (timeVertical_spins hst hm hd hok hp)

theorem vEnterOp_twins {c : Cfg} {s : State} (hr : handlerReady c s) (hst : c.strategy = .freeRunning) :
    Twins c s (vEnterOp s) (vEnterOp (underChained c s)) := by
  have ⟨_, _, hm, hv⟩ := hr
  obtain ⟨hok, -, -⟩ := setalarmOk_vertical hv
  exact hr.twins fun _ => timeVertical_twins hst hm hok

/-- `H.ACTIVE` spins where it ends an active slot, and keeps its SETALARM elsewhere (R122). -/
theorem hActiveOp_twins {c : Cfg} {s : State} (hr : handlerReady c s) (hst : c.strategy = .freeRunning) :
    Twins c s (hActiveOp s) (hActiveOp (underChained c s)) := by
  have ⟨_, _, hm, hv⟩ := hr
  refine hr.twins fun _ => ?_
  change Twins c s (if s.vPhase ≠ .activePixel then endActiveSlot c s else advanceCursor c (emitInRange c s))
    (if s.vPhase ≠ .activePixel then endActiveSlot (chainedMode c) (underChained c s)
      else advanceCursor (chainedMode c) (emitInRange (chainedMode c) (underChained c s)))
  split
  · exact .spins _ _ _ (endActiveSlot_spins hv hst hm)
  · by_cases hf : s.fast + c.stride < c.fastLimit
    · exact .same (morePixels_underChained hv hf)
    · exact .spins _ _ _ (lastPixel_spins hv hst hm (by omega))

/-- `H.BP` spins where it hands over to ALARM_V, and starts a line elsewhere (R125, R146). -/
theorem hBpOp_twins {c : Cfg} {s : State} (hr : handlerReady c s) (hst : c.strategy = .freeRunning) :
    Twins c s (hBpOp s) (hBpOp (underChained c s)) := by
  have ⟨_, _, hm, _⟩ := hr
  refine hr.twins fun _ => ?_
  cases hd : c.verticalDrive with
  | dedicatedTimer =>
    change Twins c s (if s.slow = 0 then vEnterOp s else startActiveLine c s)
      (if s.slow = 0 then vEnterOp (underChained c s) else startActiveLine (chainedMode c) (underChained c s))
    split
    · exact vEnterOp_twins hr hst
    · exact .same (startActiveLine_underChained c s)
  | lineChained =>
    change Twins c s
      (if s.vPhase = .activePixel then if s.slow = 0 then startBlankLine c (vEnterOp s) else startActiveLine c s
        else blankLineDone c s)
      (if s.vPhase = .activePixel then
        if s.slow = 0 then startBlankLine (chainedMode c) (vEnterOp (underChained c s))
        else startActiveLine (chainedMode c) (underChained c s)
        else blankLineDone (chainedMode c) (underChained c s))
    split
    · split
      · exact .same (by rw [vEnterOp_underChained hm hd, startBlankLine_underChained])
      · exact .same (startActiveLine_underChained c s)
    · exact .same (blankLineDone_underChained hm hd)

/-- The fixed dispatch table (R175) under the two strategies. -/
theorem runHandler_twins {c : Cfg} {s : State} (hr : handlerReady c s) (hst : c.strategy = .freeRunning)
    (h : HandlerId) : Twins c s (runHandler h s) (runHandler h (underChained c s)) := by
  have ⟨_, _, hm, hv⟩ := hr
  obtain ⟨-, okSync, okBp⟩ := setalarmOk_vertical hv
  cases h with
  | hActive => exact hActiveOp_twins hr hst
  | hFp => exact hr.twins fun _ => .spins _ _ _ (hFp_spins hv hst hm)
  | hSync => exact hr.twins fun _ => .spins _ _ _ (hSync_spins hv hst hm)
  | hBp => exact hBpOp_twins hr hst
  | vEnter => exact vEnterOp_twins hr hst
  | vFp => exact hr.twins fun _ => (timeVertical_twins hst hm okSync).pinSet _
  | vSync => exact hr.twins fun _ => timeVertical_twins hst hm okBp
  | vBp => exact .same (vBpOp_underChained hm)

/-! ### A tick under the two strategies (R171) -/

theorem withoutStrategy_eq {c : Cfg} {s : State} (hm : s.md = some c) :
    withoutStrategy s = { underChained c s with busy := false, spin := none } := by
  simp [withoutStrategy, underChained, hm]

/-- Under PHASE_CHAINED an engine in order is never BUSY between steps (R171). -/
theorem EngineOk.withoutStrategy_self {c : Cfg} {s : State} (h : EngineOk c s) (hm : s.md = some c)
    (hst : c.strategy = .phaseChained) : withoutStrategy s = s := by
  obtain ⟨hb, hs⟩ : s.busy = false ∧ s.spin = none := by simpa [contextIs, hst] using h.context
  rw [withoutStrategy_eq hm, underChained, chainedMode, ← hst, ← hm, ← hb, ← hs]

/-- What the strategy may change is no part of the other invariants. -/
theorem EngineOk.withoutStrategy {c : Cfg} {s : State} (h : EngineOk c s) (hm : s.md = some c) :
    EngineOk (chainedMode c) (withoutStrategy s) := by
  rw [withoutStrategy_eq hm]
  exact ⟨h.valid, h.cursor, h.stride, h.fastZero, h.cursorZero, h.running, h.handedOver, h.line, h.lines, h.hsync,
    h.vsync, h.latches, rfl, rfl⟩

/-- Two forms of a handler that leave their engines in order leave the same engine but for STRATEGY and BUSY: the alarm
one of them programs and the threshold the other spins to are both on the grid. -/
theorem Twins.agree {c : Cfg} {s v u : State} (ht : Twins c s v u) (hoff : ∀ a, (s.alarm a).en = false)
    (hmv : v.md = some c) (hmu : u.md = some (chainedMode c)) (hv : EngineOk c (returnFromInterrupt v))
    (hu : EngineOk (chainedMode c) (returnFromInterrupt u)) :
    withoutStrategy (returnFromInterrupt v) = withoutStrategy (returnFromInterrupt u) := by
  rw [withoutStrategy_eq (s := returnFromInterrupt v) hmv, withoutStrategy_eq (s := returnFromInterrupt u) hmu]
  rcases ht with rfl | ⟨a, th, h, hs⟩
  · rfl
  · have hprog : ((returnFromInterrupt u).alarm a).en = true := by
      have := hs.programmed
      cases a <;> exact this
    by_cases hlt : s.cnt < th
    · obtain rfl := hs.ahead hlt
      have hgrid : u.alarm a = ⟨true, th, h⟩ := by
        have hon := hv.alarm_of_enabled (a := a) (by cases a <;> rfl)
        cases a <;> exact (hu.alarm_of_enabled hprog).trans hon.symm
      rw [← hgrid]
      cases a <;> rfl
    · obtain rfl := hs.passed (by omega)
      exfalso
      cases a with
      | H => exact absurd ((hoff .H).symm.trans (hv.enabled_iff.2 (hu.enabled_iff.1 hprog))) Bool.false_ne_true
      | V => exact absurd ((hu.enabled_iff.1 (hv.enabled_iff.2 (hoff .V))).symm.trans hprog) Bool.false_ne_true

/-- Serving one alarm at one instant under the two strategies. -/
theorem dispatch_withoutStrategy {c : Cfg} {a : Axis} {s : State} (hm : s.md = some c)
    (ha : s.armed = true) (hval : c.valid) (hst : c.strategy = .freeRunning)
    (hoff : ∀ b, ((enterInterrupt a s).alarm b).en = false) (hv : EngineOk c (dispatch a s))
    (hu : EngineOk (chainedMode c) (dispatch a (withoutStrategy s))) :
    withoutStrategy (dispatch a s) = withoutStrategy (dispatch a (withoutStrategy s)) := by
  have hentry : dispatch a (withoutStrategy s)
      = returnFromInterrupt (runHandler (s.alarm a).handler (underChained c (enterInterrupt a s))) := by
    rw [withoutStrategy_eq hm]
    cases a <;> rfl
  rw [hentry] at hu ⊢
  have hr : handlerReady c (enterInterrupt a s) := ⟨rfl, by simpa using ha, by simpa using hm, hval⟩
  exact (runHandler_twins hr hst _).agree hoff (by simp [hm]) (by simp [underChained]) hv hu

/-- A tick of an engine in order dispatches the enabled alarm when its deadline has come; before, it only counts. -/
theorem EngineOk.tick_eq {c : Cfg} {s : State} (h : EngineOk c s) (ha : s.armed = true) (hm : s.md = some c) :
    (∀ a, (s.alarm a).en = true → (s.alarm a).deadline = s.cnt + 1 →
        tick s = dispatch a { s with cnt := s.cnt + 1 }) ∧
      ((∀ a, (s.alarm a).en = true → (s.alarm a).deadline ≠ s.cnt + 1) →
        tick s = { s with cnt := s.cnt + 1 }) := by
  rcases (h.tick_cases ha hm).2 with ⟨hp, ht, e⟩ | ⟨hp, ht, e⟩ | ⟨hH, hV, e⟩
  · obtain ⟨hon, hoff, -⟩ := h.running hp
    refine ⟨fun a he _ => ?_, fun hno => absurd ht ?_⟩
    · cases a with
      | H => exact e
      | V => simp [hoff] at he
    · simpa [hon] using hno .H
  · obtain ⟨hon, hoff, -⟩ := h.handedOver hp
    refine ⟨fun a he _ => ?_, fun hno => absurd ht ?_⟩
    · cases a with
      | H => simp [hoff] at he
      | V => exact e
    · simpa [hon] using hno .V
  · refine ⟨fun a he ht => ?_, fun _ => e⟩
    rw [h.alarm_of_enabled he] at ht
    by_cases hp : parked c s
    · obtain ⟨-, hoff, -⟩ := h.handedOver hp
      cases a with
      | H => simp [hoff] at he
      | V => exact absurd ht (hV hp)
    · obtain ⟨-, hoff, -⟩ := h.running hp
      cases a with
      | H => exact absurd ht (hH hp)
      | V => simp [hoff] at he

/-- A tick of an engine in order does what it does under PHASE_CHAINED, but for STRATEGY and BUSY (R171). -/
theorem EngineOk.tick_withoutStrategy {c : Cfg} {s : State} (h : EngineOk c s) (ha : s.armed = true)
    (hm : s.md = some c) :
    Machine.withoutStrategy (tick s) = Machine.withoutStrategy (tick (Machine.withoutStrategy s)) := by
  cases hst : c.strategy with
  | phaseChained => rw [h.withoutStrategy_self hm hst]
  | freeRunning =>
    have h' := h.withoutStrategy hm
    have hm' : (Machine.withoutStrategy s).md = some (chainedMode c) := by rw [withoutStrategy_eq hm]; rfl
    have halarm : ∀ a, (Machine.withoutStrategy s).alarm a = s.alarm a := fun a => by cases a <;> rfl
    obtain ⟨serve, pass⟩ := h.tick_eq ha hm
    obtain ⟨serve', pass'⟩ := h'.tick_eq ha hm'
    simp only [halarm] at serve' pass'
    by_cases hdue : ∃ a, (s.alarm a).en = true ∧ (s.alarm a).deadline = s.cnt + 1
    · obtain ⟨a, he, ht⟩ := hdue
      obtain ⟨hok, -⟩ := h.tick_cases ha hm
      obtain ⟨hok', -⟩ := h'.tick_cases ha hm'
      rw [serve a he ht] at hok ⊢
      rw [serve' a he ht] at hok' ⊢
      exact dispatch_withoutStrategy (s := { s with cnt := s.cnt + 1 }) hm ha h.valid hst (h.entered_disabled he)
        hok hok'
    · have hno : ∀ a, (s.alarm a).en = true → (s.alarm a).deadline ≠ s.cnt + 1 :=
        fun a he ht => hdue ⟨a, he, ht⟩
      rw [pass hno, pass' hno]
      simp [Machine.withoutStrategy, Function.comp_def]

end Sys2Proof.Machine

open Sys2Proof Sys2Proof.Machine

/-- Settles O55: what a tick makes of a machine but for STRATEGY and BUSY depends only on the same of that machine. -/
theorem strategiesAgree : Obligations.StrategiesAgree := by
  unfold Obligations.StrategiesAgree
  intro s s' t t' h h' ha hsame ht ht'
  obtain ⟨c, hm, hk⟩ := h.engine ha
  have ha' : s'.armed = true := (congrArg State.armed hsame).symm.trans ha
  obtain ⟨c', hm', hk'⟩ := h'.engine ha'
  cases ht
  cases ht'
  rw [hk.tick_withoutStrategy ha hm, hk'.tick_withoutStrategy ha' hm', hsame]

/-- Settles O21: the two forms of each handler are the same up to the tail, and there `chain_spins` compares them. -/
theorem freeRunningSpinsToThreshold : Obligations.FreeRunningSpinsToThreshold := by
  unfold Obligations.FreeRunningSpinsToThreshold
  intro c s hr hst
  have hr' := hr.chained
  have ⟨_, _, hm, hv⟩ := hr
  obtain ⟨okFp, okSync, okBp⟩ := setalarmOk_vertical hv
  refine ⟨fun hh hend => ?_, fun hh hvp hf => ?_, fun hh => ?_, fun hh => ?_, fun hd =>
    ⟨fun hvp hs => ?_, fun hvp => ?_, fun hvp => ?_⟩⟩
  · by_cases hvp : s.vPhase = .activePixel
    · exact spinsTo_of (exec_hActive_pixel hr hh hvp) (exec_hActive_pixel hr' hh hvp)
        (lastPixel_spins hv hst hm (hend.resolve_left (absurd hvp)))
    · exact spinsTo_of (exec_hActive_blank hr hh hvp) (exec_hActive_blank hr' hh hvp) (endActiveSlot_spins hv hst hm)
  · obtain ⟨hmd, -⟩ := emitInRange_timing c s
    refine ⟨_, (exec_hActive_pixel hr' hh hvp).trans (congrArg _ (morePixels_underChained hv hf)), ?_⟩
    rw [underChained_restore (by simp [hmd, hm]), exec_hActive_pixel hr hh hvp]
  · exact spinsTo_of (hr.run_hPhase hh rfl) (hr'.run_hPhase hh rfl) (hFp_spins hv hst hm)
  · exact spinsTo_of (hr.run_hPhase hh rfl) (hr'.run_hPhase hh rfl) (hSync_spins hv hst hm)
  · exact spinsTo_of (exec_vEnter hr hvp hs) (exec_vEnter hr' hvp hs) (timeVertical_spins hst hm hd okFp)
  · exact spinsTo_of (exec_vFp hr hvp) (exec_vFp hr' hvp) ((timeVertical_spins hst hm hd okSync).pinSet _)
  · exact spinsTo_of (exec_vSync hr hvp) (exec_vSync hr' hvp) (timeVertical_spins hst hm hd okBp)

/-- Settles O22: the tests of R204, then the eleven checks in order, then the installation. -/
theorem schConfigChecksThenInstalls : Obligations.SchConfigChecksThenInstalls := by
  unfold Obligations.SchConfigChecksThenInstalls
  intro cfg s
  refine ⟨rfl, normalRefusals_of rfl, fun hb hf => ⟨fun ha => ?_, fun ha =>
    ⟨fun k h1 h11 hk hbefore => ?_, fun hall => ?_⟩⟩⟩
  · exact congrArg Host.Outcome.next ((normalOp_run hb hf _).trans (if_pos ha))
  · exact raises_raiseNormal hf (exec_schConfig_invalid hb hf ha (failingCheck_eq_some h1 h11 hk hbefore))
  · exact ⟨_, exec_schConfig_valid hb hf ha (valid_of_configCheck hall), Nat.succ_ne_self _, rfl,
      readChannel_installMode cfg s⟩

/-- Settles O25: the two turns of the loop. -/
theorem schTickCountsAndServes : Obligations.SchTickCountsAndServes := by
  unfold Obligations.SchTickCountsAndServes
  intro s s₁
  refine ⟨rfl, ?_⟩
  rintro rfl hbare
  have e : exec .schTick s = .next (serveAlarms 2 { s with cnt := s.cnt + 1 }) :=
    congrArg Host.Outcome.next (tick_of_noBareSpin hbare)
  rw [e]
  refine ⟨fun hH hV => ?_, fun hH => ⟨_, exec_dispatch_due hH, fun hH' hV' => ?_, fun hH' hV' => ?_⟩,
    fun hH hV => ⟨_, exec_dispatch_due hV, fun hH' hV' => ?_⟩⟩
  · rw [serveAlarms_idle 2 hH hV]
  · rw [serveAlarms_H 1 hH, serveAlarms_idle 1 hH' hV']
  · rw [serveAlarms_H 1 hH, serveAlarms_V 0 hH' hV', exec_dispatch_due hV']
    rfl
  · rw [serveAlarms_V 1 hH hV, serveAlarms_idle 1 hH' hV']

/-- Settles O27: entry, the handler of the dispatch table, return. -/
theorem schDispatchRunsHandler : Obligations.SchDispatchRunsHandler := by
  unfold Obligations.SchDispatchRunsHandler
  intro a s
  refine ⟨rfl, fun hno => ?_, fun hdue => ⟨_, exec_handlerInstr .., exec_dispatch_due hdue⟩⟩
  exact congrArg Host.Outcome.next (if_neg (by simpa [alarmDue_iff] using hno))

/-- Settles O50: the engine is in order after the tick too, so that its one alarm is on the grid and to come. -/
theorem engineNeverStops : Obligations.EngineNeverStops := by
  unfold Obligations.EngineNeverStops
  intro s t h ha ht
  cases ht
  obtain ⟨c, hm, hk⟩ := h.engine ha
  obtain ⟨hok, -⟩ := hk.tick_cases ha hm
  refine ⟨(tick_armed s).trans ha, tick_fault s, fun a => alarmDue_eq_false.1 (hok.notDue a), ?_⟩
  rcases hok.one_alarm with ⟨hon, hoff, hlt⟩ | ⟨hon, hoff, hlt⟩
  · rw [hon]
    exact .inl ⟨rfl, hoff, hlt, rfl⟩
  · rw [hon]
    exact .inr ⟨rfl, hoff, hlt, rfl⟩

/-- Settles O23: one PinClear of the engine's pins, then a line of a new frame. -/
theorem schArmStartsFrame : Obligations.SchArmStartsFrame := by
  unfold Obligations.SchArmStartsFrame
  intro s
  refine ⟨rfl, modeRefusals_of rfl, fun c hr hv => ⟨fun ha => ?_, fun ha => ?_⟩⟩
  · rw [hr.run rfl, if_pos ha]
    rfl
  · refine ⟨_, _, exec_schArm hr ha, listsSet_enginePins c, asserted_armEngine c s, ?_⟩
    rw [armEngine, startActiveLine_eq (pixelPeriod_pos hv)]
    rfl

/-- Settles O24: the tests of R204, then ARMED. -/
theorem schDisarmClearsEnables : Obligations.SchDisarmClearsEnables := by
  unfold Obligations.SchDisarmClearsEnables
  intro s
  refine ⟨rfl, normalRefusals_of rfl, fun hb hf => ⟨fun ha => ?_, fun ha => ?_⟩⟩
  · rw [exec_schDisarm hb hf, ha]
    rfl
  · rw [exec_schDisarm hb hf, ha]
    rfl

/-- Settles O26: the context, then the operands. -/
theorem schSetalarmProgramsAlarm : Obligations.SchSetalarmProgramsAlarm := by
  unfold Obligations.SchSetalarmProgramsAlarm
  intro a d h s
  refine ⟨rfl, fun hbad => ?_, fun hb hd hh hax => ?_⟩
  · cases hb : s.busy with
    | false => exact congrArg Host.Outcome.next (interruptOp_refused hb _)
    | true =>
      have hok : setalarmOk a d h = false := by
        rw [Bool.eq_false_iff, ne_eq, setalarmOk_iff]
        rintro ⟨hd, hh, hax⟩
        rcases hbad with h0 | hv | ha | hb'
        · omega
        · exact hh hv
        · exact ha hax
        · simp [hb'] at hb
      rw [exec_schSetalarm hb, setAlarm_refused hok]
      rfl
  · rw [exec_schSetalarm hb, setAlarm_ok (setalarmOk_iff.2 ⟨hd, hh, hax⟩)]
    exact ⟨fun ha => by rw [ha]; rfl, fun ha => by rw [ha]; rfl⟩

/-- Settles O28: during the wait nothing is due, and the tick that ends it frees the context before it serves. -/
theorem schSpinHoldsUntilThreshold : Obligations.SchSpinHoldsUntilThreshold := by
  unfold Obligations.SchSpinHoldsUntilThreshold
  intro th s
  refine ⟨rfl, fun hbad => ?_, fun hb hlt => ?_, fun hb hs => ⟨fun hlt => ?_, fun ht hH hV => ?_⟩⟩
  · cases hb : s.busy with
    | false => exact congrArg Host.Outcome.next (interruptOp_refused hb _)
    | true =>
      have hpast : th ≤ s.cnt := hbad.resolve_left (by simp [hb])
      rw [exec_schSpin hb, if_neg (by omega)]
      rfl
  · rw [exec_schSpin hb, if_pos hlt]
  · have hbare : s.spin ≠ some (.bare (s.cnt + 1)) := by
      simp only [hs, ne_eq, Option.some.injEq, SpinWait.bare.injEq]
      omega
    have hno := not_due_of_bareSpin (s := { s with cnt := s.cnt + 1 }) hb hs
    exact congrArg Host.Outcome.next ((tick_of_noBareSpin hbare).trans (serveAlarms_idle 2 (hno .H) (hno .V)))
  · subst ht
    exact congrArg Host.Outcome.next ((tick_of_bareSpin hs).trans (serveAlarms_idle 2 hH hV))

/-- Settles O38: while the context is occupied the tick first takes the script's next word if it is a SCH.TICK line. -/
theorem stepTicks : Obligations.StepTicks := by
  unfold Obligations.StepTicks
  intro s
  have held : s.busy = true → step s = exec .schTick (consumeTick s) := fun hb => by simp [step, nextMove, hb]
  refine ⟨fun hb => ⟨fun rest hs => ?_, fun w rest hs hw => ?_, fun hs => ?_⟩, fun hb hw hs => ?_⟩
  · rw [held hb, consumeTick_tick hs]
  · rw [held hb, consumeTick_other hs hw]
  · rw [held hb, consumeTick_nil hs]
  · simp [step, nextMove, hb, hw, hs]

end

section
/-! PROOFS. The statements of `45_host_interface.md`: that what the Framebuffer holds cannot move the timing,
that the stores of a row write the row in any order, and what the host operations answer. -/

namespace Sys2Proof.Machine

/-! ### What the Framebuffer holds and what it can move (R195, R109)

The picture of a state is the Framebuffer and all that emitting a pixel writes. What does not read the picture runs the
same under every picture; what drives a pin or emits a pixel keeps two states alike. -/

/-- `s` with the picture of `v`. -/
def withPicture (v s : State) : State :=
  { s with
    fb0 := v.fb0, fb1 := v.fb1, alloc := v.alloc, pix := v.pix, dac := v.dac, gpio := v.gpio, trace := v.trace }

/-- The update neither reads nor writes the picture. -/
def PictureFree (f : State → State) : Prop := ∀ v s, f (withPicture v s) = withPicture v (f s)

theorem PictureFree.ite {f g : State → State} (hf : PictureFree f) (hg : PictureFree g) {P : State → Prop}
    [DecidablePred P] (hP : ∀ v s, P (withPicture v s) ↔ P s) : PictureFree fun s => if P s then f s else g s := by
  intro v s
  by_cases h : P s
  · simp [hP, h, hf v s]
  · simp [hP, h, hg v s]

theorem pictureFree_refuse (r : Reason) : PictureFree (refuse r) := fun _ _ => rfl

theorem pictureFree_setAlarm (a : Axis) (d : Nat) (h : HandlerId) : PictureFree (setAlarm a d h) :=
  .ite (fun _ _ => by cases a <;> rfl) (pictureFree_refuse _) fun _ _ => Iff.rfl

theorem pictureFree_spinThen (a : Axis) (th : Nat) (h : HandlerId) : PictureFree (spinThen a th h) :=
  .ite (fun _ _ => by cases a <;> rfl) (pictureFree_refuse _) fun _ _ => Iff.rfl

theorem pictureFree_chain (c : Cfg) (a : Axis) (d th : Nat) (h : HandlerId) : PictureFree (chain c a d th h) := by
  intro v s
  unfold chain
  cases c.strategy with
  | phaseChained => exact pictureFree_setAlarm a d h v s
  | freeRunning => exact pictureFree_spinThen a th h v s

theorem pictureFree_timeVertical (c : Cfg) (n th : Nat) (h : HandlerId) : PictureFree (timeVertical c n th h) := by
  intro v s
  unfold timeVertical
  cases c.verticalDrive with
  | lineChained => rfl
  | dedicatedTimer => exact pictureFree_chain c .V _ th h v s

theorem pictureFree_startActiveLine (c : Cfg) : PictureFree (startActiveLine c) := fun v s =>
  pictureFree_setAlarm .H c.pixelPeriod .hActive v { s with hPhase := .activePixel, lineStart := s.cnt }

theorem pictureFree_startBlankLine (c : Cfg) : PictureFree (startBlankLine c) := fun v s =>
  pictureFree_setAlarm .H c.hActive .hActive v { s with hPhase := .activePixel, lineStart := s.cnt }

theorem pictureFree_endActiveSlot (c : Cfg) : PictureFree (endActiveSlot c) := fun v s =>
  pictureFree_chain c .H c.hFp (hFpEnd c s) .hFp v { s with hPhase := .frontPorch }

theorem pictureFree_advanceCursor (c : Cfg) : PictureFree (advanceCursor c) :=
  .ite (fun v s => pictureFree_endActiveSlot c v
      { s with fast := 0, slow := if c.slowLimit ≤ s.slow + c.stride then 0 else s.slow + c.stride })
    (fun v s => pictureFree_setAlarm .H c.pixelPeriod .hActive v { s with fast := s.fast + c.stride })
    fun _ _ => Iff.rfl

/-- The horizontal phase `p` begun, its end timed (R123, R124). -/
theorem pictureFree_beginHorizontal (c : Cfg) (p : Phase) {th : State → Nat} (hth : ∀ v s, th (withPicture v s) = th s)
    (d : Nat) (h : HandlerId) : PictureFree fun s => chain c .H d (th s) h { s with hPhase := p } := fun v s => by
  dsimp only
  rw [hth]
  exact pictureFree_chain c .H d (th s) h v { s with hPhase := p }

/-- The vertical phase `p` begun, its end timed (R141 to R143). -/
theorem pictureFree_beginVertical (c : Cfg) (p : Phase) {th : State → Nat} (hth : ∀ v s, th (withPicture v s) = th s)
    (n : Nat) (h : HandlerId) : PictureFree fun s => timeVertical c n (th s) h { s with vPhase := p } := fun v s => by
  dsimp only
  rw [hth]
  exact pictureFree_timeVertical c n (th s) h v { s with vPhase := p }

/-- The registers of a frame start (R144). -/
theorem pictureFree_frameRegisters :
    PictureFree fun s => { s with fast := 0, slow := 0, vPhase := .activePixel, vcnt := 0, frameStart := s.cnt } :=
  fun _ _ => rfl

theorem pictureFree_swapAtFrame (c : Cfg) : PictureFree (swapAtFrame c) :=
  .ite (fun _ _ => rfl) (fun _ _ => rfl) fun _ _ => Iff.rfl

theorem pictureFree_enterInterrupt (a : Axis) : PictureFree (enterInterrupt a) := fun _ _ => by cases a <;> rfl

theorem pictureFree_releaseBareSpin : PictureFree releaseBareSpin :=
  .ite (fun _ _ => rfl) (fun _ _ => rfl) fun _ _ => Iff.rfl

/-- The two states differ in the picture alone, their histories have one length, and the pins but the color lines one
level. -/
structure SameTiming (c : Cfg) (s s' : State) : Prop where
  eq : s' = withPicture s' s
  length : s'.trace.length = s.trace.length
  pins : ∀ p, ¬ isColorPin c.pinOfBit p → s'.asserted p = s.asserted p

section
variable {c : Cfg} {s s' : State}

/-- A state with another picture, in the place of `s'`. -/
theorem SameTiming.exists_picture (h : SameTiming c s s') : ∃ v, s' = withPicture v s := ⟨s', h.eq⟩

theorem SameTiming.update (h : SameTiming c s s') {f : State → State} (hf : PictureFree f) :
    SameTiming c (f s) (f s') := by
  have hs : f s = withPicture s (f s) := hf s s
  have hs' : f s' = withPicture s' (f s) := (congrArg f h.eq).trans (hf s' s)
  rw [hs', hs]
  exact ⟨rfl, h.length, h.pins⟩

theorem SameTiming.pinSet (h : SameTiming c s s') (ps : List Nat) : SameTiming c (pinSetOp ps s) (pinSetOp ps s') where
  eq := by rw [h.eq]; rfl
  length := by simp [pinSetOp, h.length]
  pins p hp := by simp [h.pins p hp]

theorem SameTiming.pinClear (h : SameTiming c s s') (ps : List Nat) :
    SameTiming c (pinClearOp ps s) (pinClearOp ps s') where
  eq := by rw [h.eq]; rfl
  length := by simp [pinClearOp, h.length]
  pins p hp := by simp [h.pins p hp]

/-- Whatever is emitted, four register operations are, and only the color lines tell what (R104, R109). -/
theorem SameTiming.emitChannel (h : SameTiming c s s') (ch : Channel) (v v' : Byte) :
    SameTiming c (emitChannel c ch v s) (emitChannel c ch v' s') := by
  rw [emitChannel_eq, emitChannel_eq]
  refine ⟨?_, ?_, fun p hp => ?_⟩
  · rw [h.eq]
    rfl
  · simp [channelEvents, h.length]
  · have hcolor : p ∉ colorPins c.pinOfBit := mt (mem_colorPins _ _).1 hp
    have hmask : ∀ u, p ∉ maskPins c.pinOfBit u := fun u hu => by
      obtain ⟨i, hi, -, hpin⟩ := (mem_maskPins _ _ _).1 hu
      exact hp ⟨i, hi, hpin⟩
    have hold : p ∈ s'.gpio ↔ p ∈ s.gpio := by rw [← asserted_iff_mem, h.pins p hp, asserted_iff_mem]
    rw [Bool.eq_iff_iff, asserted_iff_mem, asserted_iff_mem]
    simp [mem_channelGpio, hcolor, hmask, hold]

theorem SameTiming.emitPixel (h : SameTiming c s s') (p p' : Pixel) :
    SameTiming c (emitPixel c p s) (emitPixel c p' s') := by
  unfold Machine.emitPixel
  induction c.channelOrder.toList generalizing s s' with
  | nil => exact h
  | cons ch l ih =>
    rw [List.foldl_cons, List.foldl_cons]
    exact ih (h.emitChannel ch (p.get ch) (p'.get ch))

theorem SameTiming.fetched (h : SameTiming c s s') (p p' : Pixel) :
    SameTiming c { s with pix := p } { s' with pix := p' } where
  eq := by rw [h.eq]; rfl
  length := h.length
  pins := h.pins

/-- The pixel under the Scan Cursor is all that the engine reads of the Framebuffer. -/
theorem SameTiming.fetchAndEmit (h : SameTiming c s s') : SameTiming c (fetchAndEmit c s) (fetchAndEmit c s') :=
  (h.fetched (cursorPixel c s) (cursorPixel c s')).emitPixel _ _

theorem SameTiming.ite {t t' : State} {P : Prop} [Decidable P] (h : SameTiming c s s') (k : SameTiming c t t') :
    SameTiming c (if P then s else t) (if P then s' else t') := by
  split
  · exact h
  · exact k

theorem SameTiming.handlerOp (h : SameTiming c s s') {pre : Bool} {k k' : Cfg → State}
    (hk : ∀ d, s.md = some d → SameTiming c (k d) (k' d)) : SameTiming c (handlerOp s pre k) (handlerOp s' pre k') := by
  obtain ⟨v, rfl⟩ := h.exists_picture
  have hmode : (withPicture v s).md = s.md := rfl
  refine SameTiming.ite (P := (s.busy && s.armed && pre) = true) ?_ (h.update (pictureFree_refuse _))
  unfold withMode
  rw [hmode]
  cases hm : s.md with
  | none => exact h.update (pictureFree_refuse _)
  | some d => exact hk d hm

/-! The handlers. -/

theorem SameTiming.vEnterOp (h : SameTiming c s s') : SameTiming c (vEnterOp s) (vEnterOp s') := by
  obtain ⟨v, rfl⟩ := h.exists_picture
  exact h.handlerOp fun d _ => h.update (pictureFree_beginVertical d .frontPorch (th := vFpEnd d) (fun _ _ => rfl) _ _)

theorem SameTiming.vFpOp (h : SameTiming c s s') : SameTiming c (vFpOp s) (vFpOp s') := by
  obtain ⟨v, rfl⟩ := h.exists_picture
  exact h.handlerOp fun d _ =>
    (h.update (pictureFree_beginVertical d .sync (th := vSyncEnd d) (fun _ _ => rfl) _ _)).pinSet _

theorem SameTiming.vSyncOp (h : SameTiming c s s') : SameTiming c (vSyncOp s) (vSyncOp s') := by
  obtain ⟨v, rfl⟩ := h.exists_picture
  exact h.handlerOp fun d _ =>
    (h.pinClear _).update (pictureFree_beginVertical d .backPorch (th := vFrameEnd d) (fun _ _ => rfl) _ _)

theorem SameTiming.vBpOp (h : SameTiming c s s') : SameTiming c (vBpOp s) (vBpOp s') := by
  obtain ⟨v, rfl⟩ := h.exists_picture
  exact h.handlerOp fun d _ =>
    ((h.update pictureFree_frameRegisters).update (pictureFree_swapAtFrame d)).update (pictureFree_startActiveLine d)

theorem SameTiming.hActiveOp (h : SameTiming c s s') (hm : s.md = some c) :
    SameTiming c (hActiveOp s) (hActiveOp s') := by
  obtain ⟨v, rfl⟩ := h.exists_picture
  refine h.handlerOp fun d hd => ?_
  obtain rfl : c = d := Option.some.inj (hm.symm.trans hd)
  exact .ite (h.update (pictureFree_endActiveSlot c))
    ((SameTiming.ite h.fetchAndEmit h).update (pictureFree_advanceCursor c))

theorem SameTiming.hFpOp (h : SameTiming c s s') : SameTiming c (hFpOp s) (hFpOp s') := by
  obtain ⟨v, rfl⟩ := h.exists_picture
  exact h.handlerOp fun d _ =>
    (h.update (pictureFree_beginHorizontal d .sync (th := hSyncEnd d) (fun _ _ => rfl) _ _)).pinSet _

theorem SameTiming.hSyncOp (h : SameTiming c s s') : SameTiming c (hSyncOp s) (hSyncOp s') := by
  obtain ⟨v, rfl⟩ := h.exists_picture
  exact h.handlerOp fun d _ =>
    (h.pinClear _).update (pictureFree_beginHorizontal d .backPorch (th := hLineEnd d) (fun _ _ => rfl) _ _)

theorem SameTiming.blankPhaseDone (h : SameTiming c s s') (d : Cfg) :
    SameTiming c (blankPhaseDone d s) (blankPhaseDone d s') := by
  have hphase : s'.vPhase = s.vPhase := by rw [h.eq]; rfl
  unfold Machine.blankPhaseDone
  rw [hphase]
  cases s.vPhase with
  | frontPorch => exact h.vFpOp.update (pictureFree_startBlankLine d)
  | sync => exact h.vSyncOp.update (pictureFree_startBlankLine d)
  | backPorch => exact h.vBpOp
  | activePixel => exact h

theorem SameTiming.blankLineDone (h : SameTiming c s s') (d : Cfg) :
    SameTiming c (blankLineDone d s) (blankLineDone d s') := by
  obtain ⟨v, rfl⟩ := h.exists_picture
  have hcount : PictureFree fun s => { s with vcnt := s.vcnt - 1 } := fun _ _ => rfl
  rw [blankLineDone_eq, blankLineDone_eq]
  exact .ite ((h.update hcount).update (pictureFree_startBlankLine d)) ((h.update hcount).blankPhaseDone d)

theorem SameTiming.hBpOp (h : SameTiming c s s') : SameTiming c (hBpOp s) (hBpOp s') := by
  obtain ⟨v, rfl⟩ := h.exists_picture
  refine h.handlerOp fun d _ => ?_
  cases d.verticalDrive with
  | dedicatedTimer => exact .ite h.vEnterOp (h.update (pictureFree_startActiveLine d))
  | lineChained =>
    exact .ite (.ite (h.vEnterOp.update (pictureFree_startBlankLine d)) (h.update (pictureFree_startActiveLine d)))
      (h.blankLineDone d)

theorem SameTiming.runHandler (h : SameTiming c s s') (hm : s.md = some c) (i : HandlerId) :
    SameTiming c (runHandler i s) (runHandler i s') := by
  cases i with
  | hActive => exact h.hActiveOp hm
  | hFp => exact h.hFpOp
  | hSync => exact h.hSyncOp
  | hBp => exact h.hBpOp
  | vEnter => exact h.vEnterOp
  | vFp => exact h.vFpOp
  | vSync => exact h.vSyncOp
  | vBp => exact h.vBpOp

theorem SameTiming.dispatch (h : SameTiming c s s') (hm : s.md = some c) (a : Axis) :
    SameTiming c (dispatch a s) (dispatch a s') := by
  have halarm : s'.alarm a = s.alarm a := by rw [h.eq]; cases a <;> rfl
  unfold Machine.dispatch
  rw [halarm]
  exact ((h.update (pictureFree_enterInterrupt a)).runHandler (by simpa using hm) _).update fun _ _ => rfl

theorem SameTiming.serveAlarms (h : SameTiming c s s') (hm : s.md = some c) (n : Nat) :
    SameTiming c (serveAlarms n s) (serveAlarms n s') := by
  induction n generalizing s s' with
  | zero => exact h
  | succ n ih =>
    have hdue : ∀ a, alarmDue a s' = alarmDue a s := fun a => by rw [h.eq]; cases a <;> rfl
    simp only [Machine.serveAlarms, hdue]
    exact .ite (ih (h.dispatch hm .H) (by simpa using hm)) (.ite (ih (h.dispatch hm .V) (by simpa using hm)) h)

/-- A tick keeps two states alike: which alarms are due and what their handlers program is no part of the picture. -/
theorem SameTiming.tick (h : SameTiming c s s') (hm : s.md = some c) : SameTiming c (tick s) (tick s') := by
  have hcount : PictureFree fun s => { s with cnt := s.cnt + 1 } := fun _ _ => rfl
  exact ((h.update hcount).update pictureFree_releaseBareSpin).serveAlarms (by simpa using hm) 2

end

/-! ### The stores of a row (R191, R91) -/

/-- The channels of the columns in `l`, stored one after the other to the row that begins at slot `base`. -/
def storeRow (b : Bool) (base : Nat) (f : Nat → Pixel) (l : List (Nat × Channel)) (s : State) : State :=
  l.foldl (fun t q => storeChannel b (base + q.1) q.2 ((f q.1).get q.2) t) s

theorem storeRow_frame (b : Bool) (base : Nat) (f : Nat → Pixel) (l : List (Nat × Channel)) (s : State) :
    { storeRow b base f l s with fb0 := s.fb0, fb1 := s.fb1 } = s := by
  induction l generalizing s with
  | nil => rfl
  | cons q l ih =>
    have h := congrArg (fun t : State => { t with fb0 := s.fb0, fb1 := s.fb1 })
      (ih (storeChannel b (base + q.1) q.2 ((f q.1).get q.2) s))
    exact h.trans (storeChannel_frame ..)

/-- The stored channels read back, and every other reads as before, whatever the order of the stores. -/
theorem readChannel_storeRow (b d : Bool) (base a : Nat) (f : Nat → Pixel) (l : List (Nat × Channel)) (ch : Channel)
    (s : State) :
    readChannel (storeRow b base f l s) d a ch
      = if d = b ∧ base ≤ a ∧ (a - base, ch) ∈ l then (f (a - base)).get ch else readChannel s d a ch := by
  induction l generalizing s with
  | nil => simp [storeRow]
  | cons q l ih =>
    obtain ⟨x, dh⟩ := q
    refine (ih _).trans ?_
    rw [readChannel_storeChannel]
    by_cases hlater : d = b ∧ base ≤ a ∧ (a - base, ch) ∈ l
    · rw [if_pos hlater, if_pos (by simp [hlater])]
    · rw [if_neg hlater]
      by_cases hnow : d = b ∧ a = base + x ∧ ch = dh
      · obtain ⟨rfl, rfl, rfl⟩ := hnow
        simp
      · rw [if_neg hnow, if_neg]
        rintro ⟨hd, ha, hm⟩
        rcases List.mem_cons.1 hm with heq | hm
        · injection heq with hx hch
          exact hnow ⟨hd, by omega, hch⟩
        · exact hlater ⟨hd, ha, hm⟩

/-- A run of single-channel stores of row `y`: none of them leaves the normal context. -/
theorem runAll_rowStores {c : Cfg} {y : Nat} (hy : y < c.h) (f : Nat → Pixel) {l : List (Nat × Channel)}
    (hl : ∀ q ∈ l, q.1 < c.w) {s : State} (hr : ready c s) :
    runAll (l.map fun q => pixelStore q.1 y (f q.1) q.2) s = .next (storeRow (writerBuffer c s) (y * c.w) f l s) := by
  induction l generalizing s with
  | nil => rfl
  | cons q l ih =>
    obtain ⟨hq, hl⟩ := List.forall_mem_cons.1 hl
    rw [List.map_cons, runAll_cons (exec_pixelStore hr (inRange_of_lt hq hy) _ _), ih hl (by simpa [ready] using hr)]
    simp [writerBuffer, storeRow, slot]

/-- The columns of a row of `n` pixels, each with its three channels. -/
def rowPlaces (x n : Nat) : List (Nat × Channel) := List.range' x n ×ˢ [Channel.R, .G, .B]

theorem mem_rowPlaces {x n : Nat} {q : Nat × Channel} : q ∈ rowPlaces x n ↔ x ≤ q.1 ∧ q.1 < x + n := by
  have hch := mem_channels q.2
  rw [rowPlaces, List.mem_product]
  simp only [hch, and_true, List.mem_range'_1]

theorem rowStores_eq (y x n : Nat) (f : Nat → Pixel) :
    rowStores y x ((List.range' x n).map f) = (rowPlaces x n).map fun q => pixelStore q.1 y (f q.1) q.2 := by
  induction n generalizing x with
  | zero => rfl
  | succ n ih =>
    rw [List.range'_succ, List.map_cons, rowStores, ih]
    rfl

/-- The pixel of column `x`. -/
def rowPixel (row : List Pixel) (x : Nat) : Pixel := row.getD x ⟨0, 0, 0⟩

theorem rowPixel_eq {row : List Pixel} {x : Nat} {p : Pixel} (h : row[x]? = some p) : rowPixel row x = p := by
  simp [rowPixel, h]

theorem map_rowPixel (row : List Pixel) : (List.range' 0 row.length).map (rowPixel row) = row :=
  List.ext_getElem (by simp) fun x _ h => by simp [rowPixel, h]

/-- In any order the stores of a row store its pixels in its columns: a permutation of them is the store of one place
over a permutation of the places. -/
theorem runAll_perm_rowStores {c : Cfg} {y : Nat} {row : List Pixel} {s : State} {l : List Instr} (hr : ready c s)
    (hy : y < c.h) (hw : row.length = c.w) (hl : l.Perm (rowStores y 0 row)) :
    ∃ places, places.Perm (rowPlaces 0 c.w) ∧
      runAll l s = .next (storeRow (writerBuffer c s) (y * c.w) (rowPixel row) places s) := by
  rw [← map_rowPixel row, rowStores_eq, hw] at hl
  obtain ⟨places, rfl, hperm⟩ := (congrFun₂ (List.eq_map_comp_perm _) l _).mpr hl
  exact ⟨places, hperm, runAll_rowStores hy _ (fun q hq => by simpa using (mem_rowPlaces.1 (hperm.mem_iff.1 hq)).2) hr⟩

/-- The `FB.SET`s of a row, column by column. -/
theorem rowJobs_eq (y x : Nat) (row : List Pixel) :
    rowJobs y x row = (row.zipIdx x).map fun px => Job.op (.fbSet px.2 y px.1) := by
  induction row generalizing x with
  | nil => rfl
  | cons p ps ih => rw [rowJobs, ih, List.zipIdx_cons, List.map_cons]

end Sys2Proof.Machine

open Sys2Proof Sys2Proof.Machine

/-- Settles O56: a tick keeps two states alike that differ in the picture alone. -/
theorem framebufferCannotSteer : Obligations.FramebufferCannotSteer := by
  unfold Obligations.FramebufferCannotSteer
  intro s s' t t' c _ _ hm hsame ht ht'
  cases ht
  cases ht'
  have hstart : SameTiming c s s' := by
    rw [hsame]
    exact ⟨rfl, rfl, fun _ _ => rfl⟩
  obtain ⟨heq, hlength, hpins⟩ := hstart.tick hm
  refine ⟨?_, hlength, hpins⟩
  rw [heq]
  rfl

/-- Settles O59: each channel of a slot of the row is stored by one place, and no place is outside the row. -/
theorem writerowAnyOrder : Obligations.WriterowAnyOrder := by
  unfold Obligations.WriterowAnyOrder
  intro c y row s l hr hy hw hl
  obtain ⟨places, hperm, hrun⟩ := runAll_perm_rowStores hr hy hw hl
  have hmem : ∀ x ch, (x, ch) ∈ places ↔ x < c.w := fun x ch => by simp [hperm.mem_iff, mem_rowPlaces]
  refine ⟨_, hrun, storeRow_frame .., fun x p hp => ?_, fun b a hout => ?_⟩
  · obtain ⟨hx, -⟩ := List.getElem?_eq_some_iff.1 hp
    simp [readPixel, readChannel_storeRow, writerBuffer, hmem, ← hw, hx, rowPixel_eq hp, PerChannel.get]
  · have hother : ∀ ch, ¬ (b = writerBuffer c s ∧ y * c.w ≤ a ∧ (a - y * c.w, ch) ∈ places) := by
      rintro ch ⟨hb, ha, hx⟩
      rw [hmem] at hx
      rcases hout with hne | hlt | hge
      · exact hne hb
      · omega
      · rw [Nat.succ_mul] at hge
        omega
    simp [readPixel, readChannel_storeRow, hother]

/-- Settles O29: the tests of R204, then the length and index, then the group of the row's `FB.SET`s. -/
theorem hostWriterowIsRowOfStores : Obligations.HostWriterowIsRowOfStores := by
  unfold Obligations.HostWriterowIsRowOfStores
  intro y row s
  refine ⟨rfl, modeRefusals_of rfl, fun c hr => ⟨fun hbad => raises_of hr ?_, fun hy hw => ?_⟩⟩
  · rw [hr.run rfl, if_pos hbad]
  · rw [hr.run rfl, if_neg (by omega), rowJobs_eq]
    rfl

/-- Settles O30: the tests of R204, then the environment's outcome. -/
theorem hostLoadimageFollowsOutcome : Obligations.HostLoadimageFollowsOutcome := by
  unfold Obligations.HostLoadimageFollowsOutcome
  intro src s o
  refine ⟨rfl, modeRefusals_of rfl, fun c hr ho => ⟨fun hfail => ?_, fun rows complete hrows => ?_⟩⟩
  · rw [hr.run rfl, show loadOutcome src s = o from ho.symm]
    rcases hfail with rfl | rfl <;> rfl
  · rw [hr.run rfl, show loadOutcome src s = o from ho.symm, hrows]

/-- Settles O31: the tests of R204, then HAS_CAPQUERY, false where no mode is installed. -/
theorem hostQuerycapsAnswers : Obligations.HostQuerycapsAnswers := by
  unfold Obligations.HostQuerycapsAnswers
  intro s
  refine ⟨rfl, normalRefusals_of rfl, fun hb hf => ?_⟩
  rw [show exec .hostQuerycaps s = _ from congrArg Host.Outcome.next (normalOp_run hb hf _)]
  refine ⟨fun hm => ?_, fun c hm => ⟨fun hq => ?_, fun hq => ?_⟩⟩
  · simp [hm]
  · simp [hm, hq]
  · simp [hm, hq]

end

section
/-! PROOFS. The statements of `60_exceptions.md`: R204's tests in their order, what may write FAULT, and what no
normal-context operation may touch. -/

namespace Sys2Proof.Machine

/-! ### Illegal operands (R79) -/

theorem exists_channelCode {c : BitVec 2} (h : channelCodeOk c = true) : ∃ ch, c = channelCode ch := by
  have hsome : ∀ b : BitVec 2, channelCodeOk b = true → (channelOf b).isSome = true := by decide
  obtain ⟨ch, hch⟩ := Option.isSome_iff_exists.1 (hsome c h)
  exact ⟨ch, channelOf_eq hch⟩

theorem withChannel_refused {c : BitVec 2} (h : channelCodeOk c = false) (s : State) (k : Channel → State) :
    withChannel c s k = refuse .badOp s := by
  obtain rfl : c = 3#2 := by simpa [channelCodeOk] using h
  rfl

/-- An illegal operand is refused BAD_OP whatever the state. -/
theorem exec_of_illFormed {i : Instr} {s : State} (h : i.wellFormed = false) :
    exec i s = .next (refusedWith .badOp s) := by
  cases i
  case fbSetch | poLatchon | poLatchoff | poEmitchannel => exact congrArg Host.Outcome.next (withChannel_refused h s _)
  case schSetalarm a d hd =>
    cases hb : s.busy
    · exact congrArg Host.Outcome.next (interruptOp_refused hb _)
    · exact (exec_schSetalarm hb a d hd).trans (congrArg Host.Outcome.next (setAlarm_refused h s))
  all_goals cases h

/-! ### The openings of the operations (R80, R204) -/

/-- Of the normal-context operations with legal operands, those that need the mode open with three refusals. -/
theorem modeRefusals_of_needsMode {i : Instr} (s : State) (hw : i.wellFormed = true) (hctx : context i = .normal)
    (hn : needsMode i = true) : modeRefusals i s := by
  cases i
  case fbGet | fbSet | fbSwap | schArm | hostWriterow | hostLoadimage => exact modeRefusals_of rfl
  case fbSetch x y c v =>
    obtain ⟨ch, rfl⟩ := exists_channelCode hw
    exact modeRefusals_of (exec_fbSetch x y ch v s)
  case schConfig | schDisarm | hostQuerycaps => cases hn
  all_goals cases hctx

/-- Every normal-context operation with legal operands opens with two. -/
theorem normalRefusals_of_context {i : Instr} (s : State) (hw : i.wellFormed = true) (hctx : context i = .normal) :
    normalRefusals i s := by
  by_cases hn : needsMode i = true
  · exact (modeRefusals_of_needsMode s hw hctx hn).1
  · cases i
    case schConfig | schDisarm | hostQuerycaps => exact normalRefusals_of rfl
    case fbGet | fbSet | fbSwap | fbSetch | schArm | hostWriterow | hostLoadimage => exact absurd rfl hn
    all_goals cases hctx

theorem primitiveRefusals_of_isPrimitive {i : Instr} (s : State) (hw : i.wellFormed = true)
    (hp : isPrimitive i = true) : primitiveRefusals i s := by
  cases i
  case poClrcolor | poSetcolor | poEmitpixel => exact primitiveRefusals_of rfl
  case poLatchon | poLatchoff | poEmitchannel =>
    obtain ⟨ch, rfl⟩ := exists_channelCode hw
    exact primitiveRefusals_of_channel rfl
  all_goals cases hp

/-- An interrupt-context operation issued while the interrupt context is free is refused, but for a primitive called
while disarmed. -/
theorem exec_interrupt_refused {i : Instr} {s : State} (hw : i.wellFormed = true) (hctx : context i = .interrupt)
    (hb : s.busy = false) (ha : isPrimitive i = true → s.armed = true) : exec i s = .next (refusedWith .badOp s) := by
  by_cases hp : isPrimitive i = true
  · exact (primitiveRefusals_of_isPrimitive s hw hp).1 hb (ha hp)
  · cases i
    case fbGetu | schSetalarm | schSpin => exact congrArg Host.Outcome.next (interruptOp_refused hb _)
    case hActive | hFp | hSync | hBp | vEnter | vFp | vSync | vBp =>
      exact congrArg Host.Outcome.next (handlerOp_refused hb _)
    case poClrcolor | poSetcolor | poLatchon | poLatchoff | poEmitchannel | poEmitpixel => exact absurd rfl hp
    all_goals cases hctx

/-! ### The tests, in R204's order -/

theorem wrongContext_normal {i : Instr} (hctx : context i = .normal) (s : State) : wrongContext i s = s.busy := by
  simp [wrongContext, hctx]

theorem wrongContext_interrupt {i : Instr} (hctx : context i = .interrupt) (s : State) :
    wrongContext i s = false ↔ s.busy = true ∨ isPrimitive i = true ∧ s.armed = false := by
  simp only [wrongContext, hctx]
  cases s.busy <;> simp

theorem exec_of_wrongContext {i : Instr} {s : State} (hw : i.wellFormed = true) (h : wrongContext i s = true) :
    exec i s = .next (refusedWith .badOp s) := by
  cases hctx : context i with
  | normal => exact (normalRefusals_of_context s hw hctx).1 (wrongContext_normal hctx s ▸ h)
  | interrupt =>
    have hno : ¬ wrongContext i s = false := by simp [h]
    rw [wrongContext_interrupt hctx] at hno
    exact exec_interrupt_refused hw hctx (by simpa using mt .inl hno) (by simpa using mt .inr hno)
  | timers => simp [wrongContext, hctx] at h

theorem exec_of_faulted {i : Instr} {s : State} (hw : i.wellFormed = true) (hc : wrongContext i s = false)
    (hctx : context i = .normal) (hf : s.fault ≠ .none) : exec i s = .next (refusedWith .faulted s) :=
  (normalRefusals_of_context s hw hctx).2 (wrongContext_normal hctx s ▸ hc) hf

theorem exec_of_noMode {i : Instr} {s : State} (hw : i.wellFormed = true) (hc : wrongContext i s = false)
    (hf : context i = .normal → s.fault = .none) (hn : needsMode i = true) (hm : s.md = none) :
    exec i s = .next (refusedWith .notConfigured s) := by
  cases i
  case fbGet | fbSet | fbSwap | fbSetch | schArm | hostWriterow | hostLoadimage =>
    exact (modeRefusals_of_needsMode s hw rfl rfl).2 hc (hf rfl) hm
  case poClrcolor | poSetcolor | poLatchon | poLatchoff | poEmitchannel | poEmitpixel =>
    exact (primitiveRefusals_of_isPrimitive s hw rfl).2 (((wrongContext_interrupt rfl s).1 hc).imp_right And.right) hm
  case fbGetu x y =>
    have hb : s.busy = true := ((wrongContext_interrupt rfl s).1 hc).resolve_right (by simp [isPrimitive])
    refine congrArg Host.Outcome.next ((interruptOp_run hb _).trans ?_)
    simp [withMode, hm, refuse]
  all_goals cases hn

theorem handlerOp_precondition_false {s : State} {pre : Bool} (h : (s.armed && pre) = false) (k : Cfg → State) :
    handlerOp s pre k = refuse .badOp s :=
  if_neg (by simp [Bool.and_assoc, h])

/-- A handler whose precondition is false is refused, in any context. -/
theorem exec_of_precondition_false {i : Instr} {s : State} (h : precondition s i = false) :
    exec i s = .next (refusedWith .badOp s) := by
  cases i
  case hActive | hFp | hSync | hBp | vFp | vSync | vBp =>
    exact congrArg Host.Outcome.next (handlerOp_precondition_false h _)
  case vEnter => exact congrArg Host.Outcome.next (handlerOp_precondition_false ((Bool.and_assoc ..).symm.trans h) _)
  all_goals cases h

/-- What depends on the state or on Cfg is tested last. -/
theorem exec_of_lateBadOp {i : Instr} {s : State} (hc : wrongContext i s = false)
    (hf : context i = .normal → s.fault = .none) (h : lateBadOp i s = true) :
    exec i s = .next (refusedWith .badOp s) := by
  cases i
  case fbSwap =>
    obtain ⟨c, hm, hd⟩ := (Option.any_eq_true _ _).1 h
    have hr : ready c s := ⟨hc, hf rfl, hm⟩
    exact (hr.run rfl).trans (congrArg Host.Outcome.next (if_pos hd))
  case schSpin th =>
    have hb : s.busy = true := ((wrongContext_interrupt rfl s).1 hc).resolve_right (by simp [isPrimitive])
    rw [exec_schSpin hb, if_neg (not_lt.2 (of_decide_eq_true h))]
    rfl
  all_goals exact exec_of_precondition_false ((Bool.not_eq_true' _).mp h)

theorem exec_schConfig_armed {s : State} (hb : s.busy = false) (hf : s.fault = .none) (ha : s.armed = true)
    (cfg : Cfg) : exec (.schConfig cfg) s = .next (refusedWith .isArmed s) :=
  congrArg Host.Outcome.next ((normalOp_run hb hf _).trans (if_pos ha))

theorem exec_schArm_armed {c : Cfg} {s : State} (hr : ready c s) (ha : s.armed = true) :
    exec .schArm s = .next (refusedWith .isArmed s) :=
  (hr.run rfl).trans (congrArg Host.Outcome.next (if_pos ha))

theorem exec_schDisarm_disarmed {s : State} (hb : s.busy = false) (hf : s.fault = .none) (ha : ¬ s.armed = true) :
    exec .schDisarm s = .next (refusedWith .notArmed s) :=
  (exec_schDisarm hb hf).trans (congrArg Host.Outcome.next (if_neg ha))

/-! ### FAULT (R207) -/

theorem setFault_faulted {s : State} (hf : s.fault ≠ .none) (f : FaultCode) : (setFault f s).fault = s.fault :=
  if_neg hf

theorem raiseNormal_faulted {s : State} (hf : s.fault ≠ .none) (f : FaultCode) : (raiseNormal f s).fault = s.fault :=
  setFault_faulted hf f

theorem raiseInterrupt_faulted {s : State} (hf : s.fault ≠ .none) (f : FaultCode) :
    (raiseInterrupt f s).fault = s.fault :=
  setFault_faulted hf f

@[simp] theorem armEngine_fault (c : Cfg) (s : State) : (armEngine c s).fault = s.fault := by simp [armEngine]

/-- No operation writes FAULT once it is set: of all it can answer, only a raised fault would. -/
theorem exec_faulted {i : Instr} {s t : State} (hf : s.fault ≠ .none) (h : exec i s = .next t) :
    t.fault = s.fault := by
  refine exec_ind (P := fun t => t.fault = s.fault) ?_ h
  constructor
  all_goals intros
  case raised | badConfig => exact raiseNormal_faulted hf _
  case raisedInterrupt => exact raiseInterrupt_faulted hf _
  all_goals simp [installMode]

theorem sameMachine.fault {s u : State} (e : sameMachine s u) : u.fault = s.fault := by
  unfold sameMachine at e
  rw [e]

/-! ### The engine and the normal context (R190, R195, R214) -/

/-- `t` is `s` but for what the normal context may write: FAULT, the mode, the double buffer, and the model's own
bookkeeping of the issuer. -/
def sameEngine (s t : State) : Prop :=
  t = { s with
    fault := t.fault, md := t.md, fb0 := t.fb0, fb1 := t.fb1, front := t.front, swapReq := t.swapReq, work := t.work,
    nfree := t.nfree, alloc := t.alloc, response := t.response }

theorem sameEngine_storeChannel (b : Bool) (a : Nat) (ch : Channel) (v : Byte) (s : State) :
    sameEngine s (storeChannel b a ch v s) := by
  cases b <;> rfl

theorem sameEngine_storePixel (b : Bool) (a : Nat) (p : Pixel) (s : State) : sameEngine s (storePixel b a p s) := by
  cases b <;> rfl

theorem context_handlerInstr (h : HandlerId) : context (handlerInstr h) = .interrupt := by
  cases h <;> rfl

/-- Of all a normal-context operation can answer, only the arming and the disarming write an engine register. -/
theorem exec_sameEngine {i : Instr} {s t : State} (hctx : context i = .normal) (hArm : i ≠ .schArm)
    (hDisarm : i ≠ .schDisarm) (h : exec i s = .next t) : sameEngine s t := by
  refine exec_ind ?_ h
  constructor
  all_goals intros
  case armed hi _ _ => exact absurd hi hArm
  case disarmed hi _ _ => exact absurd hi hDisarm
  case handler hi _ => exact absurd (hi ▸ hctx) (by simp [context_handlerInstr])
  case cleared | colored | latchedOn | latchedOff | channel | pixel | ticked | alarmSet | dispatched | spun |
      raisedInterrupt =>
    subst_vars
    cases hctx
  case stored => exact sameEngine_storeChannel ..
  case storedPixel => exact sameEngine_storePixel ..
  all_goals rfl

end Sys2Proof.Machine

open Sys2Proof Sys2Proof.Machine

/-- Settles O40: one lemma for each of R204's tests, in their order. -/
theorem refusalOrder : Obligations.RefusalOrder := by
  unfold Obligations.RefusalOrder
  intro i s r h
  unfold firstRefusal at h
  split at h
  next hbad =>
    cases h
    by_cases hw : i.wellFormed = true
    · exact exec_of_wrongContext hw (by simpa [hw] using hbad)
    · exact exec_of_illFormed (by simpa using hw)
  next hgood =>
  obtain ⟨hw, hc⟩ : i.wellFormed = true ∧ wrongContext i s = false := by simpa using hgood
  split at h
  next hfaulted =>
    cases h
    exact exec_of_faulted hw hc hfaulted.1 hfaulted.2
  next hnone =>
  have hf : context i = .normal → s.fault = .none := by simpa using hnone
  split at h
  next hmissing =>
    cases h
    exact exec_of_noMode hw hc hf hmissing.1 hmissing.2
  next hmode =>
  split at h
  next cfg =>
    obtain ⟨ha, rfl⟩ : s.armed = true ∧ Reason.isArmed = r := by simpa using h
    exact exec_schConfig_armed hc (hf rfl) ha cfg
  next =>
    obtain ⟨ha, rfl⟩ : s.armed = true ∧ Reason.isArmed = r := by simpa using h
    obtain ⟨c, hm⟩ := Option.ne_none_iff_exists'.1 fun hm => hmode ⟨rfl, hm⟩
    exact exec_schArm_armed ⟨hc, hf rfl, hm⟩ ha
  next =>
    obtain ⟨ha, rfl⟩ : ¬ s.armed = true ∧ Reason.notArmed = r := by simpa using h
    exact exec_schDisarm_disarmed hc (hf rfl) ha
  next =>
    obtain ⟨hl, rfl⟩ : lateBadOp i s = true ∧ Reason.badOp = r := by simpa using h
    exact exec_of_lateBadOp hc hf hl

/-- Settles O41: an operation keeps a FAULT that is set, and a step that runs none writes only the bookkeeping. -/
theorem faultSticky : Obligations.FaultSticky := by
  unfold Obligations.FaultSticky
  intro s t hf hs
  rcases step_cases hs with ⟨i, u, hu, ht, -⟩ | ⟨hu, -⟩
  · exact (exec_faulted (hu.fault ▸ hf) ht).trans hu.fault
  · exact hu.fault

/-- Settles O42: the answer differs from its state only in what the normal context may write. -/
theorem normalLeavesEngine : Obligations.NormalLeavesEngine := by
  unfold Obligations.NormalLeavesEngine
  intro i s t hctx hArm hDisarm h
  have same := exec_sameEngine hctx hArm hDisarm h
  unfold sameEngine at same
  rw [same]
  exact ⟨rfl, rfl, rfl, rfl, rfl, rfl, rfl, rfl, rfl, rfl, rfl, rfl, rfl, rfl, rfl, rfl⟩

end

section
/-! PROOFS. The statement of `70_reset_and_hazards.md`: a machine that is disarmed and has nothing to issue only counts,
and the machine at reset is one. -/

namespace Sys2Proof.Machine

/-- A run goes on from the state its first step answers. -/
theorem run_succ_of_step {M : Host.Core} {s t : M.State} (h : M.step s = .next t) (n : Nat) :
    M.run (n + 1) s = M.run n t := by
  rw [Host.Core.run, h]

/-- R231. A disarmed machine with nothing to issue is given to time, and time only counts. -/
theorem step_inert {s : State} (h : MachineOk s) (ha : s.armed = false) (hw : s.work = [])
    (hs : s.script = []) : step s = .next { s with cnt := s.cnt + 1 } := by
  obtain ⟨hH, hV, hb, hspin⟩ := h.idle ha
  calc step s = exec .schTick s := (stepTicks s).2 hb hw hs
    _ = .next (tick s) := rfl
    _ = .next { s with cnt := s.cnt + 1 } := by rw [tick_idle hH hV hspin]

/-- R231. Such a machine stays so: `n` of its steps count `n`. -/
theorem run_inert {s : State} (h : MachineOk s) (ha : s.armed = false) (hw : s.work = [])
    (hs : s.script = []) (n : Nat) : core.run n s = .next { s with cnt := s.cnt + n } := by
  induction n generalizing s with
  | zero => rfl
  | succ n ih =>
    have hstep := step_inert h ha hw hs
    calc core.run (n + 1) s = core.run n { s with cnt := s.cnt + 1 } := run_succ_of_step (M := core) hstep n
      _ = .next { s with cnt := s.cnt + 1 + n } := ih (h.step hstep) ha hw hs
      _ = .next { s with cnt := s.cnt + (n + 1) } := by rw [Nat.add_assoc, Nat.add_comm 1 n]

end Sys2Proof.Machine

open Sys2Proof Sys2Proof.Machine

/-- Settles O47: the machine at reset is in order, disarmed and without anything to issue, so its steps only count. -/
theorem resetIsInert : Obligations.ResetIsInert := by
  unfold Obligations.ResetIsInert
  intro n
  refine ⟨_, run_inert reset_machineOk rfl rfl rfl n, rfl, ?_⟩
  exact ⟨rfl, rfl, rfl, rfl, rfl, rfl, rfl, rfl, rfl, rfl, rfl, rfl, rfl, rfl, fun ch => by cases ch <;> rfl⟩

end
